-- ==== Sys2Proof/Word.lean ====
section
/-! DEFINITION. The word types of the probe-rs DAP block: the 32-bit register word, the byte of a JTAG buffer, the
flat bit vector of the codec. Only names of types stand here; every function over them is in Machine/. -/

namespace Sys2Proof

/-- A 32-bit Debug Port or Access Port register value (R58, R92). -/
abbrev Word := BitVec 32

/-- One byte of a JTAG buffer (R56, R154). -/
abbrev Byte := BitVec 8

/-- A flat bit vector in wire order: the head is index 0, the bit that goes on the wire first (R5, R32). -/
abbrev Bits := List Bool

end Sys2Proof
end

