-- ==== Sys2Proof/Config.lean ====
section
/-! DEFINITION. The implementation parameters of R4: the fixed ones as constants, the decided and the open ones as
fields of one configuration record that a state carries (R42), and the two free values of the environment. -/

namespace Sys2Proof

/-- The two wire protocols (R1, R21). -/
inductive Protocol where
  | swd
  | jtag
deriving DecidableEq, Repr

/-- What the transport does with a requested speed that falls under one rule of `Config.speedRules` (R105, R212). -/
inductive SpeedTaken where
  /-- the speed asked for is taken as it is -/
  | asAsked
  /-- this speed is taken instead -/
  | instead (khz : Nat)
  /-- `speed_accept` is `None` -/
  | unsupported
deriving DecidableEq, Repr

/-- One line of the table that gives the open parameter `speed_accept`: requests from `lo` to `hi` inclusive. -/
structure SpeedRule where
  lo : Nat
  hi : Nat
  taken : SpeedTaken
deriving DecidableEq, Repr

/-- The parameters of R4 that are marked decided or open (R42: fixed while the block runs, written by no command).
The parameters marked fixed are the constants below the structure. A field whose width is a parameter is a natural
number, and the widths say how far it goes (assumption log 5). -/
structure Config where
  /-- `ENGINE_WRITE_IDLE` (D7) -/
  engineWriteIdle : Nat
  /-- `N_TRN_ACK` (D5) -/
  nTrnAck : Nat
  /-- `N_RESET_HIGH` (D8) -/
  nResetHigh : Nat
  /-- `JTAG_TO_SWD` (D8) -/
  jtagToSwd : BitVec 16
  /-- `N_RESET_POST_HIGH` (D8) -/
  nResetPostHigh : Nat
  /-- `N_RESET_TAIL` (D8) -/
  nResetTail : Nat
  /-- `ADDR_DPIDR` (D13) -/
  addrDpidr : BitVec 4
  /-- `ADDR_ABORT` (D13) -/
  addrAbort : BitVec 4
  /-- `ADDR_CTRLSTAT` (D13) -/
  addrCtrlstat : BitVec 4
  /-- `ADDR_RDBUFF` (D13) -/
  addrRdbuff : BitVec 4
  /-- `BIT_STKERRCLR` of ABORT (D13) -/
  bitStkerrclr : Nat
  /-- `BIT_ORUNERRCLR` of ABORT (D13) -/
  bitOrunerrclr : Nat
  /-- `BIT_STICKYORUN` of CTRL/STAT (D13) -/
  bitStickyorun : Nat
  /-- `BIT_STICKYERR` of CTRL/STAT (D13) -/
  bitStickyerr : Nat
  /-- `RECOVER_ON_LAST_ATTEMPT` (D11) -/
  recoverOnLastAttempt : Bool
  /-- `SPEED_BITS` (D22): width of `speed_khz` and of the operand `khz` -/
  speedBits : Nat
  /-- `IDLE_BITS` (D20): width of `jtag_idle_cycles` and of the operand `cycles` -/
  idleBits : Nat
  /-- `APIDX_BITS` (D15): width of the Access Port index -/
  apidxBits : Nat
  /-- `RESET_PROTOCOL`, open (D22) -/
  resetProtocol : Protocol
  /-- `RESET_SPEED_KHZ`, open (D22) -/
  resetSpeedKhz : Nat
  /-- `Swd` is in `SUPPORTED_PROTOCOLS`, open (D1) -/
  supportsSwd : Bool
  /-- `Jtag` is in `SUPPORTED_PROTOCOLS`, open (D1) -/
  supportsJtag : Bool
  /-- `speed_accept`, open (D26): the first rule whose range holds the request decides, no rule means `None` -/
  speedRules : List SpeedRule
  /-- `MAX_DR_BITS`, open (D18): `none` is unbounded -/
  maxDrBits : Option Nat
deriving DecidableEq, Repr

namespace Config

/-! ### The fixed parameters of R4 -/

/-- `MAX_ATTEMPTS`: "a fixed count (5 attempts)". -/
def maxAttempts : Nat := 5
/-- `MIN_WRITE_IDLE`: "(minimum 8)". -/
def minWriteIdle : Nat := 8
/-- `N_HDR`: request header length. -/
def nHdr : Nat := 8
/-- `N_ACK`: acknowledgement bits. -/
def nAck : Nat := 3
/-- `N_TRN_WR`: turnaround bits before write data. -/
def nTrnWr : Nat := 2
/-- `N_TRN_RD`: turnaround bits after read parity. -/
def nTrnRd : Nat := 1
/-- `N_DATA`: data bits. -/
def nData : Nat := 32
/-- `MAX_IR_LEN`: longest JTAG instruction-register write. -/
def maxIrLen : Nat := 8

/-- The default configuration: every decided parameter of R4 at its value there. The open parameters have no default
in R4; their values here are DESIGN CHOICE (assumption log 3) and are those of 95_test_vectors.md section 2.11 where
it gives one, else the encoding 0. No statement rests on them. -/
def default : Config where
  engineWriteIdle := 8
  nTrnAck := 1
  nResetHigh := 50
  jtagToSwd := 0xE79E#16
  nResetPostHigh := 0
  nResetTail := 8
  addrDpidr := 0x0#4
  addrAbort := 0x0#4
  addrCtrlstat := 0x4#4
  addrRdbuff := 0xC#4
  bitStkerrclr := 2
  bitOrunerrclr := 4
  bitStickyorun := 1
  bitStickyerr := 5
  recoverOnLastAttempt := true
  speedBits := 32
  idleBits := 8
  apidxBits := 8
  resetProtocol := .swd
  resetSpeedKhz := 0
  supportsSwd := true
  supportsJtag := true
  speedRules := [⟨1, 10000, .asAsked⟩, ⟨10001, 0xFFFFFFFF, .instead 10000⟩]
  maxDrBits := none

/-- A rule of `speed_accept` answers with a speed that fits `SPEED_BITS` (R105: `Actual(k2)`). -/
def ruleFits (bits : Nat) (r : SpeedRule) : Bool :=
  match r.taken with
  | .asAsked => true
  | .instead k => decide (k < 2 ^ bits)
  | .unsupported => true

/-- The constraints R4 puts on the decided parameters, `ENGINE_WRITE_IDLE >= MIN_WRITE_IDLE` and `N_RESET_HIGH >= 50`;
for the register constants of R34 to R37, offsets that R57 admits and bit positions inside a 32-bit word; and speeds
that fit `SPEED_BITS` (all but the first two DEDUCED, assumption log 18). -/
def wf (c : Config) : Bool :=
  decide (minWriteIdle ≤ c.engineWriteIdle) && decide (50 ≤ c.nResetHigh) &&
  (c.addrDpidr.extractLsb' 0 2 == 0#2) && (c.addrAbort.extractLsb' 0 2 == 0#2) &&
  (c.addrCtrlstat.extractLsb' 0 2 == 0#2) && (c.addrRdbuff.extractLsb' 0 2 == 0#2) &&
  decide (c.bitStkerrclr < 32) && decide (c.bitOrunerrclr < 32) &&
  decide (c.bitStickyorun < 32) && decide (c.bitStickyerr < 32) &&
  decide (c.resetSpeedKhz < 2 ^ c.speedBits) && c.speedRules.all (ruleFits c.speedBits)

/-! ### Free values of the environment (assumption log 2)

An answer of the environment that no script of a state fixes. They have no body: nothing in Lean can evaluate them,
so a claim that holds holds for every answer (U8, U13, U17). -/

/-- Whether the transport fails at its `n`-th call, where the script of the state has run out (U13). -/
opaque freeFailed : (call : Nat) → Bool

/-- The bit sampled at position `pos` of the `n`-th call, where the script of the state gives none (U8, U17). -/
opaque freeBit : (call pos : Nat) → Bool

end Config

end Sys2Proof
end

