-- ==== Sys2Proof/Syntax.lean ====
section
/-! DEFINITION. The syntax: operand types (R41), the instructions of spec/opcode_table.json (R80), the two forms in which
one is presented to the block, the command record of R81 and the call by name of a pseudo-instruction (R84) or a codec
function (R80), and the line of text of R83. -/

namespace Sys2Proof

/-- The port classifier of a Register Address (R41): 0 = Debug Port, 1 = Access Port. -/
inductive Port where
  | dp
  | ap
deriving DecidableEq, Repr

/-- The direction of a Transaction (R41). -/
inductive Dir where
  | read
  | write
deriving DecidableEq, Repr

/-- The instructions of R80, a constructor for each row of spec/opcode_table.json: the fourteen commands and two reserved
opcodes of R82 and R85, the seven pseudo-instructions of R84, the codec functions of 40_swd_codec.md and
41_jtag_codec.md. The table has a row of `jtag_enc_ir` for each length from 1 to 8; R150 also says what the function
does at length 0 and at a length above 8, which have a constructor each. -/
inductive Instr where
  -- commands (R82)
  | dapRd (port : Port) (apidx : Nat) (addr : BitVec 4)
  | dapWr (port : Port) (apidx : Nat) (addr : BitVec 4) (value : Word)
  | lrst
  | protoSel (proto : Protocol)
  | protoGet
  | speedSet (khz : Nat)
  | speedGet
  | jidleSet (cycles : Nat)
  | rstAssert
  | rstDeassert
  | attach
  | jtagWir (irval : BitVec 8) (irlen : Nat)
  | jtagRd (irval : BitVec 8) (irlen : Nat) (drbits : Nat)
  | jtagWr (irval : BitVec 8) (irlen : Nat) (drbits : Nat) (data : List Byte)
  | reservedE
  | reservedF
  -- pseudo-instructions (R84)
  | rdDpidr
  | wrAbort (value : Word)
  | rdCtrlstat
  | wrCtrlstat (value : Word)
  | rdRdbuff
  | clrOrun
  | clrStkerr
  -- SWD codec functions (R120 to R128)
  | swdHdr (port : Port) (dir : Dir) (addr : BitVec 4)
  | swdEncWrite (port : Port) (addr : BitVec 4) (value : Word) (idle : Nat)
  | swdEncRead (port : Port) (addr : BitVec 4)
  | swdDecAck (s : Bits)
  | swdDecRead (s : Bits)
  | swdDecWrite (io : Bits)
  | swdEncLineReset
  | swdPar32 (value : Word)
  | mkSeq (io dir : Bits)
  -- JTAG codec functions (R150 to R154)
  | jtagEncIrLen1 (irval : BitVec 8)
  | jtagEncIrLen2 (irval : BitVec 8)
  | jtagEncIrLen3 (irval : BitVec 8)
  | jtagEncIrLen4 (irval : BitVec 8)
  | jtagEncIrLen5 (irval : BitVec 8)
  | jtagEncIrLen6 (irval : BitVec 8)
  | jtagEncIrLen7 (irval : BitVec 8)
  | jtagEncIrLen8 (irval : BitVec 8)
  /-- `jtag_enc_ir(irval, 0)` -/
  | jtagEncIrLen0 (irval : BitVec 8)
  /-- `jtag_enc_ir(irval, 9 + excess)`: the length exceeds `MAX_IR_LEN` -/
  | jtagEncIrLong (irval : BitVec 8) (excess : Nat)
  | jtagEncDr (bytes : List Byte) (drbits : Nat)
  | jtagDecDr (tdo : Bits) (drbits : Nat)
  | jtagEncIdle (cycles : Nat)
  | unpackBits (bytes : List Byte) (n : Nat)
  | packBits (bits : Bits)
deriving DecidableEq, Repr

/-- A call by name with operands of the types its rule gives them: a pseudo-instruction (R84) or a codec function (R80,
case (b)). -/
inductive Named where
  | rdDpidr
  | wrAbort (value : Word)
  | rdCtrlstat
  | wrCtrlstat (value : Word)
  | rdRdbuff
  | clrOrun
  | clrStkerr
  | swdHdr (port : Port) (dir : Dir) (addr : BitVec 4)
  | swdEncWrite (port : Port) (addr : BitVec 4) (value : Word) (idle : Nat)
  | swdEncRead (port : Port) (addr : BitVec 4)
  | swdDecAck (s : Bits)
  | swdDecRead (s : Bits)
  | swdDecWrite (io : Bits)
  | swdEncLineReset
  | swdPar32 (value : Word)
  | mkSeq (io dir : Bits)
  | jtagEncIr (irval : BitVec 8) (len : Nat)
  | jtagEncDr (bytes : List Byte) (drbits : Nat)
  | jtagDecDr (tdo : Bits) (drbits : Nat)
  | jtagEncIdle (cycles : Nat)
  | unpackBits (bytes : List Byte) (n : Nat)
  | packBits (bits : Bits)
deriving DecidableEq, Repr

/-- The command record of R81, field by field with the widths of its table; where a width is a parameter of R4 the field
is a natural number, and the port reads as many of its low bits as it has (assumption log 5). A field that R82 does not
list for the record's `op` is absent from the command; here it then holds whatever it holds and no decoder looks at it
(assumption log 6). -/
structure Record where
  op : BitVec 4
  port : BitVec 1 := 0#1
  apidx : Nat := 0
  addr : BitVec 4 := 0#4
  value : BitVec 32 := 0#32
  proto : BitVec 1 := 0#1
  khz : Nat := 0
  cycles : Nat := 0
  irval : BitVec 8 := 0#8
  irlen : Nat := 0
  drbits : Nat := 0
  data : List Byte := []
deriving DecidableEq, Repr

/-- What the host presents to the block (assumption log 6). -/
inductive Presented where
  /-- a command record on the command port (R81) -/
  | record (r : Record)
  /-- a pseudo-instruction or a codec function, by its name -/
  | named (n : Named)
deriving DecidableEq, Repr

/-- One input of the block, in the order the inputs come: something the host presents on the command port (R81), or the
reset of the block, which no command raises (R270; assumption log 10). -/
inductive Input where
  | port (p : Presented)
  | reset
deriving DecidableEq, Repr

/-- The mnemonics of R83 and R84, the only ones with a textual form. -/
inductive Mnemonic where
  | dapRd | dapWr | lrst | protoSel | protoGet | speedSet | speedGet | jidleSet | rstAssert | rstDeassert | attach
  | jtagWir | jtagRd | jtagWr
  | rdDpidr | wrAbort | rdCtrlstat | wrCtrlstat | rdRdbuff | clrOrun | clrStkerr
deriving DecidableEq, Repr

/-- One operand of a line (R83). -/
inductive Operand where
  | num (n : Nat)
  | dp
  | ap (index : Nat)
  | proto (p : Protocol)
  | bytes (bs : List Byte)
deriving DecidableEq, Repr

/-- A line of R83 after its characters have been read: a mnemonic and its operands in order. -/
structure Line where
  mnemonic : Mnemonic
  operands : List Operand
deriving DecidableEq, Repr

/-- Why a text or a bit pattern is no instruction. It is a name for the readers of texts and patterns alone: nothing of
this kind reaches the block, whose port takes a `Presented`. -/
inductive DecodeError where
  /-- the text is no line of R83: an unknown mnemonic or an unreadable operand -/
  | text
  /-- the line's operands are not those of its mnemonic, in number, kind or width -/
  | operands (m : Mnemonic)
  /-- the bit pattern matches no row of spec/opcode_table.json -/
  | pattern
deriving DecidableEq, Repr

end Sys2Proof
end

