-- ==== Sys2Proof/WellFormed.lean ====
section
/-! DEFINITION. Well-formed instructions: the operand limits of R85 and R250 for the commands, and the stated domains
of the codec functions (R130). Each check is a function of the instruction and the configuration alone (R250: "all of
them testable from the command record alone, with no state read"). -/

namespace Sys2Proof

/-- R57: the two low bits of a register offset are 0. -/
def alignedOffset (addr : BitVec 4) : Bool := addr.extractLsb' 0 2 == 0#2

/-- R250 causes (3) and (4): `irlen >= 1`, and `irval < 2^irlen` where `irlen <= MAX_IR_LEN`. -/
def irOperandsInContract (irval : BitVec 8) (irlen : Nat) : Bool :=
  decide (1 ≤ irlen) && (decide (Config.maxIrLen < irlen) || decide (irval.toNat < 2 ^ irlen))

/-- R250 cause (5), and R151's bound where `MAX_DR_BITS` is taken finite. -/
def drBitsInContract (c : Config) (drbits : Nat) : Bool :=
  decide (1 ≤ drbits) && (match c.maxDrBits with
    | none => true
    | some m => decide (drbits ≤ m))

/-- `ceil(n / 8)` (R81, R154). -/
def ceilDiv8 (n : Nat) : Nat := (n + 7) / 8

/-- The instruction is inside the block's contract: none of the causes of R250 holds for a command, and the operands
of a codec function break no `assert` of its rule (R130; a length of `jtag_enc_ir` above 8 is an error and breaks none,
R150). The reserved opcodes select no command (R85). -/
def Instr.wf (c : Config) : Instr → Bool
  | .dapRd _ _ addr => alignedOffset addr
  | .dapWr _ _ addr _ => alignedOffset addr
  | .lrst => true
  | .protoSel _ => true
  | .protoGet => true
  | .speedSet _ => true
  | .speedGet => true
  | .jidleSet _ => true
  | .rstAssert => true
  | .rstDeassert => true
  | .attach => true
  | .jtagWir irval irlen => irOperandsInContract irval irlen
  | .jtagRd irval irlen drbits => irOperandsInContract irval irlen && drBitsInContract c drbits
  | .jtagWr irval irlen drbits data =>
      irOperandsInContract irval irlen && drBitsInContract c drbits && decide (data.length = ceilDiv8 drbits)
  | .reservedE => false
  | .reservedF => false
  | .rdDpidr => alignedOffset c.addrDpidr
  | .wrAbort _ => alignedOffset c.addrAbort
  | .rdCtrlstat => alignedOffset c.addrCtrlstat
  | .wrCtrlstat _ => alignedOffset c.addrCtrlstat
  | .rdRdbuff => alignedOffset c.addrRdbuff
  | .clrOrun => alignedOffset c.addrAbort
  | .clrStkerr => alignedOffset c.addrAbort
  | .swdHdr _ _ addr => alignedOffset addr
  | .swdEncWrite _ addr _ idle => alignedOffset addr && decide (Config.minWriteIdle ≤ idle)
  | .swdEncRead _ addr => alignedOffset addr
  | .swdDecAck s => decide (Config.nHdr + c.nTrnAck + Config.nAck ≤ s.length)
  | .swdDecRead s =>
      decide (s.length = Config.nHdr + c.nTrnAck + Config.nAck + Config.nData + 1 + Config.nTrnRd)
  | .swdDecWrite io =>
      decide (Config.nHdr + c.nTrnAck + Config.nAck + Config.nTrnWr + Config.nData + 1 ≤ io.length)
  | .swdEncLineReset => true
  | .swdPar32 _ => true
  | .mkSeq io dir => decide (io.length = dir.length)
  | .jtagEncIrLen1 irval => decide (irval.toNat < 2 ^ 1)
  | .jtagEncIrLen2 irval => decide (irval.toNat < 2 ^ 2)
  | .jtagEncIrLen3 irval => decide (irval.toNat < 2 ^ 3)
  | .jtagEncIrLen4 irval => decide (irval.toNat < 2 ^ 4)
  | .jtagEncIrLen5 irval => decide (irval.toNat < 2 ^ 5)
  | .jtagEncIrLen6 irval => decide (irval.toNat < 2 ^ 6)
  | .jtagEncIrLen7 irval => decide (irval.toNat < 2 ^ 7)
  | .jtagEncIrLen8 irval => decide (irval.toNat < 2 ^ 8)
  | .jtagEncIrLen0 irval => irOperandsInContract irval 0
  | .jtagEncIrLong irval excess => irOperandsInContract irval (9 + excess)
  | .jtagEncDr bytes drbits => drBitsInContract c drbits && decide (bytes.length = ceilDiv8 drbits)
  | .jtagDecDr tdo drbits => decide (1 ≤ drbits) && decide (tdo.length = drbits + 5)
  | .jtagEncIdle cycles => decide (1 ≤ cycles)
  | .unpackBits bytes n => decide (bytes.length = ceilDiv8 n)
  | .packBits _ => true

/-- Every operand whose width is a parameter of R4 fits the width it has in this configuration (R81). -/
def Instr.fits (c : Config) : Instr → Bool
  | .dapRd _ apidx _ => decide (apidx < 2 ^ c.apidxBits)
  | .dapWr _ apidx _ _ => decide (apidx < 2 ^ c.apidxBits)
  | .speedSet khz => decide (khz < 2 ^ c.speedBits)
  | .jidleSet cycles => decide (cycles < 2 ^ c.idleBits)
  | .lrst => true
  | .protoSel _ => true
  | .protoGet => true
  | .speedGet => true
  | .rstAssert => true
  | .rstDeassert => true
  | .attach => true
  | .jtagWir _ _ => true
  | .jtagRd _ _ _ => true
  | .jtagWr _ _ _ _ => true
  | .reservedE => true
  | .reservedF => true
  | .rdDpidr => true
  | .wrAbort _ => true
  | .rdCtrlstat => true
  | .wrCtrlstat _ => true
  | .rdRdbuff => true
  | .clrOrun => true
  | .clrStkerr => true
  | .swdHdr _ _ _ => true
  | .swdEncWrite _ _ _ _ => true
  | .swdEncRead _ _ => true
  | .swdDecAck _ => true
  | .swdDecRead _ => true
  | .swdDecWrite _ => true
  | .swdEncLineReset => true
  | .swdPar32 _ => true
  | .mkSeq _ _ => true
  | .jtagEncIrLen1 _ => true
  | .jtagEncIrLen2 _ => true
  | .jtagEncIrLen3 _ => true
  | .jtagEncIrLen4 _ => true
  | .jtagEncIrLen5 _ => true
  | .jtagEncIrLen6 _ => true
  | .jtagEncIrLen7 _ => true
  | .jtagEncIrLen8 _ => true
  | .jtagEncIrLen0 _ => true
  | .jtagEncIrLong _ _ => true
  | .jtagEncDr _ _ => true
  | .jtagDecDr _ _ => true
  | .jtagEncIdle _ => true
  | .unpackBits _ _ => true
  | .packBits _ => true

end Sys2Proof
end

