-- ==== Sys2Proof/Machine/Bits.lean ====
section
/-! DEFINITION. Bit vectors in wire order (R5): building them from numbers, reading numbers back, exclusive-or fold,
and the byte packing of R56 and R154. -/

namespace Sys2Proof.Machine

/-- `bits_lsb(x, n)` (R5): bit `i` of the vector is bit `i` of the number, least significant first on the wire. -/
def bitsLsb (x n : Nat) : Bits := (List.range n).map x.testBit

/-- `num_lsb(w)` (R5): the sum of `w[i] * 2^i`. -/
def numLsb : Bits → Nat
  | [] => 0
  | b :: w => b.toNat + 2 * numLsb w

/-- `rep(b, n)` (R5). -/
def rep (b : Bool) (n : Nat) : Bits := List.replicate n b

/-- `xor_fold(w)` (R5): the exclusive or of all bits, 0 for the empty vector. -/
def xorFold : Bits → Bool
  | [] => false
  | b :: w => xor b (xorFold w)

/-- `v[i .. i+n-1]` (R5): `n` bits from index `i`. -/
def slice (v : Bits) (i n : Nat) : Bits := (v.drop i).take n

/-- `unpack_bits(bytes, n)` (R154) without its length check: bit `k` is bit `k mod 8` of byte `k div 8`, so the high
bits of a partial last byte are ignored. -/
def unpackAll (bytes : List Byte) (n : Nat) : Bits :=
  (List.range n).map fun k => (bytes.getD (k / 8) 0#8).getLsbD (k % 8)

/-- `unpack_bits(bytes, n)` (R154); `none` is its `assert`. -/
def unpackBits (bytes : List Byte) (n : Nat) : Option Bits :=
  if bytes.length = ceilDiv8 n then some (unpackAll bytes n) else none

/-- `pack_bits(bits)` (R154): bit `k` goes to bit `k mod 8` of byte `k div 8`; the unused high bits of the last byte
are 0. -/
def packBits (bits : Bits) : List Byte :=
  (List.range (ceilDiv8 bits.length)).map fun j => BitVec.ofNat 8 (numLsb (slice bits (8 * j) 8))

end Sys2Proof.Machine
end

