-- ==== Sys2Proof/Machine/State.lean ====
section
/-! DEFINITION. The state of the block (R20) with everything its observable behaviour consists of (R8): the probe
state, the engine latches, the bit buffers, the configuration, the host's and the environment's inputs, the trace of
transport calls and the response port. All plain data. -/

namespace Sys2Proof.Machine

/-- The Probe State record (R20 to R24), `ps` of the rules. -/
structure ProbeState where
  /-- R21 -/
  selectedProtocol : Protocol
  /-- R22: below 2 ^ `SPEED_BITS` (assumption log 5) -/
  speedKhz : Nat
  /-- R23: below 2 ^ `IDLE_BITS` -/
  jtagIdleCycles : Nat
  /-- R24: `none` is the spec's `NONE`, the invalidated cache -/
  currentIrRegister : Option (BitVec 8)
deriving DecidableEq, Repr

/-- The engine's phases (R26). -/
inductive Phase where
  | idle
  | request
  | awaitAck
  | ok
  | wait
  | fault
  | noAck
  | followUp
  | done
  | error
deriving DecidableEq, Repr

/-- The Transaction latch `eng.txn` (R28). -/
structure Txn where
  port : Port
  /-- below 2 ^ `APIDX_BITS` -/
  apidx : Nat
  dir : Dir
  addr : BitVec 4
  value : Word
deriving DecidableEq, Repr

/-- The three acknowledgement bits, `a0` the first on the wire (R29). -/
structure Ack where
  a0 : Bool
  a1 : Bool
  a2 : Bool
deriving DecidableEq, Repr

/-- The engine latches (R20, R26 to R30), `eng` of the rules. -/
structure Engine where
  phase : Phase
  /-- R27: 0 to `MAX_ATTEMPTS` -/
  attempt : Nat
  txn : Txn
  /-- R28: true while the follow-up read is attempted -/
  followup : Bool
  ack : Ack
  /-- R30 -/
  data : Word
  /-- R30 -/
  par : Bool
deriving DecidableEq, Repr

/-- The bit buffers of one frame (R32): the pair the codec fills (`io` and `dir`, or `tms` and `tdi`) and the buffer
the transport returns, `none` when it has returned none. -/
structure Buffers where
  first : Bits
  second : Bits
  back : Option Bits
deriving DecidableEq, Repr

/-- Empty buffers: the buffers between frames (R32) and after reset (R40). -/
def Buffers.empty : Buffers := ⟨[], [], none⟩

/-- The level of the target's physical reset line (R105). -/
inductive ResetLevel where
  | asserted
  | released
deriving DecidableEq, Repr

/-- A transport call with its arguments (R105): one entry of a trace (R69). -/
inductive Call where
  | swdIo (io dir : Bits)
  | jtagIo (tms tdi : Bits)
  | tpSelect (p : Protocol)
  | tpSetSpeed (khz : Nat)
  | tpReset (level : ResetLevel)
deriving DecidableEq, Repr

/-- What the environment puts into one answer (R105): whether the call fails, and the bits it would sample, first on
the wire first. A call reads of it what its row of R105 has; bits beyond the frame are ignored and bits the list lacks
are free (assumption log 2). -/
structure Answer where
  failed : Bool
  bits : Bits
deriving DecidableEq, Repr

/-- The error kinds of R240: five transport-level, four protocol-level. -/
inductive ErrKind where
  | unsupportedProtocol
  | unsupportedSpeed
  | timeout
  | notImplemented
  | probeSpecific
  | waitResponse
  | faultResponse
  | noAcknowledge
  | incorrectParity
deriving DecidableEq, Repr

/-- The acknowledgement classes (R89). -/
inductive AckClass where
  | ok
  | wait
  | fault
  | noAck
deriving DecidableEq, Repr

/-- The field `stage` of an error report (R190). -/
inductive Stage where
  | main
  | followUp
deriving DecidableEq, Repr

/-- What `info` holds for `DAP.RD` and `DAP.WR` beside the opcode (R100, R190, R258). -/
structure DapInfo where
  port : Port
  apidx : Nat
  addr : BitVec 4
  stage : Stage
deriving DecidableEq, Repr

/-- The value an error records (R258): the `op` of the command, `none` for a codec function called by itself (R150), which
is no command (assumption log 13); and the operands of an engine command. -/
structure Info where
  op : Option (BitVec 4)
  dap : Option DapInfo
deriving DecidableEq, Repr

/-- The result a completed instruction gives: the `value` field of R100 for the commands, and the result of a codec
function (R80) in the type its rule gives it. -/
inductive Value where
  /-- empty -/
  | unit
  /-- 32 bits: `DAP.RD` -/
  | word (v : Word)
  /-- `SPEED.GET`, `SPEED.SET`: `SPEED_BITS` bits -/
  | speed (khz : Nat)
  /-- `JTAG.RD`, `JTAG.WR`, `jtag_dec_dr`, `pack_bits` -/
  | bytes (bs : List Byte)
  /-- `PROTO.GET` -/
  | proto (p : Protocol)
  /-- one bit: `swd_par32` -/
  | bit (b : Bool)
  /-- `swd_hdr`, `unpack_bits` -/
  | bits (bs : Bits)
  /-- `swd_dec_ack` -/
  | ackClass (c : AckClass)
  /-- `swd_dec_read`: the value, the sampled parity bit, whether they agree -/
  | sampledWord (v : Word) (par ok : Bool)
  /-- `swd_dec_write`: the value and the parity bit -/
  | drivenWord (v : Word) (par : Bool)
  /-- an SWD sequence `(io, dir)` -/
  | swdSeq (io dir : Bits)
  /-- a JTAG frame `(tms, tdi)` -/
  | jtagSeq (tms tdi : Bits)
deriving DecidableEq, Repr

/-- The response record (R100), one constructor per outcome of R7 and R240. -/
inductive Response where
  /-- status 0: `Ok(v)` -/
  | ok (v : Value)
  /-- status 1: `Err(kind, info)` -/
  | err (k : ErrKind) (info : Info)
  /-- status 2: `Assert`, the command is refused and nothing has happened (assumption log 1) -/
  | assert
deriving DecidableEq, Repr

/-- How a procedure ends when it does not return (R6). -/
inductive Exit where
  /-- `raise k(info)`; the command fills in `info` -/
  | raise (k : ErrKind)
  /-- a false `assert` -/
  | assert
deriving DecidableEq, Repr

/-- The state of the machine. -/
structure State where
  /-- the parameters of R4, changed by no step (R42) -/
  cfg : Config
  /-- the probe state (R21 to R24) -/
  ps : ProbeState
  /-- the engine latches (R26 to R30) -/
  eng : Engine
  /-- the bit buffers (R32; assumption log 16) -/
  buf : Buffers
  /-- the inputs still to come, next first: what the host presents (R2 agent 1, R81) and the block's reset (R270); the
  model's own field, assumption logs 6 and 10 -/
  host : List Input
  /-- the environment's coming answers, next first (R2 agent 3, U17; the model's own field, assumption log 2) -/
  env : List Answer
  /-- the transport calls made so far, oldest first: the traces of R8 and R69 joined (assumption log 15) -/
  wire : List Call
  /-- the response port: the outcome of the last command, `none` before the first (R81, R100; assumption
  log 19) -/
  resp : Option Response
deriving DecidableEq, Repr

/-- Faults of a step. -/
inductive Fault where
  /-- Raised by `step` alone, when something is presented while `eng.phase` is not `Idle`: the command port does not
  accept it (R81, R273; U18 calls it stuck). No run reaches it (assumption log 7). Safe: the machine stops. -/
  | portClosed
deriving DecidableEq, Repr

/-- Refusals of a step. -/
inductive Refusal where
  /-- Raised by `exec` for an instruction without a meaning; none is left, so no step is refused. Safe. -/
  | notModelled (mnemonic : String)
deriving DecidableEq, Repr

/-- The engine after reset (R40). `txn`, `ack`, `data` and `par` are unspecified there; the zeros are DESIGN CHOICE
(assumption log 4) and no rule reads them before a frame writes them. -/
def Engine.reset : Engine where
  phase := .idle
  attempt := 0
  txn := ⟨.dp, 0, .read, 0#4, 0#32⟩
  followup := false
  ack := ⟨false, false, false⟩
  data := 0#32
  par := false

/-- The probe state after reset (R40). -/
def ProbeState.reset (c : Config) : ProbeState where
  selectedProtocol := c.resetProtocol
  speedKhz := c.resetSpeedKhz
  jtagIdleCycles := 0
  currentIrRegister := none

/-- The machine right after the reset of a block of configuration `c` (R40, R270): no call made, nothing presented,
no outcome given, no answer scripted. -/
def State.resetWith (c : Config) : State where
  cfg := c
  ps := .reset c
  eng := .reset
  buf := .empty
  host := []
  env := []
  wire := []
  resp := none

/-- The machine right after reset, in the default configuration. -/
def State.reset : State := .resetWith .default

end Sys2Proof.Machine
end

