-- ==== Sys2Proof/Machine/Flags.lean ====
section
/-! DEFINITION. The condition flags: the three acknowledgement bits and their class (R29, R89), the parities (R87, R92)
and the derived flag `parity_ok` (R30), the two sticky flags read from CTRL/STAT (R35), and the words built from them. -/

namespace Sys2Proof.Machine

/-- The class of three acknowledgement bits (R89, R124): the tests in the order the source lists them. -/
def Ack.classify (a : Ack) : AckClass :=
  if a.a0 && a.a1 && a.a2 then .noAck
  else if a.a1 then .wait
  else if a.a2 then .fault
  else if a.a0 then .ok
  else .noAck

/-- The header parity (R87): 1 exactly when an odd number of the four bits is 1. -/
def headerParity (apndp rnw a2 a3 : Bool) : Bool := xor apndp (xor rnw (xor a2 a3))

/-- `swd_par32(v)` (R121): the XOR fold of the 32 data bits. -/
def swdPar32 (v : Word) : Bool := xorFold (bitsLsb v.toNat Config.nData)

/-- `parity_ok` (R30): computed from the latches, not stored. -/
def Engine.parityOk (e : Engine) : Bool := swdPar32 e.data == e.par

/-- STICKYORUN of a CTRL/STAT word (R35). -/
def stickyOrun (c : Config) (cs : Word) : Bool := cs.getLsbD c.bitStickyorun

/-- STICKYERR of a CTRL/STAT word (R35). -/
def stickyErr (c : Config) (cs : Word) : Bool := cs.getLsbD c.bitStickyerr

/-- The ABORT word with the flags asked for and all other bits 0 (R34, R103). -/
def abortWord (c : Config) (orun stkerr : Bool) : Word :=
  (if orun then 1#32 <<< c.bitOrunerrclr else 0#32) ||| (if stkerr then 1#32 <<< c.bitStkerrclr else 0#32)

/-- The phase an acknowledgement class leads to (R172). -/
def AckClass.phase : AckClass → Phase
  | .ok => .ok
  | .wait => .wait
  | .fault => .fault
  | .noAck => .noAck

end Sys2Proof.Machine
end

