-- ==== Sys2Proof/Machine/Operands.lean ====
section
/-! DEFINITION. The operand forms: what of a Register Address reaches the wire (R102), the contract checks of the
commands (R85, R250), the instruction-register checks (R221), the configuration's answers to an operand (R210, R212),
and the bit encodings of the one-bit operands (R81). -/

namespace Sys2Proof.Machine

/-- `APnDP` of a port (R102), which is also the port's bit of the command record (R81). -/
def portBit : Port → Bool
  | .dp => false
  | .ap => true

/-- `RnW` of a direction (R102). -/
def dirBit : Dir → Bool
  | .read => true
  | .write => false

/-- The number of a protocol (R21). -/
def protoBit : Protocol → Bool
  | .swd => false
  | .jtag => true

/-- `addr[1:0] == 0` (R57). -/
def offsetAligned (addr : BitVec 4) : Bool := !addr.getLsbD 0 && !addr.getLsbD 1

/-- The contract checks on `irval` and `irlen` (R250 causes (3) and (4)). They stop before the test `irlen > 8`, which
comes after every contract check (R251). -/
def irContract (irval : BitVec 8) (irlen : Nat) : Bool :=
  decide (1 ≤ irlen) && (decide (Config.maxIrLen < irlen) || decide (irval.toNat < 2 ^ irlen))

/-- The contract check on `drbits` (R250 cause (5)), with the bound of R151 where `MAX_DR_BITS` is finite
(DEDUCED, assumption log 9). -/
def drContract (c : Config) (drbits : Nat) : Bool :=
  decide (1 ≤ drbits) && (match c.maxDrBits with
    | none => true
    | some m => decide (drbits ≤ m))

/-- The contract check on `data` (R250 cause (6)). -/
def dataContract (drbits : Nat) (data : List Byte) : Bool := decide (data.length = ceilDiv8 drbits)

/-- `check_ir(v, len)` (R221), in the order of R150. -/
def checkIr (v : BitVec 8) (len : Nat) : Except Exit Unit :=
  if len = 0 then .error .assert
  else if Config.maxIrLen < len then .error (.raise .notImplemented)
  else if v.toNat < 2 ^ len then .ok ()
  else .error .assert

/-- `p` is in `SUPPORTED_PROTOCOLS` (R210). -/
def supports (c : Config) : Protocol → Bool
  | .swd => c.supportsSwd
  | .jtag => c.supportsJtag

/-- The actual speed one rule gives a request. -/
def speedOfRule (r : SpeedRule) (khz : Nat) : Option Nat :=
  match r.taken with
  | .asAsked => some khz
  | .instead k => some k
  | .unsupported => none

/-- The first rule of the table whose range holds the request decides; no rule is `None`. -/
def speedLookup (khz : Nat) : List SpeedRule → Option Nat
  | [] => none
  | r :: rest => if r.lo ≤ khz ∧ khz ≤ r.hi then speedOfRule r khz else speedLookup khz rest

/-- `speed_accept(khz)` (R4, R212). -/
def speedAccept (c : Config) (khz : Nat) : Option Nat := speedLookup khz c.speedRules

/-- The all-zero bytes a `JTAG.RD` shifts in (R219). -/
def zeroBytes (drbits : Nat) : List Byte := List.replicate (ceilDiv8 drbits) 0#8

end Sys2Proof.Machine
end

