-- ==== Sys2Proof/Machine/JtagCodec.lean ====
section
/-! DEFINITION. The JTAG codec functions (41_jtag_codec.md, R150 to R155); `unpack_bits` and `pack_bits` stand in
Bits.lean. Each is pure (R155). `none` is the `assert` of a rule. -/

namespace Sys2Proof.Machine

/-- A JTAG frame: the TMS and the TDI vector (30_encoding.md section 6). -/
structure JSeq where
  tms : Bits
  tdi : Bits
deriving DecidableEq, Repr

/-- The instruction-register frame without its checks (R96). -/
def irFrame (v : BitVec 8) (len : Nat) : JSeq :=
  ⟨[true, true, false, false] ++ rep false (len - 1) ++ [true, true, false],
   [false, false, false, false] ++ bitsLsb v.toNat len ++ [false, false]⟩

/-- `jtag_enc_ir(v, len)` (R150): its checks are those of `check_ir` (R221). -/
def jtagEncIr (v : BitVec 8) (len : Nat) : Except Exit JSeq :=
  match checkIr v len with
  | .error e => .error e
  | .ok _ => .ok (irFrame v len)

/-- The data-register frame for the data bits `d` (R97). -/
def drFrame (d : Bits) : JSeq :=
  ⟨[true, false, false] ++ rep false (d.length - 1) ++ [true, true, false],
   [false, false, false] ++ d ++ [false, false]⟩

/-- `jtag_enc_dr(bytes, n)` (R151). -/
def jtagEncDr (c : Config) (bytes : List Byte) (n : Nat) : Option JSeq :=
  if drContract c n then
    match unpackBits bytes n with
    | none => none
    | some d => some (drFrame d)
  else none

/-- `jtag_dec_dr(tdo, n)` (R152) without its domain check: the bits `tdo[3 .. n+2]`, packed. -/
def capturedBytes (tdo : Bits) (n : Nat) : List Byte := packBits (slice tdo 3 n)

/-- `jtag_dec_dr(tdo, n)` (R152), on its domain `n >= 1`, `len(tdo) = n + 5`. -/
def jtagDecDr (tdo : Bits) (n : Nat) : Option (List Byte) :=
  if 1 ≤ n ∧ tdo.length = n + 5 then some (capturedBytes tdo n) else none

/-- `jtag_enc_idle(c)` (R153). -/
def jtagEncIdle (c : Nat) : Option JSeq :=
  if 1 ≤ c then some ⟨rep false c, rep false c⟩ else none

end Sys2Proof.Machine
end

