-- ==== Sys2Proof/Machine/SwdCodec.lean ====
section
/-! DEFINITION. The SWD codec functions (40_swd_codec.md, R120 to R130). Each is pure (R130). `none` is the `assert`
of a rule: outside its domain a function has no value. The positions depend on the configuration only through
`N_TRN_ACK`; at its default 1 they are the indices of R90, R91, R124, R125 and R126 (DEDUCED, assumption log 18). -/

namespace Sys2Proof.Machine

/-- An SWD sequence: the I/O vector and the direction vector (R93). -/
structure Seq where
  io : Bits
  dir : Bits
deriving DecidableEq, Repr

/-- `mk_seq(io, dir)` (R128). -/
def mkSeq (io dir : Bits) : Option Seq := if io.length = dir.length then some ⟨io, dir⟩ else none

/-- The eight header bits (R86, R102), index 0 first. -/
def headerBits (port : Port) (dir : Dir) (addr : BitVec 4) : Bits :=
  let apndp := portBit port
  let rnw := dirBit dir
  let a2 := addr.getLsbD 2
  let a3 := addr.getLsbD 3
  [true, apndp, rnw, a2, a3, headerParity apndp rnw a2 a3, false, true]

/-- `swd_hdr(port, dir, addr)` (R120). -/
def swdHdr (port : Port) (dir : Dir) (addr : BitVec 4) : Option Bits :=
  if offsetAligned addr then some (headerBits port dir addr) else none

/-- Index of the first acknowledgement bit: 9 by default (R90, R91). -/
def ackAt (c : Config) : Nat := Config.nHdr + c.nTrnAck

/-- Index of the first data bit of a write frame: 14 by default (R90). -/
def writeDataAt (c : Config) : Nat := ackAt c + Config.nAck + Config.nTrnWr

/-- Index of the first data bit of a read frame: 12 by default (R91). -/
def readDataAt (c : Config) : Nat := ackAt c + Config.nAck

/-- Length of a read frame: 46 by default (R91, R99). -/
def readFrameLength (c : Config) : Nat := readDataAt c + Config.nData + 1 + Config.nTrnRd

/-- `swd_enc_write(port, addr, v, n)` (R122, layout R90). -/
def swdEncWrite (c : Config) (port : Port) (addr : BitVec 4) (v : Word) (n : Nat) : Option Seq :=
  if Config.minWriteIdle ≤ n then
    match swdHdr port .write addr with
    | none => none
    | some h =>
      mkSeq
        (h ++ rep false c.nTrnAck ++ rep false Config.nAck ++ rep false Config.nTrnWr ++
          bitsLsb v.toNat Config.nData ++ [swdPar32 v] ++ rep false n)
        (rep true Config.nHdr ++ rep false c.nTrnAck ++ rep false Config.nAck ++ rep false Config.nTrnWr ++
          rep true Config.nData ++ rep true 1 ++ rep true n)
  else none

/-- `swd_enc_read(port, addr)` (R123, layout R91). -/
def swdEncRead (c : Config) (port : Port) (addr : BitVec 4) : Option Seq :=
  match swdHdr port .read addr with
  | none => none
  | some h =>
    mkSeq
      (h ++ rep false c.nTrnAck ++ rep false Config.nAck ++ rep false Config.nData ++ rep false 1 ++
        rep false Config.nTrnRd)
      (rep true Config.nHdr ++
        rep false (c.nTrnAck + Config.nAck + Config.nData + 1 + Config.nTrnRd))

/-- `swd_enc_line_reset()` (R127, layout R94). -/
def swdEncLineReset (c : Config) : Seq :=
  let io := rep true c.nResetHigh ++ bitsLsb c.jtagToSwd.toNat 16 ++ rep true c.nResetPostHigh ++
    rep false c.nResetTail
  ⟨io, rep true io.length⟩

/-- The acknowledgement bits of a sampled frame: `s[9..11]` by default (R124, R171). -/
def sampledAck (c : Config) (s : Bits) : Ack :=
  ⟨s.getD (ackAt c) false, s.getD (ackAt c + 1) false, s.getD (ackAt c + 2) false⟩

/-- The data word of a sampled read frame: `num_lsb(s[12..43])` by default (R125). -/
def sampledData (c : Config) (s : Bits) : Word :=
  BitVec.ofNat 32 (numLsb (slice s (readDataAt c) Config.nData))

/-- The parity bit of a sampled read frame: `s[44]` by default (R125). -/
def sampledPar (c : Config) (s : Bits) : Bool := s.getD (readDataAt c + Config.nData) false

/-- `swd_dec_ack(s)` (R124), on its domain `len(s) >= 12`. -/
def swdDecAck (c : Config) (s : Bits) : Option AckClass :=
  if ackAt c + Config.nAck ≤ s.length then some (sampledAck c s).classify else none

/-- `swd_dec_read(s)` (R125), on its domain `len(s) = 46`: the value, the parity bit, and whether they agree. -/
def swdDecRead (c : Config) (s : Bits) : Option (Word × Bool × Bool) :=
  if s.length = readFrameLength c then
    let v := sampledData c s
    let p := sampledPar c s
    some (v, p, swdPar32 v == p)
  else none

/-- `swd_dec_write(io)` (R126), on its domain `len(io) >= 47`: the data field and the parity bit. -/
def swdDecWrite (c : Config) (io : Bits) : Option (Word × Bool) :=
  if writeDataAt c + Config.nData + 1 ≤ io.length then
    some (BitVec.ofNat 32 (numLsb (slice io (writeDataAt c) Config.nData)),
      io.getD (writeDataAt c + Config.nData) false)
  else none

end Sys2Proof.Machine
end

