-- ==== Sys2Proof/Decode.lean ====
section
/-! DEFINITION. The decoder, total on everything the port can be given, and after it the encoder: command records by R82,
calls by name by R84 and R80; the reading of a bit pattern of spec/opcode_table.json, and of a line of text (R83), with
what is none rejected by name. -/

namespace Sys2Proof

open Sys2Proof.Machine (headerBits swdEncRead swdEncWrite swdEncLineReset drFrame irFrame packBits slice numLsb)

/-! ### Command records (R82) -/

/-- A port bit of a record (R81). -/
def portOfBit (b : BitVec 1) : Port := if b = 0#1 then .dp else .ap

/-- A protocol bit of a record (R81). -/
def protoOfBit (b : BitVec 1) : Protocol := if b = 0#1 then .swd else .jtag

/-- The bits of a field of a record: as many of the low bits as the port has (assumption log 5). -/
def fieldBits (bits n : Nat) : Nat := n % 2 ^ bits

/-- The decoder of command records (R82, R85): `op` selects, each command takes the fields R82 lists for it. Every
record decodes; the opcodes 0xE and 0xF to the reserved instructions. `DAP.RD` and `DAP.WR` take the index `apidx` of
the record for a Debug Port register too, where R41 and R81 give it no meaning: it is carried, reported in an error
(R190) and never sent (DESIGN CHOICE, assumption log 20). -/
def decodeRecord (c : Config) (r : Record) : Instr :=
  match r.op.toNat with
  | 0x0 => .dapRd (portOfBit r.port) (fieldBits c.apidxBits r.apidx) r.addr
  | 0x1 => .dapWr (portOfBit r.port) (fieldBits c.apidxBits r.apidx) r.addr r.value
  | 0x2 => .lrst
  | 0x3 => .protoSel (protoOfBit r.proto)
  | 0x4 => .protoGet
  | 0x5 => .speedSet (fieldBits c.speedBits r.khz)
  | 0x6 => .speedGet
  | 0x7 => .jidleSet (fieldBits c.idleBits r.cycles)
  | 0x8 => .rstAssert
  | 0x9 => .rstDeassert
  | 0xA => .attach
  | 0xB => .jtagWir r.irval r.irlen
  | 0xC => .jtagRd r.irval r.irlen r.drbits
  | 0xD => .jtagWr r.irval r.irlen r.drbits r.data
  | 0xE => .reservedE
  | _ => .reservedF

/-! ### Calls by name (R84, R80) -/

/-- `jtag_enc_ir(v, len)` at the length it is called with (R150). -/
def encIrOf (v : BitVec 8) : Nat → Instr
  | 0 => .jtagEncIrLen0 v
  | 1 => .jtagEncIrLen1 v
  | 2 => .jtagEncIrLen2 v
  | 3 => .jtagEncIrLen3 v
  | 4 => .jtagEncIrLen4 v
  | 5 => .jtagEncIrLen5 v
  | 6 => .jtagEncIrLen6 v
  | 7 => .jtagEncIrLen7 v
  | 8 => .jtagEncIrLen8 v
  | excess + 9 => .jtagEncIrLong v excess

/-- The instruction of a call by name. -/
def decodeNamed : Named → Instr
  | .rdDpidr => .rdDpidr
  | .wrAbort value => .wrAbort value
  | .rdCtrlstat => .rdCtrlstat
  | .wrCtrlstat value => .wrCtrlstat value
  | .rdRdbuff => .rdRdbuff
  | .clrOrun => .clrOrun
  | .clrStkerr => .clrStkerr
  | .swdHdr port dir addr => .swdHdr port dir addr
  | .swdEncWrite port addr value idle => .swdEncWrite port addr value idle
  | .swdEncRead port addr => .swdEncRead port addr
  | .swdDecAck s => .swdDecAck s
  | .swdDecRead s => .swdDecRead s
  | .swdDecWrite io => .swdDecWrite io
  | .swdEncLineReset => .swdEncLineReset
  | .swdPar32 value => .swdPar32 value
  | .mkSeq io dir => .mkSeq io dir
  | .jtagEncIr irval len => encIrOf irval len
  | .jtagEncDr bytes drbits => .jtagEncDr bytes drbits
  | .jtagDecDr tdo drbits => .jtagDecDr tdo drbits
  | .jtagEncIdle cycles => .jtagEncIdle cycles
  | .unpackBits bytes n => .unpackBits bytes n
  | .packBits bits => .packBits bits

/-! ### The decoder -/

/-- The decoder of the block of configuration `c`: what is presented, as an instruction. It is total: the port takes
nothing that is none. -/
def decode (c : Config) : Presented → Instr
  | .record r => decodeRecord c r
  | .named n => decodeNamed n

/-! ### The encoder -/

/-- The bit of a port in a record (R81). -/
def bitOfPort : Port → BitVec 1
  | .dp => 0#1
  | .ap => 1#1

/-- The bit of a protocol in a record (R81). -/
def bitOfProto : Protocol → BitVec 1
  | .swd => 0#1
  | .jtag => 1#1

/-- The encoder: a command as its record (R82), a pseudo-instruction and a codec function as its call by
name. -/
def encode : Instr → Presented
  | .dapRd port apidx addr => .record { op := 0x0#4, port := bitOfPort port, apidx := apidx, addr := addr }
  | .dapWr port apidx addr value =>
      .record { op := 0x1#4, port := bitOfPort port, apidx := apidx, addr := addr, value := value }
  | .lrst => .record { op := 0x2#4 }
  | .protoSel p => .record { op := 0x3#4, proto := bitOfProto p }
  | .protoGet => .record { op := 0x4#4 }
  | .speedSet khz => .record { op := 0x5#4, khz := khz }
  | .speedGet => .record { op := 0x6#4 }
  | .jidleSet cycles => .record { op := 0x7#4, cycles := cycles }
  | .rstAssert => .record { op := 0x8#4 }
  | .rstDeassert => .record { op := 0x9#4 }
  | .attach => .record { op := 0xA#4 }
  | .jtagWir irval irlen => .record { op := 0xB#4, irval := irval, irlen := irlen }
  | .jtagRd irval irlen drbits => .record { op := 0xC#4, irval := irval, irlen := irlen, drbits := drbits }
  | .jtagWr irval irlen drbits data =>
      .record { op := 0xD#4, irval := irval, irlen := irlen, drbits := drbits, data := data }
  | .reservedE => .record { op := 0xE#4 }
  | .reservedF => .record { op := 0xF#4 }
  | .rdDpidr => .named .rdDpidr
  | .wrAbort value => .named (.wrAbort value)
  | .rdCtrlstat => .named .rdCtrlstat
  | .wrCtrlstat value => .named (.wrCtrlstat value)
  | .rdRdbuff => .named .rdRdbuff
  | .clrOrun => .named .clrOrun
  | .clrStkerr => .named .clrStkerr
  | .swdHdr port dir addr => .named (.swdHdr port dir addr)
  | .swdEncWrite port addr value idle => .named (.swdEncWrite port addr value idle)
  | .swdEncRead port addr => .named (.swdEncRead port addr)
  | .swdDecAck s => .named (.swdDecAck s)
  | .swdDecRead s => .named (.swdDecRead s)
  | .swdDecWrite io => .named (.swdDecWrite io)
  | .swdEncLineReset => .named .swdEncLineReset
  | .swdPar32 value => .named (.swdPar32 value)
  | .mkSeq io dir => .named (.mkSeq io dir)
  | .jtagEncIrLen1 irval => .named (.jtagEncIr irval 1)
  | .jtagEncIrLen2 irval => .named (.jtagEncIr irval 2)
  | .jtagEncIrLen3 irval => .named (.jtagEncIr irval 3)
  | .jtagEncIrLen4 irval => .named (.jtagEncIr irval 4)
  | .jtagEncIrLen5 irval => .named (.jtagEncIr irval 5)
  | .jtagEncIrLen6 irval => .named (.jtagEncIr irval 6)
  | .jtagEncIrLen7 irval => .named (.jtagEncIr irval 7)
  | .jtagEncIrLen8 irval => .named (.jtagEncIr irval 8)
  | .jtagEncIrLen0 irval => .named (.jtagEncIr irval 0)
  | .jtagEncIrLong irval excess => .named (.jtagEncIr irval (excess + 9))
  | .jtagEncDr bytes drbits => .named (.jtagEncDr bytes drbits)
  | .jtagDecDr tdo drbits => .named (.jtagDecDr tdo drbits)
  | .jtagEncIdle cycles => .named (.jtagEncIdle cycles)
  | .unpackBits bytes n => .named (.unpackBits bytes n)
  | .packBits bits => .named (.packBits bits)

/-! ### Bit patterns of the opcode table -/

/-- The `n` characters of a pattern in wire order: the table prints the first bit on the wire at the left, and the
number's bit 0 is the last character. -/
def patternBits (n w : Nat) : Bits := (List.range n).map fun i => w.testBit (n - 1 - i)

/-- Port, direction and offset that the fields A, R, c, d of a header pattern name (R86, R102). -/
def headerFields (h : Bits) : Port × Dir × BitVec 4 :=
  (if h.getD 1 false then .ap else .dp, if h.getD 2 false then .read else .write,
   BitVec.ofNat 4 (4 * (h.getD 3 false).toNat + 8 * (h.getD 4 false).toNat))

/-- The pattern is one of the sixteen headers the codec produces (R88, R104). -/
def headerPattern (h : Bits) : Bool :=
  let f := headerFields h
  h == headerBits f.1 f.2.1 f.2.2

/-- A pattern of an SWD header or frame, or of a JTAG data-register frame, that is exactly the frame the codec builds
from the fields it shows, in the default configuration the table shows. -/
def framePattern (n : Nat) (v : Bits) : Option Instr :=
  let f := headerFields (slice v 0 8)
  if n = 8 then
    if headerPattern v then some (.swdHdr f.1 f.2.1 f.2.2) else none
  else if n = 46 then
    if some v = (swdEncRead .default f.1 f.2.2).map (·.io) then some (.swdEncRead f.1 f.2.2) else none
  else if n = 55 then
    let x := BitVec.ofNat 32 (numLsb (slice v 14 32))
    if some v = (swdEncWrite .default f.1 f.2.2 x 8).map (·.io) then some (.swdEncWrite f.1 f.2.2 x 8) else none
  else if n = 74 then
    if v = (swdEncLineReset .default).io then some .swdEncLineReset else none
  else if n = 37 then
    let d := slice v 3 32
    if v = (drFrame d).tdi then some (.jtagEncDr (packBits d) 32) else none
  else if n = 2 then
    if v = [false, false] then some (.jtagEncIdle 2) else none
  else none

/-- A pattern of an instruction-register frame of the length it shows. -/
def irPattern (n : Nat) (v : Bits) : Option Instr :=
  let len := n - 6
  let x := BitVec.ofNat 8 (numLsb (slice v 4 len))
  if 7 ≤ n ∧ n ≤ 14 ∧ v = (irFrame x len).tdi then some (encIrOf x len) else none

/-- A pattern of the rows without a fixed bit, by its length: the sampled vectors of the decoders. -/
def sampledPattern (n : Nat) (v : Bits) : Option Instr :=
  if n = 12 then some (.swdDecAck v)
  else if n = 46 then some (.swdDecRead v)
  else if n = 47 then some (.swdDecWrite v)
  else if n = 37 then some (.jtagDecDr v 32)
  else if n = 32 then some (.swdPar32 (BitVec.ofNat 32 (numLsb v.reverse)))
  else none

/-- The first row of a list that matches: rows with fixed bits come before rows without. -/
def firstRow : List (Nat × (Nat → Bits → Option Instr)) → Nat → Option Instr
  | [], _ => none
  | (n, row) :: rest, w =>
    match (if w < 2 ^ n then row n (patternBits n w) else none) with
    | some i => some i
    | none => firstRow rest w

/-- The rows that a number of bits can be: the row of that length, or, for a whole number of bytes, every row that fills
as many, those of fixed bits first and the shorter first (assumption log 6). -/
def rowsOfLength (nbits : Nat) : List (Nat × (Nat → Bits → Option Instr)) :=
  if nbits = 16 then
    [(9, irPattern), (10, irPattern), (11, irPattern), (12, irPattern), (13, irPattern), (14, irPattern),
     (12, sampledPattern)]
  else if nbits = 40 then [(37, framePattern), (37, sampledPattern)]
  else if nbits = 48 then [(46, framePattern), (46, sampledPattern), (47, sampledPattern)]
  else if nbits = 56 then [(55, framePattern)]
  else if nbits = 80 then [(74, framePattern)]
  else [(nbits, framePattern), (nbits, irPattern), (nbits, sampledPattern)]

/-- The reading of a bit pattern of spec/opcode_table.json as the instruction whose row it matches, in the default
configuration. A pattern of four or of eight bits below 16 is a command record with that `op` and every other field 0
(R81: match and mask apply to `op` alone; assumption log 6). -/
def decodePattern (nbits w : Nat) : Except DecodeError Instr :=
  if (nbits = 4 ∨ nbits = 8) ∧ w < 16 then .ok (decodeRecord .default { op := BitVec.ofNat 4 w })
  else
    match firstRow (rowsOfLength nbits) w with
    | some i => .ok i
    | none => .error .pattern

/-- The instruction read from a bit pattern numbered as spec/opcode_table.json numbers it. -/
def decodeTableWord (nbits w : Nat) : Option Instr :=
  match decodePattern nbits w with
  | .ok i => some i
  | .error _ => none

/-! ### Lines of text (R83) -/

/-- The textual mnemonics of R83 and R84, in lower case. -/
def textMnemonics : List (String × Mnemonic) :=
  [("dap.rd", .dapRd), ("dap.wr", .dapWr), ("lrst", .lrst), ("proto.sel", .protoSel), ("proto.get", .protoGet),
   ("speed.set", .speedSet), ("speed.get", .speedGet), ("jidle.set", .jidleSet), ("rst.assert", .rstAssert),
   ("rst.deassert", .rstDeassert), ("attach", .attach), ("jtag.wir", .jtagWir), ("jtag.rd", .jtagRd),
   ("jtag.wr", .jtagWr), ("rd.dpidr", .rdDpidr), ("wr.abort", .wrAbort), ("rd.ctrlstat", .rdCtrlstat),
   ("wr.ctrlstat", .wrCtrlstat), ("rd.rdbuff", .rdRdbuff), ("clr.orun", .clrOrun), ("clr.stkerr", .clrStkerr)]

/-- The mnemonic a word names. -/
def readMnemonic (word : List Char) : Option Mnemonic :=
  (textMnemonics.find? fun e => e.1.toList == word).map (·.2)

/-- The value of a digit in a base up to 16. -/
def digitValue (base : Nat) (c : Char) : Option Nat :=
  let n := c.toNat
  let v := if 48 ≤ n ∧ n ≤ 57 then n - 48 else if 97 ≤ n ∧ n ≤ 102 then n - 87
    else if 65 ≤ n ∧ n ≤ 70 then n - 55 else base
  if v < base then some v else none

/-- The number that digits name after `acc`. -/
def readDigits (base : Nat) : Nat → List Char → Option Nat
  | acc, [] => some acc
  | acc, c :: cs => (digitValue base c).bind fun v => readDigits base (acc * base + v) cs

/-- A number, decimal or `0x` hexadecimal (R83). -/
def readNumber : List Char → Option Nat
  | [] => none
  | '0' :: 'x' :: c :: cs => readDigits 16 0 (c :: cs)
  | c :: cs => readDigits 10 0 (c :: cs)

/-- The pieces between the separators `sep`. -/
def splitAtChar (sep : Char) : List Char → List (List Char)
  | [] => [[]]
  | c :: cs =>
    match splitAtChar sep cs with
    | [] => [[c]]
    | w :: ws => if c = sep then [] :: w :: ws else (c :: w) :: ws

/-- Without the spaces at both ends. -/
def trimSpaces (cs : List Char) : List Char :=
  ((cs.dropWhile (· == ' ')).reverse.dropWhile (· == ' ')).reverse

/-- The characters before a closing bracket that ends the list. -/
def beforeBracket : List Char → Option (List Char)
  | [] => none
  | [']'] => some []
  | c :: cs => (beforeBracket cs).map (c :: ·)

/-- Two-digit hexadecimal bytes, first byte first (R83). -/
def readBytes : List (List Char) → Option (List Byte)
  | [] => some []
  | [] :: ws => readBytes ws
  | [a, b] :: ws => (readDigits 16 0 [a, b]).bind fun v => (readBytes ws).map (BitVec.ofNat 8 v :: ·)
  | _ :: _ => none

/-- One operand (R83): a number, a port, a protocol, a bracketed list of bytes. -/
def readOperand : List Char → Option Operand
  | ['d', 'p'] => some .dp
  | ['s', 'w', 'd'] => some (.proto .swd)
  | ['j', 't', 'a', 'g'] => some (.proto .jtag)
  | 'a' :: 'p' :: '[' :: cs => (beforeBracket cs).bind fun d => (readNumber d).map .ap
  | '[' :: cs => (beforeBracket cs).bind fun d => (readBytes (splitAtChar ' ' d)).map .bytes
  | cs => (readNumber cs).map .num

/-- Operands in order. -/
def readOperands : List (List Char) → Option (List Operand)
  | [] => some []
  | w :: ws => (readOperand (trimSpaces w)).bind fun o => (readOperands ws).map (o :: ·)

/-- A line of text (R83): the comment from `;` on is left out, the mnemonic is the first word, operands are separated
by commas. -/
def readLine (text : List Char) : Option Line :=
  let cs := trimSpaces (text.takeWhile (· != ';'))
  let word := cs.takeWhile (· != ' ')
  let rest := trimSpaces (cs.dropWhile (· != ' '))
  (readMnemonic word).bind fun m =>
    (if rest.isEmpty then some [] else readOperands (splitAtChar ',' rest)).map fun ops => ⟨m, ops⟩

/-- A number that fits `w` bits. -/
def fit (w n : Nat) : Option (BitVec w) := if n < 2 ^ w then some (BitVec.ofNat w n) else none

/-- A number that fits a field of `bits` bits. -/
def fitNat (bits n : Nat) : Option Nat := if n < 2 ^ bits then some n else none

/-- A port operand: `dp`, which carries the index 0 (assumption log 20), or `ap[<index>]` with an index of `APIDX_BITS`
bits (R83). -/
def portOperand (c : Config) : Operand → Option (Port × Nat)
  | .dp => some (.dp, 0)
  | .ap i => (fitNat c.apidxBits i).map fun x => (.ap, x)
  | _ => none

/-- The instruction of a line: the forms of R83 and the pseudo-instructions of R84. `none` where the operands are not
those of the mnemonic. -/
def lineInstr (c : Config) (m : Mnemonic) (ops : List Operand) : Option Instr :=
  match m with
  | .dapRd => match ops with
    | [p, .num a] => (portOperand c p).bind fun q => (fit 4 a).map fun x => .dapRd q.1 q.2 x
    | _ => none
  | .dapWr => match ops with
    | [p, .num a, .num v] =>
      (portOperand c p).bind fun q => (fit 4 a).bind fun x => (fit 32 v).map fun y => .dapWr q.1 q.2 x y
    | _ => none
  | .lrst => match ops with
    | [] => some .lrst
    | _ => none
  | .protoSel => match ops with
    | [.proto p] => some (.protoSel p)
    | _ => none
  | .protoGet => match ops with
    | [] => some .protoGet
    | _ => none
  | .speedSet => match ops with
    | [.num k] => (fitNat c.speedBits k).map .speedSet
    | _ => none
  | .speedGet => match ops with
    | [] => some .speedGet
    | _ => none
  | .jidleSet => match ops with
    | [.num n] => (fitNat c.idleBits n).map .jidleSet
    | _ => none
  | .rstAssert => match ops with
    | [] => some .rstAssert
    | _ => none
  | .rstDeassert => match ops with
    | [] => some .rstDeassert
    | _ => none
  | .attach => match ops with
    | [] => some .attach
    | _ => none
  | .jtagWir => match ops with
    | [.num v, .num l] => (fit 8 v).map fun x => .jtagWir x l
    | _ => none
  | .jtagRd => match ops with
    | [.num v, .num l, .num n] => (fit 8 v).map fun x => .jtagRd x l n
    | _ => none
  | .jtagWr => match ops with
    | [.num v, .num l, .num n, .bytes bs] => (fit 8 v).map fun x => .jtagWr x l n bs
    | _ => none
  | .rdDpidr => match ops with
    | [] => some .rdDpidr
    | _ => none
  | .wrAbort => match ops with
    | [.num v] => (fit 32 v).map .wrAbort
    | _ => none
  | .rdCtrlstat => match ops with
    | [] => some .rdCtrlstat
    | _ => none
  | .wrCtrlstat => match ops with
    | [.num v] => (fit 32 v).map .wrCtrlstat
    | _ => none
  | .rdRdbuff => match ops with
    | [] => some .rdRdbuff
    | _ => none
  | .clrOrun => match ops with
    | [] => some .clrOrun
    | _ => none
  | .clrStkerr => match ops with
    | [] => some .clrStkerr
    | _ => none

/-- The reader of lines, rejecting by name. -/
def decodeLine (c : Config) (l : Line) : Except DecodeError Instr :=
  match lineInstr c l.mnemonic l.operands with
  | some i => .ok i
  | none => .error (.operands l.mnemonic)

/-- The instruction a line of text names (R83, R84); a text that is no line is rejected by name. A text is put to the
block as the `encode` of its instruction. -/
def assemble (c : Config) (text : List Char) : Except DecodeError Instr :=
  match readLine text with
  | some l => decodeLine c l
  | none => .error .text

end Sys2Proof
end

