-- ==== Sys2Proof/Machine/Ops.lean ====
section
/-! DEFINITION. The named operations over the state: the command port, the transport calls (R105), the registers of
the probe state and the engine, the block's reset (R270), and how a command ends: giving its outcome, raising an error
(R253), refusing (R250) and returning to `Idle` (R254). -/

namespace Sys2Proof.Machine

/-! ### The command port -/

/-- The next input, which is then no more to come (R81, R270). -/
def State.accept (s : State) : Option (Input × State) :=
  match s.host with
  | [] => none
  | p :: rest => some (p, { s with host := rest })

/-- The host presents `p` next. -/
def State.present (s : State) (p : Presented) : State := { s with host := .port p :: s.host }

/-! ### The environment -/

/-- The environment's answer to the next call: the next of the script, or free values where it has run out. -/
def State.answer (s : State) : Answer :=
  match s.env with
  | [] => ⟨Config.freeFailed s.wire.length, []⟩
  | a :: _ => a

/-- The vector of `n` bits that the `k`-th call samples (R105): `none` is `Failed`. The transport returns exactly as
many bits as it was given (R99); a bit the answer does not list is a free value. -/
def Answer.sample (a : Answer) (k n : Nat) : Option Bits :=
  if a.failed then none else some ((List.range n).map fun i => a.bits.getD i (Config.freeBit k i))

/-- A call has been made and answered: the trace has it (R69) and the answer is used up. -/
def State.called (s : State) (c : Call) : State := { s with env := s.env.tail, wire := s.wire ++ [c] }

/-- The buffers hold nothing between frames (R32). -/
def State.release (s : State) : State := { s with buf := .empty }

/-- The call `swd_io(io, dir)` (R105): the buffers hold the pair and the vector returned. -/
def State.swdIo (s : State) (q : Seq) : State :=
  { s.called (.swdIo q.io q.dir) with
    buf := ⟨q.io, q.dir, s.answer.sample s.wire.length q.io.length⟩ }

/-- The call `jtag_io(tms, tdi)` (R105). -/
def State.jtagIo (s : State) (q : JSeq) : State :=
  { s.called (.jtagIo q.tms q.tdi) with
    buf := ⟨q.tms, q.tdi, s.answer.sample s.wire.length q.tms.length⟩ }

/-- The answer of `tp_set_speed(k)` (R105). -/
inductive SpeedAnswer where
  | actual (khz : Nat)
  | unsupported
  | failed
deriving DecidableEq, Repr

/-- `tp_set_speed(k)` answers `Failed` when the environment chooses so, else as `speed_accept(k)` says (R105). -/
def State.speedAnswer (s : State) (k : Nat) : SpeedAnswer :=
  if s.answer.failed then .failed
  else match speedAccept s.cfg k with
    | some k2 => .actual k2
    | none => .unsupported

/-! ### The registers -/

/-- `ps.selected_protocol <- p` (R21). -/
def State.setProtocol (s : State) (p : Protocol) : State := { s with ps := { s.ps with selectedProtocol := p } }

/-- `ps.speed_khz <- k` (R22). -/
def State.setSpeed (s : State) (k : Nat) : State := { s with ps := { s.ps with speedKhz := k } }

/-- `ps.jtag_idle_cycles <- n` (R23). -/
def State.setIdleCycles (s : State) (n : Nat) : State := { s with ps := { s.ps with jtagIdleCycles := n } }

/-- `ps.current_ir_register <- r` (R24). -/
def State.setIr (s : State) (r : Option (BitVec 8)) : State := { s with ps := { s.ps with currentIrRegister := r } }

/-- `eng.phase <- p` (R26). -/
def State.setPhase (s : State) (p : Phase) : State := { s with eng := { s.eng with phase := p } }

/-- `eng.attempt <- n` (R27). -/
def State.setAttempt (s : State) (n : Nat) : State := { s with eng := { s.eng with attempt := n } }

/-- Loading the Transaction latches at the start of an engine operation and of its follow-up (R28, R173): the attempt
count starts again at 0 with them (R27, R176). -/
def State.loadTxn (s : State) (t : Txn) (followup : Bool) : State :=
  { s with eng := { s.eng with txn := t, followup := followup, attempt := 0 } }

/-- Latching a sampled frame (R171): the acknowledgement bits of every frame, data and parity of a read frame. -/
def State.latch (s : State) (dir : Dir) (smp : Bits) : State :=
  match dir with
  | .write => { s with eng := { s.eng with ack := sampledAck s.cfg smp } }
  | .read =>
    { s with
      eng := { s.eng with
        ack := sampledAck s.cfg smp
        data := sampledData s.cfg smp
        par := sampledPar s.cfg smp } }

/-! ### The outcome of a command -/

/-- Giving an outcome on the response port (R81, R100). -/
def State.respond (s : State) (r : Response) : State := { s with resp := some r }

/-- The refusal of a command outside the contract: outcome `Assert`, nothing else happens (R250). -/
def State.assertOut (s : State) : State := s.respond .assert

/-- Raising an error (R253): the outcome `Err(kind, info)`; nothing already done is undone, nothing is saved, control
goes nowhere. There is no return from it: the next command is taken as any other (R254). -/
def State.raise (s : State) (k : ErrKind) (info : Info) : State := s.respond (.err k info)

/-- The end of a command: the outcome that its procedure came to. -/
def State.conclude (s : State) (info : Info) : Except Exit Value → State
  | .ok v => s.respond (.ok v)
  | .error (.raise k) => s.raise k info
  | .error .assert => s.assertOut

/-- The end of an engine command: back to `Idle` with the attempt count 0, whatever the outcome (R31, R253, R257). -/
def State.toIdle (s : State) : State := (s.setPhase .idle).setAttempt 0

/-- The outcome of a codec function called by itself: its value, or `Assert` outside its domain (R130; assumption
log 13). -/
def State.giveValue (s : State) : Option Value → State
  | some v => s.respond (.ok v)
  | none => s.assertOut

/-! ### Reset of the block -/

/-- The reset of the block (R270, R271): every register at its value of R40, no transport call made. It is an input of
the block and no command raises it; what host and environment still have to say and the trace stay as they are. -/
def State.blockReset (s : State) : State :=
  { s with ps := .reset s.cfg, eng := .reset, buf := .empty, resp := none }

end Sys2Proof.Machine
end

