-- ==== Sys2Proof/Machine/Codec.lean ====
section
/-! DEFINITION. The meanings of the codec functions as instructions (R80 (b)): the function of its rule applied to its
operands, the result given on the response port, and nothing else of the state read or written (R130, R155). Outside
its domain a function has no value and the outcome is `Assert` (R130). -/

namespace Sys2Proof.Machine

/-- `swd_hdr(port, dir, addr)` (R120). -/
def execSwdHdr (port : Port) (dir : Dir) (addr : BitVec 4) (s : State) : Host.Outcome State Fault Refusal :=
  .next (s.giveValue ((swdHdr port dir addr).map Value.bits))

/-- An SWD sequence as a result. -/
def Seq.value (q : Seq) : Value := .swdSeq q.io q.dir

/-- A JTAG frame as a result. -/
def JSeq.value (q : JSeq) : Value := .jtagSeq q.tms q.tdi

/-- `swd_enc_write(port, addr, v, n)` (R122). -/
def execSwdEncWrite (port : Port) (addr : BitVec 4) (value : Word) (idle : Nat) (s : State) :
    Host.Outcome State Fault Refusal :=
  .next (s.giveValue ((swdEncWrite s.cfg port addr value idle).map Seq.value))

/-- `swd_enc_read(port, addr)` (R123). -/
def execSwdEncRead (port : Port) (addr : BitVec 4) (s : State) : Host.Outcome State Fault Refusal :=
  .next (s.giveValue ((swdEncRead s.cfg port addr).map Seq.value))

/-- `swd_dec_ack(s)` (R124). -/
def execSwdDecAck (v : Bits) (s : State) : Host.Outcome State Fault Refusal :=
  .next (s.giveValue ((swdDecAck s.cfg v).map Value.ackClass))

/-- `swd_dec_read(s)` (R125). -/
def execSwdDecRead (v : Bits) (s : State) : Host.Outcome State Fault Refusal :=
  .next (s.giveValue ((swdDecRead s.cfg v).map fun r => Value.sampledWord r.1 r.2.1 r.2.2))

/-- `swd_dec_write(io)` (R126). -/
def execSwdDecWrite (io : Bits) (s : State) : Host.Outcome State Fault Refusal :=
  .next (s.giveValue ((swdDecWrite s.cfg io).map fun r => Value.drivenWord r.1 r.2))

/-- `swd_enc_line_reset()` (R127). -/
def execSwdEncLineReset (s : State) : Host.Outcome State Fault Refusal :=
  .next (s.giveValue (some (swdEncLineReset s.cfg).value))

/-- `swd_par32(v)` (R121). -/
def execSwdPar32 (value : Word) (s : State) : Host.Outcome State Fault Refusal :=
  .next (s.giveValue (some (.bit (swdPar32 value))))

/-- `mk_seq(io, dir)` (R128). -/
def execMkSeq (io dir : Bits) (s : State) : Host.Outcome State Fault Refusal :=
  .next (s.giveValue ((mkSeq io dir).map Seq.value))

/-- The result of `jtag_enc_ir(v, len)` (R150), or how it ends: `Assert`, or `NotImplemented` for a length above 8. -/
def encIrValue (v : BitVec 8) (len : Nat) : Except Exit Value :=
  match jtagEncIr v len with
  | .ok q => .ok q.value
  | .error e => .error e

/-- The `info` of an error of a codec function: there is no command whose `op` it could name (R258, assumption log 13). -/
def codecInfo : Info := ⟨none, none⟩

/-- `jtag_enc_ir(v, len)` called by itself (R150). -/
def giveEncIr (v : BitVec 8) (len : Nat) (s : State) : State := s.conclude codecInfo (encIrValue v len)

/-- `jtag_enc_ir(v, 1)` (R150). -/
def execJtagEncIrLen1 (irval : BitVec 8) (s : State) : Host.Outcome State Fault Refusal := .next (giveEncIr irval 1 s)

/-- `jtag_enc_ir(v, 2)` (R150). -/
def execJtagEncIrLen2 (irval : BitVec 8) (s : State) : Host.Outcome State Fault Refusal := .next (giveEncIr irval 2 s)

/-- `jtag_enc_ir(v, 3)` (R150). -/
def execJtagEncIrLen3 (irval : BitVec 8) (s : State) : Host.Outcome State Fault Refusal := .next (giveEncIr irval 3 s)

/-- `jtag_enc_ir(v, 4)` (R150). -/
def execJtagEncIrLen4 (irval : BitVec 8) (s : State) : Host.Outcome State Fault Refusal := .next (giveEncIr irval 4 s)

/-- `jtag_enc_ir(v, 5)` (R150). -/
def execJtagEncIrLen5 (irval : BitVec 8) (s : State) : Host.Outcome State Fault Refusal := .next (giveEncIr irval 5 s)

/-- `jtag_enc_ir(v, 6)` (R150). -/
def execJtagEncIrLen6 (irval : BitVec 8) (s : State) : Host.Outcome State Fault Refusal := .next (giveEncIr irval 6 s)

/-- `jtag_enc_ir(v, 7)` (R150). -/
def execJtagEncIrLen7 (irval : BitVec 8) (s : State) : Host.Outcome State Fault Refusal := .next (giveEncIr irval 7 s)

/-- `jtag_enc_ir(v, 8)` (R150). -/
def execJtagEncIrLen8 (irval : BitVec 8) (s : State) : Host.Outcome State Fault Refusal := .next (giveEncIr irval 8 s)

/-- `jtag_enc_ir(v, 0)` (R150): outcome `Assert`. -/
def execJtagEncIrLen0 (irval : BitVec 8) (s : State) : Host.Outcome State Fault Refusal := .next (giveEncIr irval 0 s)

/-- `jtag_enc_ir(v, 9 + excess)` (R150): outcome `Err(NotImplemented)`. -/
def execJtagEncIrLong (irval : BitVec 8) (excess : Nat) (s : State) : Host.Outcome State Fault Refusal :=
  .next (giveEncIr irval (excess + 9) s)

/-- `jtag_enc_dr(bytes, n)` (R151). -/
def execJtagEncDr (bytes : List Byte) (drbits : Nat) (s : State) : Host.Outcome State Fault Refusal :=
  .next (s.giveValue ((jtagEncDr s.cfg bytes drbits).map JSeq.value))

/-- `jtag_dec_dr(tdo, n)` (R152). -/
def execJtagDecDr (tdo : Bits) (drbits : Nat) (s : State) : Host.Outcome State Fault Refusal :=
  .next (s.giveValue ((jtagDecDr tdo drbits).map Value.bytes))

/-- `jtag_enc_idle(c)` (R153). -/
def execJtagEncIdle (cycles : Nat) (s : State) : Host.Outcome State Fault Refusal :=
  .next (s.giveValue ((jtagEncIdle cycles).map JSeq.value))

/-- `unpack_bits(bytes, n)` (R154). -/
def execUnpackBits (bytes : List Byte) (n : Nat) (s : State) : Host.Outcome State Fault Refusal :=
  .next (s.giveValue ((unpackBits bytes n).map Value.bits))

/-- `pack_bits(bits)` (R154). -/
def execPackBits (bits : Bits) (s : State) : Host.Outcome State Fault Refusal :=
  .next (s.giveValue (some (.bytes (packBits bits))))

end Sys2Proof.Machine
end

