-- ==== Sys2Proof/Machine/Engine.lean ====
section
/-! DEFINITION. The DAP transaction engine (42_dap_engine.md): one frame (R171), the recovery actions (R177 to R180),
the attempt loop (R173), and `dap_access` over them. Every procedure gives its result together with the state it
leaves, whether it returns or raises (R253: an error rolls nothing back). -/

namespace Sys2Proof.Machine

/-- The frame of a request (R171): every write frame carries `ENGINE_WRITE_IDLE` idle cycles (R185). -/
def requestFrame (c : Config) (port : Port) (dir : Dir) (addr : BitVec 4) (v : Word) : Option Seq :=
  match dir with
  | .write => swdEncWrite c port addr v c.engineWriteIdle
  | .read => swdEncRead c port addr

/-- The second half of R171: what the transport returned is classified and latched, and the buffers are released. -/
def State.receive (s : State) (dir : Dir) : Except Exit AckClass × State :=
  match s.buf.back with
  | none => (.error (.raise .probeSpecific), s.release)
  | some smp => (.ok (sampledAck s.cfg smp).classify, (s.latch dir smp).release)

/-- `swd_frame(port, dir, addr, v)` (R171): one frame and its decode, no retry. The value and `parity_ok` of a read
frame are read from the latches `eng.data` and `eng.par` (R30). -/
def swdFrame (port : Port) (dir : Dir) (addr : BitVec 4) (v : Word) (s : State) : Except Exit AckClass × State :=
  match requestFrame s.cfg port dir addr v with
  | none => (.error .assert, s)
  | some q => (s.swdIo q).receive dir

/-- `line_reset()` (R171, R127): the sampled vector is discarded. -/
def lineReset (s : State) : Except Exit Unit × State :=
  let s1 := s.swdIo (swdEncLineReset s.cfg)
  match s1.buf.back with
  | none => (.error (.raise .probeSpecific), s1.release)
  | some _ => (.ok (), s1.release)

/-- The ABORT write of a recovery (R178, R179): one frame whose class is ignored (R180). -/
def abortWrite (w : Word) (s : State) : Except Exit Unit × State :=
  match swdFrame .dp .write s.cfg.addrAbort w s with
  | (.error e, s1) => (.error e, s1)
  | (.ok _, s1) => (.ok (), s1)

/-- `recover_noack()` (R177). -/
def recoverNoAck (s : State) : Except Exit Unit × State := lineReset s

/-- `recover_wait()` (R178). -/
def recoverWait (s : State) : Except Exit Unit × State := abortWrite (abortWord s.cfg true false) s

/-- `recover_fault()` (R179). -/
def recoverFault (s : State) : Except Exit Unit × State :=
  match swdFrame .dp .read s.cfg.addrCtrlstat 0#32 s with
  | (.error e, s1) => (.error e, s1)
  | (.ok c, s1) =>
    if c ≠ .ok then (.error (.raise .faultResponse), s1)
    else if s1.eng.parityOk = false then (.error (.raise .incorrectParity), s1)
    else
      let orun := stickyOrun s1.cfg s1.eng.data
      let serr := stickyErr s1.cfg s1.eng.data
      if orun = false ∧ serr = false then (.error (.raise .faultResponse), s1)
      else abortWrite (abortWord s1.cfg orun serr) s1

/-- The recovery action of a class (R172). Class `Ok` has none. -/
def recover (c : AckClass) (s : State) : Except Exit Unit × State :=
  match c with
  | .ok => (.ok (), s)
  | .wait => recoverWait s
  | .fault => recoverFault s
  | .noAck => recoverNoAck s

/-- The attempt just made is the last one (R173). -/
def State.isLastAttempt (s : State) : Bool := s.eng.attempt == Config.maxAttempts

/-- The recovery after a failed attempt, performed after the last one only when `RECOVER_ON_LAST_ATTEMPT` (R181). -/
def recoverIfAllowed (c : AckClass) (s : State) : Except Exit Unit × State :=
  if s.isLastAttempt = false ∨ s.cfg.recoverOnLastAttempt = true then recover c s else (.ok (), s)

/-- Phase `Request` (R172): the attempt is counted, the frame of `eng.txn` is built and handed to the transport. -/
def sendRequest (s : State) : Option State :=
  let s0 := (s.setPhase .request).setAttempt (s.eng.attempt + 1)
  match requestFrame s0.cfg s0.eng.txn.port s0.eng.txn.dir s0.eng.txn.addr s0.eng.txn.value with
  | none => none
  | some q => some ((s0.swdIo q).setPhase .awaitAck)

/-- Phase `AwaitAck` (R172): the class becomes the phase. -/
def takeAck (s : State) : Except Exit AckClass × State :=
  match s.receive s.eng.txn.dir with
  | (.error e, s1) => (.error e, s1)
  | (.ok c, s1) => (.ok c, s1.setPhase c.phase)

/-- One attempt: the request frame for `eng.txn` and its acknowledgement class. -/
def attemptFrame (s : State) : Except Exit AckClass × State :=
  match sendRequest s with
  | none => (.error .assert, s)
  | some s1 => takeAck s1

/-- The attempt loop of R173 with `n` attempts left, up to an acknowledgement of class `Ok`. -/
def attempts : Nat → State → Except Exit Unit × State
  | 0, s => (.error (.raise .timeout), s)
  | n + 1, s =>
    match attemptFrame s with
    | (.error e, s1) => (.error e, s1)
    | (.ok .ok, s1) => (.ok (), s1)
    | (.ok c, s1) =>
      match recoverIfAllowed c s1 with
      | (.error e, s2) => (.error e, s2)
      | (.ok _, s2) => if s1.isLastAttempt then (.error (.raise .timeout), s2) else attempts n s2

/-- Class `Ok` of a Debug Port read (R175): the value is `eng.data` when its parity is right. -/
def checkedData (s : State) : Except Exit Word × State :=
  if s.eng.parityOk then (.ok s.eng.data, s) else (.error (.raise .incorrectParity), s)

/-- The Transaction of the follow-up read (R176); the index it keeps is DESIGN CHOICE (assumption log 16). -/
def followUpTxn (c : Config) (t : Txn) : Txn := ⟨.dp, t.apidx, .read, c.addrRdbuff, 0#32⟩

/-- The follow-up of an acknowledged Access Port read (R176): a full Debug Port read of RDBUFF with attempts of its
own. -/
def followUpRead (s : State) : Except Exit Word × State :=
  match attempts Config.maxAttempts ((s.setPhase .followUp).loadTxn (followUpTxn s.cfg s.eng.txn) true) with
  | (.error e, s2) => (.error e, s2)
  | (.ok _, s2) => checkedData s2

/-- What class `Ok` leads to (R174, R175, R176). -/
def afterOk (s : State) : Except Exit Word × State :=
  match s.eng.txn.dir with
  | .write => (.ok 0#32, s)
  | .read =>
    match s.eng.txn.port with
    | .dp => checkedData s
    | .ap => followUpRead s

/-- The phase an operation ends in (R172). -/
def endPhase (r : Except Exit Word × State) : Except Exit Word × State :=
  match r with
  | (.ok v, s) => (.ok v, s.setPhase .done)
  | (.error e, s) => (.error e, s.setPhase .error)

/-- `dap_access(port, dir, addr, v)` (R173). The result of a write is 0 and is not used. -/
def dapAccess (t : Txn) (s : State) : Except Exit Word × State :=
  match attempts Config.maxAttempts (s.loadTxn t false) with
  | (.error e, s1) => endPhase (.error e, s1)
  | (.ok _, s1) => endPhase (afterOk s1)

end Sys2Proof.Machine
end

