-- ==== Sys2Proof/Machine/Dap.lean ====
section
/-! DEFINITION. The meanings of the two engine commands `DAP.RD` (R183) and `DAP.WR` (R184) and of the seven
pseudo-instructions (R84), each one of these commands with fixed operands (offsets of the configuration: DEDUCED,
assumption log 14). -/

namespace Sys2Proof.Machine

/-- The stage an engine error reports (R190). -/
def stageOf (followup : Bool) : Stage := if followup then .followUp else .main

/-- The `info` of an error of an engine command (R190, R258): the operands of the host's command. -/
def dapInfo (op : BitVec 4) (port : Port) (apidx : Nat) (addr : BitVec 4) (stage : Stage) : Info :=
  ⟨some op, some ⟨port, apidx, addr, stage⟩⟩

/-- An engine command once its result is known: the outcome, then `Idle` (R172, R253). -/
def endEngine (op : BitVec 4) (t : Txn) (r : Except Exit Value) (s : State) : State :=
  (s.conclude (dapInfo op t.port t.apidx t.addr (stageOf s.eng.followup)) r).toIdle

/-- The result of `DAP.RD` from that of `dap_access` (R183). -/
def readValue : Except Exit Word → Except Exit Value
  | .ok v => .ok (.word v)
  | .error e => .error e

/-- The result of `DAP.WR` from that of `dap_access` (R184). -/
def writeValue : Except Exit Word → Except Exit Value
  | .ok _ => .ok .unit
  | .error e => .error e

/-- `DAP.RD` (R183): the contract, the protocol gate (R189, R223; its error is of stage `Main`, DEDUCED, assumption
log 12), the engine. -/
def dapRead (port : Port) (apidx : Nat) (addr : BitVec 4) (s : State) : State :=
  if offsetAligned addr = false then s.assertOut
  else if s.ps.selectedProtocol ≠ .swd then s.raise .unsupportedProtocol (dapInfo 0x0#4 port apidx addr .main)
  else
    let t : Txn := ⟨port, apidx, .read, addr, 0#32⟩
    let r := dapAccess t s
    endEngine 0x0#4 t (readValue r.1) r.2

/-- `DAP.WR` (R184). -/
def dapWrite (port : Port) (apidx : Nat) (addr : BitVec 4) (value : Word) (s : State) : State :=
  if offsetAligned addr = false then s.assertOut
  else if s.ps.selectedProtocol ≠ .swd then s.raise .unsupportedProtocol (dapInfo 0x1#4 port apidx addr .main)
  else
    let t : Txn := ⟨port, apidx, .write, addr, value⟩
    let r := dapAccess t s
    endEngine 0x1#4 t (writeValue r.1) r.2

/-- `DAP.RD port, apidx, addr` (R183). -/
def execDapRd (port : Port) (apidx : Nat) (addr : BitVec 4) (s : State) : Host.Outcome State Fault Refusal :=
  .next (dapRead port apidx addr s)

/-- `DAP.WR port, apidx, addr, value` (R184). -/
def execDapWr (port : Port) (apidx : Nat) (addr : BitVec 4) (value : Word) (s : State) :
    Host.Outcome State Fault Refusal :=
  .next (dapWrite port apidx addr value s)

/-- `rd.dpidr` is `dap.rd dp, 0x0` (R84). -/
def execRdDpidr (s : State) : Host.Outcome State Fault Refusal := .next (dapRead .dp 0 s.cfg.addrDpidr s)

/-- `wr.abort v` is `dap.wr dp, 0x0, v` (R84). -/
def execWrAbort (value : Word) (s : State) : Host.Outcome State Fault Refusal :=
  .next (dapWrite .dp 0 s.cfg.addrAbort value s)

/-- `rd.ctrlstat` is `dap.rd dp, 0x4` (R84). -/
def execRdCtrlstat (s : State) : Host.Outcome State Fault Refusal := .next (dapRead .dp 0 s.cfg.addrCtrlstat s)

/-- `wr.ctrlstat v` is `dap.wr dp, 0x4, v` (R84). -/
def execWrCtrlstat (value : Word) (s : State) : Host.Outcome State Fault Refusal :=
  .next (dapWrite .dp 0 s.cfg.addrCtrlstat value s)

/-- `rd.rdbuff` is `dap.rd dp, 0xC` (R84): an ordinary Debug Port read with no follow-up (R183). -/
def execRdRdbuff (s : State) : Host.Outcome State Fault Refusal := .next (dapRead .dp 0 s.cfg.addrRdbuff s)

/-- `clr.orun` is `dap.wr dp, 0x0, 0x00000010` (R84). -/
def execClrOrun (s : State) : Host.Outcome State Fault Refusal :=
  .next (dapWrite .dp 0 s.cfg.addrAbort 0x00000010#32 s)

/-- `clr.stkerr` is `dap.wr dp, 0x0, 0x00000004` (R84). -/
def execClrStkerr (s : State) : Host.Outcome State Fault Refusal :=
  .next (dapWrite .dp 0 s.cfg.addrAbort 0x00000004#32 s)

end Sys2Proof.Machine
end

