-- ==== Sys2Proof/Machine/Probe.lean ====
section
/-! DEFINITION. The meanings of the probe-state commands (43_probe_state.md sections 2 and 3): protocol, speed, idle
cycles, the physical reset line, protocol initialisation and the line reset on request; and of the two reserved
opcodes (R85). -/

namespace Sys2Proof.Machine

/-- The `info` of an error of a command that is not an engine command: its `op` (R258). -/
def opInfo (op : BitVec 4) : Info := ⟨some op, none⟩

/-- A transport call that answers `Done` or `Failed` (R105): a failure ends the command with `ProbeSpecific` (R245),
`Done` with what the command does then. -/
def callThen (op : BitVec 4) (c : Call) (s : State) (onDone : State → State) : State :=
  if s.answer.failed then (s.called c).raise .probeSpecific (opInfo op)
  else (onDone (s.called c)).respond (.ok .unit)

/-- `PROTO.SEL proto` (R210). -/
def execProtoSel (proto : Protocol) (s : State) : Host.Outcome State Fault Refusal :=
  .next (
    if supports s.cfg proto = false then s.raise .unsupportedProtocol (opInfo 0x3#4)
    else callThen 0x3#4 (.tpSelect proto) (s.setIr none) (fun s1 => s1.setProtocol proto))

/-- `PROTO.GET` (R211). -/
def execProtoGet (s : State) : Host.Outcome State Fault Refusal :=
  .next (s.respond (.ok (.proto s.ps.selectedProtocol)))

/-- `SPEED.SET khz` (R212). -/
def execSpeedSet (khz : Nat) (s : State) : Host.Outcome State Fault Refusal :=
  let s1 := s.called (.tpSetSpeed khz)
  .next (
    match s.speedAnswer khz with
    | .unsupported => s1.raise .unsupportedSpeed (opInfo 0x5#4)
    | .failed => s1.raise .probeSpecific (opInfo 0x5#4)
    | .actual k2 => (s1.setSpeed k2).respond (.ok (.speed k2)))

/-- `SPEED.GET` (R213). -/
def execSpeedGet (s : State) : Host.Outcome State Fault Refusal := .next (s.respond (.ok (.speed s.ps.speedKhz)))

/-- `JIDLE.SET cycles` (R214). -/
def execJidleSet (cycles : Nat) (s : State) : Host.Outcome State Fault Refusal :=
  .next ((s.setIdleCycles cycles).respond (.ok .unit))

/-- `RST.ASSERT` (R215). -/
def execRstAssert (s : State) : Host.Outcome State Fault Refusal :=
  .next (callThen 0x8#4 (.tpReset .asserted) (s.setIr none) id)

/-- `RST.DEASSERT` (R216). -/
def execRstDeassert (s : State) : Host.Outcome State Fault Refusal :=
  .next (callThen 0x9#4 (.tpReset .released) (s.setIr none) id)

/-- The result of a command that returns nothing. -/
def unitValue : Except Exit Unit → Except Exit Value
  | .ok _ => .ok .unit
  | .error e => .error e

/-- `ATTACH` (R217): in `Swd` the line reset, in `Jtag` nothing is sent. -/
def execAttach (s : State) : Host.Outcome State Fault Refusal :=
  let s1 := s.setIr none
  .next (
    match s1.ps.selectedProtocol with
    | .swd =>
      let r := lineReset s1
      r.2.conclude (opInfo 0xA#4) (unitValue r.1)
    | .jtag => s1.respond (.ok .unit))

/-- `LRST` (R225). -/
def execLrst (s : State) : Host.Outcome State Fault Refusal :=
  .next (
    if s.ps.selectedProtocol ≠ .swd then s.raise .unsupportedProtocol (opInfo 0x2#4)
    else
      let r := lineReset s
      r.2.conclude (opInfo 0x2#4) (unitValue r.1))

/-- The reserved opcode 0xE (R85, R250 cause (1)). -/
def execReservedE (s : State) : Host.Outcome State Fault Refusal := .next s.assertOut

/-- The reserved opcode 0xF (R85, R250 cause (1)). -/
def execReservedF (s : State) : Host.Outcome State Fault Refusal := .next s.assertOut

end Sys2Proof.Machine
end

