-- ==== Sys2Proof/Machine/Jtag.lean ====
section
/-! DEFINITION. The JTAG register commands (43_probe_state.md section 4) over the shared procedures `write_ir`,
`ensure_ir` (R221), `jtag_idle` (R222) and `shift_dr` (R226). -/

namespace Sys2Proof.Machine

/-- `jtag_io` and the release of its buffers (R105, R32): the vector sampled, or `none` for `Failed`. -/
def jtagShift (q : JSeq) (s : State) : Option Bits × State := ((s.jtagIo q).buf.back, (s.jtagIo q).release)

/-- `jtag_idle()` (R222): no frame when the count is 0. -/
def jtagIdle (s : State) : Except Exit Unit × State :=
  match jtagEncIdle s.ps.jtagIdleCycles with
  | none => (.ok (), s)
  | some q =>
    match jtagShift q s with
    | (none, s1) => (.error (.raise .probeSpecific), s1.setIr none)
    | (some _, s1) => (.ok (), s1)

/-- `write_ir(v, len)` (R221): the cache is `NONE` from the start of the write until it is complete. -/
def writeIr (v : BitVec 8) (len : Nat) (s : State) : Except Exit Unit × State :=
  match jtagEncIr v len with
  | .error e => (.error e, s)
  | .ok q =>
    match jtagShift q (s.setIr none) with
    | (none, s1) => (.error (.raise .probeSpecific), s1)
    | (some _, s1) =>
      match jtagIdle s1 with
      | (.error e, s2) => (.error e, s2)
      | (.ok _, s2) => (.ok (), s2.setIr (some v))

/-- `ensure_ir(v, len)` (R221): a write is skipped when the cache holds `v`, whatever `len` is (R276). -/
def ensureIr (v : BitVec 8) (len : Nat) (s : State) : Except Exit Unit × State :=
  if s.ps.currentIrRegister = some v then (.ok (), s) else writeIr v len s

/-- `shift_dr(bytes, n)` (R226). -/
def shiftDr (bytes : List Byte) (n : Nat) (s : State) : Except Exit (List Byte) × State :=
  match jtagEncDr s.cfg bytes n with
  | none => (.error .assert, s)
  | some q =>
    match jtagShift q s with
    | (none, s1) => (.error (.raise .probeSpecific), s1.setIr none)
    | (some tdo, s1) =>
      match jtagIdle s1 with
      | (.error e, s2) => (.error e, s2)
      | (.ok _, s2) => (.ok (capturedBytes tdo n), s2)

/-- The execution part of `JTAG.RD` and `JTAG.WR` (R219, R220): `ensure_ir`, then `shift_dr`. -/
def jtagAccess (v : BitVec 8) (len : Nat) (bytes : List Byte) (n : Nat) (s : State) :
    Except Exit (List Byte) × State :=
  match ensureIr v len s with
  | (.error e, s1) => (.error e, s1)
  | (.ok _, s1) => shiftDr bytes n s1

/-- The result of a command that returns bytes. -/
def bytesValue : Except Exit (List Byte) → Except Exit Value
  | .ok bs => .ok (.bytes bs)
  | .error e => .error e

/-- The checks of a JTAG command in the order of R251: the contract, then `irlen > 8`, then the protocol gate (DEDUCED,
assumption log 11); then what it executes. -/
def jtagChecked (op : BitVec 4) (contract : Bool) (irlen : Nat) (s : State) (run : State → State) : State :=
  if contract = false then s.assertOut
  else if Config.maxIrLen < irlen then s.raise .notImplemented (opInfo op)
  else if s.ps.selectedProtocol ≠ .jtag then s.raise .unsupportedProtocol (opInfo op)
  else run s

/-- `JTAG.WIR irval, irlen` (R218): the cache is not consulted. -/
def execJtagWir (irval : BitVec 8) (irlen : Nat) (s : State) : Host.Outcome State Fault Refusal :=
  .next (jtagChecked 0xB#4 (irContract irval irlen) irlen s fun s =>
    let r := writeIr irval irlen s
    r.2.conclude (opInfo 0xB#4) (unitValue r.1))

/-- `JTAG.RD irval, irlen, drbits` (R219): zeros are shifted in. -/
def execJtagRd (irval : BitVec 8) (irlen drbits : Nat) (s : State) : Host.Outcome State Fault Refusal :=
  .next (jtagChecked 0xC#4 (irContract irval irlen && drContract s.cfg drbits) irlen s fun s =>
    let r := jtagAccess irval irlen (zeroBytes drbits) drbits s
    r.2.conclude (opInfo 0xC#4) (bytesValue r.1))

/-- `JTAG.WR irval, irlen, drbits, data` (R220). -/
def execJtagWr (irval : BitVec 8) (irlen drbits : Nat) (data : List Byte) (s : State) :
    Host.Outcome State Fault Refusal :=
  .next (jtagChecked 0xD#4 (irContract irval irlen && drContract s.cfg drbits && dataContract drbits data) irlen s
    fun s =>
      let r := jtagAccess irval irlen data drbits s
      r.2.conclude (opInfo 0xD#4) (bytesValue r.1))

end Sys2Proof.Machine
end

