-- ==== Sys2Proof/Machine/Dispatch.lean ====
section
/-! DEFINITION. exec: one arm per instruction, each one call of its meaning. -/

namespace Sys2Proof.Machine

def exec (i : Instr) (s : State) : Host.Outcome State Fault Refusal :=
  match i with
  -- commands
  | .dapRd port apidx addr => Sys2Proof.Machine.execDapRd port apidx addr s
  | .dapWr port apidx addr value => Sys2Proof.Machine.execDapWr port apidx addr value s
  | .lrst => Sys2Proof.Machine.execLrst s
  | .protoSel proto => Sys2Proof.Machine.execProtoSel proto s
  | .protoGet => Sys2Proof.Machine.execProtoGet s
  | .speedSet khz => Sys2Proof.Machine.execSpeedSet khz s
  | .speedGet => Sys2Proof.Machine.execSpeedGet s
  | .jidleSet cycles => Sys2Proof.Machine.execJidleSet cycles s
  | .rstAssert => Sys2Proof.Machine.execRstAssert s
  | .rstDeassert => Sys2Proof.Machine.execRstDeassert s
  | .attach => Sys2Proof.Machine.execAttach s
  | .jtagWir irval irlen => Sys2Proof.Machine.execJtagWir irval irlen s
  | .jtagRd irval irlen drbits => Sys2Proof.Machine.execJtagRd irval irlen drbits s
  | .jtagWr irval irlen drbits data => Sys2Proof.Machine.execJtagWr irval irlen drbits data s
  | .reservedE => Sys2Proof.Machine.execReservedE s
  | .reservedF => Sys2Proof.Machine.execReservedF s
  -- pseudo-instructions
  | .rdDpidr => Sys2Proof.Machine.execRdDpidr s
  | .wrAbort value => Sys2Proof.Machine.execWrAbort value s
  | .rdCtrlstat => Sys2Proof.Machine.execRdCtrlstat s
  | .wrCtrlstat value => Sys2Proof.Machine.execWrCtrlstat value s
  | .rdRdbuff => Sys2Proof.Machine.execRdRdbuff s
  | .clrOrun => Sys2Proof.Machine.execClrOrun s
  | .clrStkerr => Sys2Proof.Machine.execClrStkerr s
  -- SWD codec functions
  | .swdHdr port dir addr => Sys2Proof.Machine.execSwdHdr port dir addr s
  | .swdEncWrite port addr value idle => Sys2Proof.Machine.execSwdEncWrite port addr value idle s
  | .swdEncRead port addr => Sys2Proof.Machine.execSwdEncRead port addr s
  | .swdDecAck v => Sys2Proof.Machine.execSwdDecAck v s
  | .swdDecRead v => Sys2Proof.Machine.execSwdDecRead v s
  | .swdDecWrite io => Sys2Proof.Machine.execSwdDecWrite io s
  | .swdEncLineReset => Sys2Proof.Machine.execSwdEncLineReset s
  | .swdPar32 value => Sys2Proof.Machine.execSwdPar32 value s
  | .mkSeq io dir => Sys2Proof.Machine.execMkSeq io dir s
  -- JTAG codec functions
  | .jtagEncIrLen1 irval => Sys2Proof.Machine.execJtagEncIrLen1 irval s
  | .jtagEncIrLen2 irval => Sys2Proof.Machine.execJtagEncIrLen2 irval s
  | .jtagEncIrLen3 irval => Sys2Proof.Machine.execJtagEncIrLen3 irval s
  | .jtagEncIrLen4 irval => Sys2Proof.Machine.execJtagEncIrLen4 irval s
  | .jtagEncIrLen5 irval => Sys2Proof.Machine.execJtagEncIrLen5 irval s
  | .jtagEncIrLen6 irval => Sys2Proof.Machine.execJtagEncIrLen6 irval s
  | .jtagEncIrLen7 irval => Sys2Proof.Machine.execJtagEncIrLen7 irval s
  | .jtagEncIrLen8 irval => Sys2Proof.Machine.execJtagEncIrLen8 irval s
  | .jtagEncIrLen0 irval => Sys2Proof.Machine.execJtagEncIrLen0 irval s
  | .jtagEncIrLong irval excess => Sys2Proof.Machine.execJtagEncIrLong irval excess s
  | .jtagEncDr bytes drbits => Sys2Proof.Machine.execJtagEncDr bytes drbits s
  | .jtagDecDr tdo drbits => Sys2Proof.Machine.execJtagDecDr tdo drbits s
  | .jtagEncIdle cycles => Sys2Proof.Machine.execJtagEncIdle cycles s
  | .unpackBits bytes n => Sys2Proof.Machine.execUnpackBits bytes n s
  | .packBits bits => Sys2Proof.Machine.execPackBits bits s

end Sys2Proof.Machine
end

