-- ==== Sys2Proof/Machine/Step.lean ====
section
/-! DEFINITION. One step: the command port accepts what the host presents next, and the block runs it to its outcome
(R8: one command is one atomic step; assumption log 17). -/

namespace Sys2Proof.Machine

/-- One step (R8, R81, R273). While no input comes the block waits and the step changes nothing; the reset of the block
is taken whatever the phase (R270); the command port is open only in `Idle`. -/
def step (s : State) : Host.Outcome State Fault Refusal :=
  match s.accept with
  | none => .next s
  | some (.reset, s1) => .next s1.blockReset
  | some (.port p, s1) => if s1.eng.phase = .idle then exec (decode s1.cfg p) s1 else .fault .portClosed

/-- `s` with the instruction of a bit pattern of the opcode table presented next on an open port, so that the next step
runs it. The port takes no bit patterns: one that matches no row stands for nothing the host could present, and nothing
is (assumption log 6). -/
def State.withFetchWord (s : State) (nbits w : Nat) : State :=
  match decodeTableWord nbits w with
  | some i => (s.setPhase .idle).present (encode i)
  | none => s

end Sys2Proof.Machine
end

