-- ==== Sys2Proof/Machine/Phases.lean ====
section
/-! DEFINITION. The engine as the state machine of R172, one row of its table per step: the same operations as
Engine.lean, sequenced by `eng.phase` alone (R26: "the only thing that decides which action comes next"). The meanings
of `DAP.RD` and `DAP.WR` use the loop of R173; that the two agree is a statement (assumption log 17). -/

namespace Sys2Proof.Machine

/-- One transition of R172: on to another phase, or to the end of the operation with its result. -/
inductive PhaseStep where
  | go (s : State)
  | stop (r : Except Exit Word) (s : State)
deriving Repr

/-- The end of an operation by way of `Done` or `Error` (R172). -/
def PhaseStep.finish (r : Except Exit Word × State) : PhaseStep := .stop (endPhase r).1 (endPhase r).2

/-- The rows of `Wait`, `Fault` and `NoAck` (R172): recovery where allowed, then another request or `Timeout`. -/
def failedClassStep (c : AckClass) (s : State) : PhaseStep :=
  match recoverIfAllowed c s with
  | (.error e, s1) => .finish (.error e, s1)
  | (.ok _, s1) => if s.isLastAttempt then .finish (.error (.raise .timeout), s1) else .go (s1.setPhase .request)

/-- The rows of `Ok` (R172). -/
def okStep (s : State) : PhaseStep :=
  match s.eng.txn.dir with
  | .write => .finish (.ok 0#32, s)
  | .read =>
    match s.eng.txn.port with
    | .dp => .finish (checkedData s)
    | .ap => .go (s.setPhase .followUp)

/-- One row of the table of R172. `Idle`, `Done` and `Error` are no phases of a running operation: nothing moves. -/
def phaseStep (s : State) : PhaseStep :=
  match s.eng.phase with
  | .request =>
    match sendRequest s with
    | none => .finish (.error .assert, s)
    | some s1 => .go s1
  | .awaitAck =>
    match takeAck s with
    | (.error e, s1) => .finish (.error e, s1)
    | (.ok _, s1) => .go s1
  | .ok => okStep s
  | .wait => failedClassStep .wait s
  | .fault => failedClassStep .fault s
  | .noAck => failedClassStep .noAck s
  | .followUp => .go ((s.loadTxn (followUpTxn s.cfg s.eng.txn) true).setPhase .request)
  | .idle => .go s
  | .done => .go s
  | .error => .go s

/-- At most `n` transitions; `none` when the operation has not ended by then. -/
def runPhases : Nat → State → Option (Except Exit Word × State)
  | 0, _ => none
  | n + 1, s =>
    match phaseStep s with
    | .stop r s1 => some (r, s1)
    | .go s1 => runPhases n s1

/-- The row of `Idle` (R172): a command has been accepted and its checks have passed. -/
def startPhases (t : Txn) (s : State) : State := (s.loadTxn t false).setPhase .request

end Sys2Proof.Machine
end

