-- ==== Sys2Proof/Machine/Responses.lean ====
section
/-! DEFINITION. The numbers of the response record (R100, R101, R240) and the opcode an error names (R258). -/

namespace Sys2Proof.Machine

/-- The code `err` of a kind (R101, R259): a protocol-level kind appears as `ProbeSpecific`. -/
def ErrKind.code : ErrKind → BitVec 3
  | .unsupportedProtocol => 1#3
  | .unsupportedSpeed => 2#3
  | .timeout => 3#3
  | .notImplemented => 4#3
  | .probeSpecific => 5#3
  | .waitResponse => 5#3
  | .faultResponse => 5#3
  | .noAcknowledge => 5#3
  | .incorrectParity => 5#3

/-- The code `sub` of a kind (R101). -/
def ErrKind.sub : ErrKind → BitVec 3
  | .unsupportedProtocol => 0#3
  | .unsupportedSpeed => 0#3
  | .timeout => 0#3
  | .notImplemented => 0#3
  | .probeSpecific => 0#3
  | .waitResponse => 1#3
  | .faultResponse => 2#3
  | .noAcknowledge => 3#3
  | .incorrectParity => 4#3

/-- The field `status` of a response (R100). -/
def Response.status : Response → BitVec 2
  | .ok _ => 0#2
  | .err _ _ => 1#2
  | .assert => 2#2

/-- The field `err` of a response, meaningful when the status is `Err` (R100). -/
def Response.errCode : Response → Option (BitVec 3)
  | .ok _ => none
  | .err k _ => some k.code
  | .assert => none

/-- The field `sub` of a response, meaningful when the status is `Err` (R100). -/
def Response.subCode : Response → Option (BitVec 3)
  | .ok _ => none
  | .err k _ => some k.sub
  | .assert => none

end Sys2Proof.Machine

namespace Sys2Proof

/-- The `op` of a command (R82); of a pseudo-instruction, that of the command it abbreviates (R84); a codec function
has none. -/
def Instr.opcode : Instr → Option (BitVec 4)
  | .dapRd _ _ _ => some 0x0#4
  | .dapWr _ _ _ _ => some 0x1#4
  | .lrst => some 0x2#4
  | .protoSel _ => some 0x3#4
  | .protoGet => some 0x4#4
  | .speedSet _ => some 0x5#4
  | .speedGet => some 0x6#4
  | .jidleSet _ => some 0x7#4
  | .rstAssert => some 0x8#4
  | .rstDeassert => some 0x9#4
  | .attach => some 0xA#4
  | .jtagWir _ _ => some 0xB#4
  | .jtagRd _ _ _ => some 0xC#4
  | .jtagWr _ _ _ _ => some 0xD#4
  | .reservedE => some 0xE#4
  | .reservedF => some 0xF#4
  | .rdDpidr => some 0x0#4
  | .wrAbort _ => some 0x1#4
  | .rdCtrlstat => some 0x0#4
  | .wrCtrlstat _ => some 0x1#4
  | .rdRdbuff => some 0x0#4
  | .clrOrun => some 0x1#4
  | .clrStkerr => some 0x1#4
  | .swdHdr _ _ _ => none
  | .swdEncWrite _ _ _ _ => none
  | .swdEncRead _ _ => none
  | .swdDecAck _ => none
  | .swdDecRead _ => none
  | .swdDecWrite _ => none
  | .swdEncLineReset => none
  | .swdPar32 _ => none
  | .mkSeq _ _ => none
  | .jtagEncIrLen1 _ => none
  | .jtagEncIrLen2 _ => none
  | .jtagEncIrLen3 _ => none
  | .jtagEncIrLen4 _ => none
  | .jtagEncIrLen5 _ => none
  | .jtagEncIrLen6 _ => none
  | .jtagEncIrLen7 _ => none
  | .jtagEncIrLen8 _ => none
  | .jtagEncIrLen0 _ => none
  | .jtagEncIrLong _ _ => none
  | .jtagEncDr _ _ => none
  | .jtagDecDr _ _ => none
  | .jtagEncIdle _ => none
  | .unpackBits _ _ => none
  | .packBits _ => none

/-- The command a pseudo-instruction abbreviates (R84), with the register offsets of the configuration; every other
instruction is itself. -/
def Instr.expand (c : Config) : Instr → Instr
  | .rdDpidr => .dapRd .dp 0 c.addrDpidr
  | .wrAbort v => .dapWr .dp 0 c.addrAbort v
  | .rdCtrlstat => .dapRd .dp 0 c.addrCtrlstat
  | .wrCtrlstat v => .dapWr .dp 0 c.addrCtrlstat v
  | .rdRdbuff => .dapRd .dp 0 c.addrRdbuff
  | .clrOrun => .dapWr .dp 0 c.addrAbort 0x00000010#32
  | .clrStkerr => .dapWr .dp 0 c.addrAbort 0x00000004#32
  | i => i

/-- The Register Address an engine command or its abbreviation is about (R41), with the index it carries. -/
def Instr.dapTarget (c : Config) (i : Instr) : Option (Port × Nat × BitVec 4) :=
  match i.expand c with
  | .dapRd p x a => some (p, x, a)
  | .dapWr p x a _ => some (p, x, a)
  | _ => none

/-- The Transaction an engine command performs (R41, R183, R184). -/
def Instr.txn? (c : Config) (i : Instr) : Option Machine.Txn :=
  match i.expand c with
  | .dapRd p x a => some ⟨p, x, .read, a, 0#32⟩
  | .dapWr p x a v => some ⟨p, x, .write, a, v⟩
  | _ => none

end Sys2Proof
end

