-- ==== Sys2Proof/Safety.lean ====
section
/-! DEFINITION. What claims are stated in: the invariant of a state between commands, the transport calls a block may
make, the table of phase transitions, the table of error kinds, answers of the environment by what they say, and the
target's TAP as far as the JTAG frames rely on it. -/

namespace Sys2Proof.Machine

/-! ### Legal calls and the invariant -/

/-- A transport call the block may make (R104, R105, R128): an SWD sequence is the line reset or the frame of a read
or write request with the engine's idle count, a JTAG frame is an instruction-register, data-register or idle frame, a
protocol selected is a supported one. -/
def Call.Legal (c : Config) : Call → Prop
  | .swdIo io dir =>
      (⟨io, dir⟩ : Seq) = swdEncLineReset c ∨
      ∃ port d addr v, requestFrame c port d addr v = some ⟨io, dir⟩
  | .jtagIo tms tdi =>
      (∃ v len, jtagEncIr v len = .ok ⟨tms, tdi⟩) ∨
      (∃ bytes n, jtagEncDr c bytes n = some ⟨tms, tdi⟩) ∨
      (∃ n, jtagEncIdle n = some ⟨tms, tdi⟩)
  | .tpSelect p => supports c p = true
  | .tpSetSpeed _ => True
  | .tpReset _ => True

/-- A call of a recovery action (R177 to R179): the line reset, the CTRL/STAT read, the ABORT write with one of the
words of R103. -/
def RecoveryCall (c : Config) (k : Call) : Prop :=
  k = .swdIo (swdEncLineReset c).io (swdEncLineReset c).dir ∨
  (∃ q, requestFrame c .dp .read c.addrCtrlstat 0#32 = some q ∧ k = .swdIo q.io q.dir) ∨
  ∃ orun serr q, (orun = true ∨ serr = true) ∧
    requestFrame c .dp .write c.addrAbort (abortWord c orun serr) = some q ∧ k = .swdIo q.io q.dir

/-- A call of the attempt loop for the Transaction `t` (R173): its request or a recovery. -/
def AttemptCall (c : Config) (t : Txn) (k : Call) : Prop :=
  (∃ q, requestFrame c t.port t.dir t.addr t.value = some q ∧ k = .swdIo q.io q.dir) ∨ RecoveryCall c k

/-- A call of an engine operation for `t` (R170, R176): one of its attempt loop or, for an Access Port read, of that of
its follow-up. -/
def EngineCall (c : Config) (t : Txn) (k : Call) : Prop :=
  AttemptCall c t k ∨ t.dir = .read ∧ t.port = .ap ∧ AttemptCall c (followUpTxn c t) k

/-- The two vectors of a frame have one length (R93, R105). -/
def Call.sameLength : Call → Bool
  | .swdIo io dir => io.length == dir.length
  | .jtagIo tms tdi => tms.length == tdi.length
  | .tpSelect _ => true
  | .tpSetSpeed _ => true
  | .tpReset _ => true

/-- What holds of a state between commands. -/
structure State.Inv (s : State) : Prop where
  /-- the parameters meet the constraints of R4 -/
  config : s.cfg.wf = true
  /-- R31: no command is running -/
  idle : s.eng.phase = .idle
  /-- R253, R257: the count is 0 between commands -/
  attempt : s.eng.attempt = 0
  /-- R32: the buffers hold nothing between frames -/
  buffers : s.buf = .empty
  /-- R224: `ps.selected_protocol = Swd` implies `ps.current_ir_register = NONE` -/
  cache : s.ps.selectedProtocol = .swd → s.ps.currentIrRegister = none
  /-- R22: the speed fits `SPEED_BITS` -/
  speed : s.ps.speedKhz < 2 ^ s.cfg.speedBits
  /-- R23: the idle count fits `IDLE_BITS` -/
  idleCycles : s.ps.jtagIdleCycles < 2 ^ s.cfg.idleBits
  /-- R28: the latched index fits `APIDX_BITS` -/
  index : s.eng.txn.apidx < 2 ^ s.cfg.apidxBits
  /-- every call made so far is one the block may make -/
  calls : ∀ c ∈ s.wire, c.Legal s.cfg

/-! ### The table of R172 -/

/-- The transitions of R172, with the rows that stay in a phase for a recovery frame, and the rows from the failed
classes to `Error`. -/
def phaseEdge : Phase → Phase → Bool
  | .idle, .request => true
  | .request, .awaitAck => true
  | .awaitAck, .error => true
  | .awaitAck, .ok => true
  | .awaitAck, .wait => true
  | .awaitAck, .fault => true
  | .awaitAck, .noAck => true
  | .ok, .done => true
  | .ok, .error => true
  | .ok, .followUp => true
  | .followUp, .request => true
  | .wait, .wait => true
  | .wait, .request => true
  | .wait, .error => true
  | .fault, .fault => true
  | .fault, .request => true
  | .fault, .error => true
  | .noAck, .noAck => true
  | .noAck, .request => true
  | .noAck, .error => true
  | .done, .idle => true
  | .error, .idle => true
  | _, _ => false

/-- The state one transition leads to. -/
def PhaseStep.state : PhaseStep → State
  | .go s => s
  | .stop _ s => s

/-- A phase of a running operation (R172). -/
def Phase.running : Phase → Bool
  | .request => true
  | .awaitAck => true
  | .ok => true
  | .wait => true
  | .fault => true
  | .noAck => true
  | .followUp => true
  | .idle => false
  | .done => false
  | .error => false

/-! ### The table of R240 -/

/-- `jtag_enc_ir` at a length above `MAX_IR_LEN`. -/
def isLongEncIr : Instr → Bool
  | .jtagEncIrLong _ _ => true
  | _ => false

/-- The opcodes of the commands that raise each kind, as the table of R240 has them. -/
def raisedByOpcode (op : BitVec 4) : ErrKind → Bool
  | .unsupportedProtocol => op.toNat ∈ [0x0, 0x1, 0x2, 0x3, 0xB, 0xC, 0xD]
  | .unsupportedSpeed => op.toNat ∈ [0x5]
  | .timeout => op.toNat ∈ [0x0, 0x1]
  | .notImplemented => op.toNat ∈ [0xB, 0xC, 0xD]
  | .probeSpecific => op.toNat ∈ [0x0, 0x1, 0x2, 0x3, 0x5, 0x8, 0x9, 0xA, 0xB, 0xC, 0xD]
  | .waitResponse => false
  | .faultResponse => op.toNat ∈ [0x0, 0x1]
  | .noAcknowledge => false
  | .incorrectParity => op.toNat ∈ [0x0, 0x1]

/-- What may raise a kind: a command by the table of R240 (a pseudo-instruction as the command it abbreviates), and
`jtag_enc_ir` called by itself at a length above 8, `NotImplemented` (R150); no other codec function raises anything. -/
def mayRaise (i : Instr) (k : ErrKind) : Bool :=
  match i.opcode with
  | none => isLongEncIr i && decide (k = .notImplemented)
  | some op => raisedByOpcode op k

/-! ### Answers -/

/-- An answer to a request frame that does not fail and whose acknowledgement bits are of class `k` (R89). -/
abbrev Answer.Gives (c : Config) (a : Answer) (k : AckClass) : Prop :=
  a.failed = false ∧ readFrameLength c ≤ a.bits.length ∧ (sampledAck c a.bits).classify = k

/-- An answer of class `Ok` to a read frame that carries the word `v` and the parity bit `p` (R91, R125). -/
abbrev Answer.GivesWord (c : Config) (a : Answer) (v : Word) (p : Bool) : Prop :=
  a.Gives c .ok ∧ sampledData c a.bits = v ∧ sampledPar c a.bits = p

/-- A call, made with the vectors of an SWD sequence. -/
def Seq.call (q : Seq) : Call := .swdIo q.io q.dir

/-- A call, made with the vectors of a JTAG frame. -/
def JSeq.call (q : JSeq) : Call := .jtagIo q.tms q.tdi

/-- An answer to the CTRL/STAT read of a recovery with which the recovery ends in the error `kind` (R179, R180): not
acknowledged `Ok`; or of wrong parity; or with neither sticky flag set. -/
def Answer.Unrecoverable (c : Config) (cs : Answer) (kind : ErrKind) : Prop :=
  (∃ k, k ≠ .ok ∧ cs.Gives c k) ∧ kind = .faultResponse ∨
  (∃ w p, cs.GivesWord c w p ∧ swdPar32 w ≠ p) ∧ kind = .incorrectParity ∨
  (∃ w, cs.GivesWord c w (swdPar32 w) ∧ stickyOrun c w = false ∧ stickyErr c w = false) ∧ kind = .faultResponse

/-- The number of bits a call samples: as many as its frame has (R99, R105). -/
def Call.width : Call → Nat
  | .swdIo io _ => io.length
  | .jtagIo tms _ => tms.length
  | .tpSelect _ => 0
  | .tpSetSpeed _ => 0
  | .tpReset _ => 0

/-- The answer says everything a call reads of it (R105): that the call fails, or every bit it samples. Nothing of it is
a free value (assumption log 2). -/
def Answer.IsWhole (a : Answer) (k : Call) : Prop := a.failed = true ∨ k.width ≤ a.bits.length

/-- A script that lists a whole answer to each of `calls`, in order. -/
def Scripted (script : List Answer) (calls : List Call) : Prop :=
  calls.length ≤ script.length ∧
    ∀ (j : Nat) (a : Answer) (k : Call), script[j]? = some a → calls[j]? = some k → a.IsWhole k

/-- An attempt of the engine that fails and whose recovery succeeds, by the answers it gets: to its request, to the
CTRL/STAT read in class `Fault`, to the last frame of the recovery (R177, R178, R179). -/
inductive Attempt where
  | wait (request abort : Answer)
  | noAck (request lineReset : Answer)
  | fault (request ctrlstat abort : Answer)
deriving DecidableEq, Repr

/-- The answers of an attempt in order. -/
def Attempt.answers : Attempt → List Answer
  | .wait a b => [a, b]
  | .noAck a b => [a, b]
  | .fault a cs b => [a, cs, b]

/-- The answers are those of the attempt's class and let its recovery succeed. -/
def Attempt.Valid (c : Config) : Attempt → Prop
  | .wait a b => a.Gives c .wait ∧ b.failed = false
  | .noAck a b => a.Gives c .noAck ∧ b.failed = false
  | .fault a cs b =>
      a.Gives c .fault ∧ cs.GivesWord c (sampledData c cs.bits) (swdPar32 (sampledData c cs.bits)) ∧
      (stickyOrun c (sampledData c cs.bits) = true ∨ stickyErr c (sampledData c cs.bits) = true) ∧ b.failed = false

/-- The frames of an attempt whose request is `q`, as the rules give them, and the ABORT word of each recovery. -/
def Attempt.frames (c : Config) (q : Seq) : Attempt → List (Option Seq)
  | .wait _ _ => [some q, requestFrame c .dp .write c.addrAbort (abortWord c true false)]
  | .noAck _ _ => [some q, some (swdEncLineReset c)]
  | .fault _ cs _ =>
      [some q, requestFrame c .dp .read c.addrCtrlstat 0#32,
       requestFrame c .dp .write c.addrAbort (abortWord c (stickyOrun c (sampledData c cs.bits))
         (stickyErr c (sampledData c cs.bits)))]

/-- Frames as calls. -/
def framesToCalls (fs : List (Option Seq)) : List Call := fs.filterMap fun f => f.map Seq.call

/-- The idle frame that follows a JTAG shift (R222), as a list of calls: none when the count is 0. -/
def idleCalls (n : Nat) : List Call :=
  if n = 0 then [] else [.jtagIo (rep false n) (rep false n)]

/-- The instruction-register part of a JTAG access (R221, R222): nothing where the cache holds the value, else the
frame and what follows it. -/
def irCalls (ir : Option (BitVec 8)) (n : Nat) (v : BitVec 8) (len : Nat) : List Call :=
  if ir = some v then [] else (irFrame v len).call :: idleCalls n

/-- A script that answers each of `calls` without a failure. -/
def AllAnswered (script : List Answer) (calls : List Call) : Prop :=
  script.length = calls.length ∧ ∀ a ∈ script, a.failed = false

/-! ### The target's TAP (PRESUMED, assumption log 8) -/

/-- The states of a JTAG TAP controller. -/
inductive TapState where
  | testLogicReset | runTestIdle
  | selectDr | captureDr | shiftDr | exit1Dr | pauseDr | exit2Dr | updateDr
  | selectIr | captureIr | shiftIr | exit1Ir | pauseIr | exit2Ir | updateIr
deriving DecidableEq, Repr

/-- One clock of the TAP controller with the given TMS (GK5 names the walks the frames use). -/
def TapState.clock : TapState → Bool → TapState
  | .testLogicReset, tms => if tms then .testLogicReset else .runTestIdle
  | .runTestIdle, tms => if tms then .selectDr else .runTestIdle
  | .selectDr, tms => if tms then .selectIr else .captureDr
  | .captureDr, tms => if tms then .exit1Dr else .shiftDr
  | .shiftDr, tms => if tms then .exit1Dr else .shiftDr
  | .exit1Dr, tms => if tms then .updateDr else .pauseDr
  | .pauseDr, tms => if tms then .exit2Dr else .pauseDr
  | .exit2Dr, tms => if tms then .updateDr else .shiftDr
  | .updateDr, tms => if tms then .selectDr else .runTestIdle
  | .selectIr, tms => if tms then .testLogicReset else .captureIr
  | .captureIr, tms => if tms then .exit1Ir else .shiftIr
  | .shiftIr, tms => if tms then .exit1Ir else .shiftIr
  | .exit1Ir, tms => if tms then .updateIr else .pauseIr
  | .pauseIr, tms => if tms then .exit2Ir else .pauseIr
  | .exit2Ir, tms => if tms then .updateIr else .shiftIr
  | .updateIr, tms => if tms then .selectDr else .runTestIdle

/-- The states the TAP is in before each clock of a TMS vector. -/
def TapState.walk : TapState → Bits → List TapState
  | _, [] => []
  | t, b :: tms => t :: TapState.walk (t.clock b) tms

/-- The state the TAP is in after a TMS vector. -/
def TapState.after : TapState → Bits → TapState
  | t, [] => t
  | t, b :: tms => TapState.after (t.clock b) tms

end Sys2Proof.Machine
end

