-- ==== Sys2Proof/Certificates/Slice0/Obligations.lean ====
section
/-! DEFINITION. The statements about the model that the provers are given, one `Prop` each. The docstrings name the
rules of spec/ they formalise. -/

open Sys2Proof Sys2Proof.Machine

/-! ### The port, decoding, encoding -/

/-- What the host presents next is decoded and executed, and is then presented no more (R81, R273). -/
def Obligations.StepRunsDecodedInstruction : Prop :=
  ∀ (s : State) (p : Presented) (rest : List Input),
    s.eng.phase = .idle → s.host = .port p :: rest → step s = exec (decode s.cfg p) { s with host := rest }

/-- With no input the block waits (R270); while a command runs the port is closed (R273, log 7), and nothing else stops a
step; the block's reset is taken in any phase (R270, log 10). -/
def Obligations.StepWaitsOrStops : Prop :=
  (∀ s : State, s.host = [] → step s = .next s) ∧
  (∀ (s : State) (p : Presented) (rest : List Input),
    s.host = .port p :: rest → s.eng.phase ≠ .idle → step s = .fault .portClosed) ∧
  (∀ (s : State) (rest : List Input),
    s.host = .reset :: rest → step s = .next { s with host := rest }.blockReset) ∧
  ∀ s : State, (∀ r, step s ≠ .refused r) ∧
    ∀ f, step s = .fault f → s.eng.phase ≠ .idle ∧ ∃ p rest, s.host = .port p :: rest

/-- Words written out from the encodings of the spec decode to the instructions they stand for (R82, R83, R84, the
request header R88, the read frame R91, the line reset R94, the instruction-register frame R96, R150, and the opcode
table; which row a pattern of several rows is, log 6). -/
def Obligations.WordsDecodeToTheirInstructions : Prop :=
  decode .default (.record { op := 0x0#4, port := 1#1, apidx := 3, addr := 0xC#4 }) = .dapRd .ap 3 0xC#4 ∧
  decode .default (.record { op := 0x1#4, addr := 0x4#4, value := 0x50000001#32 }) =
    .dapWr .dp 0 0x4#4 0x50000001#32 ∧
  decode .default (.record { op := 0x3#4, proto := 1#1 }) = .protoSel .jtag ∧
  decode .default (.record { op := 0xD#4, irval := 0x11#8, irlen := 5, drbits := 10, data := [0xB5#8, 0x02#8] }) =
    .jtagWr 0x11#8 5 10 [0xB5#8, 0x02#8] ∧
  decode .default (.named (.jtagEncIr 0x01#8 9)) = .jtagEncIrLong 0x01#8 0 ∧
  assemble .default "dap.wr ap[0], 0x4, 0xDEADBEEF".toList = .ok (.dapWr .ap 0 0x4#4 0xDEADBEEF#32) ∧
  assemble .default "jtag.wr 0x11, 5, 10, [B5 02] ; data".toList = .ok (.jtagWr 0x11#8 5 10 [0xB5#8, 0x02#8]) ∧
  assemble .default "wr.abort 0x10".toList = .ok (.wrAbort 0x10#32) ∧
  decodeTableWord 8 0x3 = some (.protoSel .swd) ∧
  decodeTableWord 8 0xA5 = some (.swdHdr .dp .read 0x0#4) ∧
  decodeTableWord 48 0b1011110100000000000000000000000000000000000000 = some (.swdEncRead .dp 0xC#4) ∧
  decodeTableWord 80 0b11111111111111111111111111111111111111111111111111011110011110011100000000 =
    some .swdEncLineReset ∧
  decodeTableWord 16 0x294 = some (.jtagEncIrLen8 0xA5#8)

/-- Decoding an encoded instruction gives it back, with every operand, in every configuration whose field widths its
operands fit; and everything the port can be given decodes to an instruction that fits. -/
def Obligations.DecodeOfEncode : Prop :=
  (∀ (c : Config) (i : Instr), i.fits c = true → decode c (encode i) = i) ∧
  ∀ (c : Config) (p : Presented), (decode c p).fits c = true

/-- The `op` of a command record selects the command, which takes the fields its row lists and no other (R82, R85), each
with the bits its width gives it (R81, log 5), the index whatever the port is (log 20). -/
def Obligations.RecordsDecodeByOpcode : Prop :=
  ∀ (c : Config) (r : Record),
    (r.op = 0x0#4 →
      decode c (.record r) = .dapRd (if r.port = 1#1 then .ap else .dp) (r.apidx % 2 ^ c.apidxBits) r.addr) ∧
    (r.op = 0x1#4 →
      decode c (.record r) = .dapWr (if r.port = 1#1 then .ap else .dp) (r.apidx % 2 ^ c.apidxBits) r.addr r.value) ∧
    (r.op = 0x2#4 → decode c (.record r) = .lrst) ∧
    (r.op = 0x3#4 → decode c (.record r) = .protoSel (if r.proto = 1#1 then .jtag else .swd)) ∧
    (r.op = 0x4#4 → decode c (.record r) = .protoGet) ∧
    (r.op = 0x5#4 → decode c (.record r) = .speedSet (r.khz % 2 ^ c.speedBits)) ∧
    (r.op = 0x6#4 → decode c (.record r) = .speedGet) ∧
    (r.op = 0x7#4 → decode c (.record r) = .jidleSet (r.cycles % 2 ^ c.idleBits)) ∧
    (r.op = 0x8#4 → decode c (.record r) = .rstAssert) ∧
    (r.op = 0x9#4 → decode c (.record r) = .rstDeassert) ∧
    (r.op = 0xA#4 → decode c (.record r) = .attach) ∧
    (r.op = 0xB#4 → decode c (.record r) = .jtagWir r.irval r.irlen) ∧
    (r.op = 0xC#4 → decode c (.record r) = .jtagRd r.irval r.irlen r.drbits) ∧
    (r.op = 0xD#4 → decode c (.record r) = .jtagWr r.irval r.irlen r.drbits r.data) ∧
    (r.op = 0xE#4 → decode c (.record r) = .reservedE) ∧
    (r.op = 0xF#4 → decode c (.record r) = .reservedF)

/-! ### The SWD codec -/

/-- The request header has a value exactly for an aligned offset (R57); it is the eight bits of R86 in wire order,
assembled as R102 says; its parity is 1 exactly when an odd number of the four bits before it is 1, so that the five
bits together hold an even number of ones (R87). -/
def Obligations.HeaderFieldsInWireOrder : Prop :=
  ∀ (port : Port) (dir : Dir) (addr : BitVec 4),
    ((swdHdr port dir addr).isSome = (addr.extractLsb' 0 2 == 0#2)) ∧
    ∀ h, swdHdr port dir addr = some h →
      h.length = 8 ∧ h[0]? = some true ∧ h[1]? = some (decide (port = .ap)) ∧ h[2]? = some (decide (dir = .read)) ∧
      h[3]? = some (addr.getLsbD 2) ∧ h[4]? = some (addr.getLsbD 3) ∧
      h[5]? = some (xor (decide (port = .ap)) (xor (decide (dir = .read)) (xor (addr.getLsbD 2) (addr.getLsbD 3)))) ∧
      h[6]? = some false ∧ h[7]? = some true ∧
      h[5]? = some (decide ((slice h 1 4).count true % 2 = 1)) ∧ (slice h 1 5).count true % 2 = 0

/-- The table of the sixteen headers, with the byte of each, and there is no seventeenth (R88). -/
def Obligations.SixteenHeaders : Prop :=
  (∀ row ∈ ([
      (Port.dp, Dir.write, 0x0#4, 0x81), (.dp, .write, 0x4#4, 0xA9), (.dp, .write, 0x8#4, 0xB1),
      (.dp, .write, 0xC#4, 0x99), (.dp, .read, 0x0#4, 0xA5), (.dp, .read, 0x4#4, 0x8D),
      (.dp, .read, 0x8#4, 0x95), (.dp, .read, 0xC#4, 0xBD), (.ap, .write, 0x0#4, 0xA3),
      (.ap, .write, 0x4#4, 0x8B), (.ap, .write, 0x8#4, 0x93), (.ap, .write, 0xC#4, 0xBB),
      (.ap, .read, 0x0#4, 0x87), (.ap, .read, 0x4#4, 0xAF), (.ap, .read, 0x8#4, 0xB7),
      (.ap, .read, 0xC#4, 0x9F)] : List (Port × Dir × BitVec 4 × Nat)),
    (swdHdr row.1 row.2.1 row.2.2.1).map numLsb = some row.2.2.2 ∧
    (swdHdr row.1 row.2.1 row.2.2.1).map List.length = some 8) ∧
  ∀ (port : Port) (dir : Dir) (addr : BitVec 4) (h : Bits), swdHdr port dir addr = some h →
    numLsb h ∈ [0x81, 0xA9, 0xB1, 0x99, 0xA5, 0x8D, 0x95, 0xBD, 0xA3, 0x8B, 0x93, 0xBB, 0x87, 0xAF, 0xB7, 0x9F]

/-- The class of the three acknowledgement bits, pattern by pattern, read at the indices 9 to 11 (R89, R124). -/
def Obligations.AcknowledgementClasses : Prop :=
  ∀ (c : Config) (s : Bits), c.nTrnAck = 1 → 12 ≤ s.length →
    swdDecAck c s = some (
      match s[9]?.getD false, s[10]?.getD false, s[11]?.getD false with
      | true, false, false => .ok
      | false, true, false => .wait
      | false, false, true => .fault
      | true, true, true => .noAck
      | true, true, false => .wait
      | false, true, true => .wait
      | true, false, true => .fault
      | false, false, false => .noAck)

/-- The data parity: 1 exactly when the number of ones is odd, with the laws R121 names. -/
def Obligations.DataParityLaws : Prop :=
  swdPar32 0x00000000#32 = false ∧ swdPar32 0xFFFFFFFF#32 = false ∧
  (∀ v : Word, swdPar32 v = decide (((List.range 32).countP fun i => v.getLsbD i) % 2 = 1)) ∧
  (∀ a b : Word, swdPar32 (a ^^^ b) = xor (swdPar32 a) (swdPar32 b)) ∧
  (∀ (v : Word) (i : Nat), i < 32 → swdPar32 (v ^^^ (1#32 <<< i)) = !swdPar32 v)

/-- The write frame, bit by bit (R90); it exists exactly for an aligned offset and at least eight idle cycles (R122). -/
def Obligations.WriteFrameLayout : Prop :=
  ∀ (c : Config) (port : Port) (addr : BitVec 4) (v : Word) (n : Nat), c.nTrnAck = 1 →
    ((swdEncWrite c port addr v n).isSome = (decide (8 ≤ n) && (addr.extractLsb' 0 2 == 0#2))) ∧
    ∀ q h, swdEncWrite c port addr v n = some q → swdHdr port .write addr = some h →
      q.io.length = 47 + n ∧ q.dir.length = 47 + n ∧
      ∀ i, i < 47 + n →
        q.io[i]? = (if i < 8 then h[i]? else if i < 14 then some false else if i < 46 then some (v.getLsbD (i - 14))
          else if i = 46 then some (swdPar32 v) else some false) ∧
        q.dir[i]? = some (decide (i < 8 ∨ 14 ≤ i))

/-- The read frame, bit by bit (R91); it exists exactly for an aligned offset (R123). -/
def Obligations.ReadFrameLayout : Prop :=
  ∀ (c : Config) (port : Port) (addr : BitVec 4), c.nTrnAck = 1 →
    ((swdEncRead c port addr).isSome = (addr.extractLsb' 0 2 == 0#2)) ∧
    ∀ q h, swdEncRead c port addr = some q → swdHdr port .read addr = some h →
      q.io.length = 46 ∧ q.dir.length = 46 ∧
      ∀ i, i < 46 → q.io[i]? = (if i < 8 then h[i]? else some false) ∧ q.dir[i]? = some (decide (i < 8))

/-- The round-trip law of the write data (R129). -/
def Obligations.WriteDataRoundTrip : Prop :=
  ∀ (c : Config) (port : Port) (addr : BitVec 4) (v : Word) (n : Nat), c.nTrnAck = 1 →
    addr.extractLsb' 0 2 = 0#2 → 8 ≤ n →
    ∃ q, swdEncWrite c port addr v n = some q ∧ swdDecWrite c q.io = some (v, swdPar32 v) ∧
      q.io.length = 47 + n ∧ q.dir.length = 47 + n ∧ some (slice q.io 0 8) = swdHdr port .write addr ∧
      (∀ i, i < 47 + n → (q.dir[i]? = some false ↔ 8 ≤ i ∧ i ≤ 13)) ∧
      (∀ i, i < 47 + n → (8 ≤ i ∧ i ≤ 13 ∨ 47 ≤ i) → q.io[i]? = some false)

/-- The data of a sampled read frame: 32 bits least significant first from index 12, the parity bit at 44; what stands
before, and the turnaround bit after, is ignored; a vector of another length has no value (R125). -/
def Obligations.ReadDataDecoding : Prop :=
  ∀ (c : Config), c.nTrnAck = 1 →
    (∀ (pre : Bits) (v : Word) (p t : Bool), pre.length = 12 →
      swdDecRead c (pre ++ (List.range 32).map v.getLsbD ++ [p, t]) = some (v, p, swdPar32 v == p)) ∧
    ∀ s : Bits, (swdDecRead c s).isSome = decide (s.length = 46)

/-- The line reset: its two vectors in general, and with the default parameters bit by bit (R94, R127). -/
def Obligations.LineResetSequence : Prop :=
  (∀ c : Config,
    (swdEncLineReset c).io = List.replicate c.nResetHigh true ++ (List.range 16).map c.jtagToSwd.getLsbD ++
      List.replicate c.nResetPostHigh true ++ List.replicate c.nResetTail false ∧
    (swdEncLineReset c).dir = List.replicate (swdEncLineReset c).io.length true) ∧
  (swdEncLineReset .default).io = List.replicate 50 true ++
    [false, true, true, true, true, false, false, true, true, true, true, false, false, true, true, true] ++
    List.replicate 8 false ∧
  (swdEncLineReset .default).io.length = 74

/-! ### The JTAG codec -/

/-- The instruction-register frame and its checks in their order (R96, R150). -/
def Obligations.InstructionRegisterFrame : Prop :=
  ∀ v : BitVec 8,
    jtagEncIr v 0 = .error .assert ∧
    (∀ len, 8 < len → jtagEncIr v len = .error (.raise .notImplemented)) ∧
    (∀ len, 1 ≤ len → len ≤ 8 → 2 ^ len ≤ v.toNat → jtagEncIr v len = .error .assert) ∧
    ∀ len, 1 ≤ len → len ≤ 8 → v.toNat < 2 ^ len →
      ∃ q, jtagEncIr v len = .ok q ∧
        q.tms = [true, true, false, false] ++ List.replicate (len - 1) false ++ [true, true, false] ∧
        q.tdi = [false, false, false, false] ++ (List.range len).map v.getLsbD ++ [false, false]

/-- The data-register frame (R97, R151) and the register it captures (R152): bit `k` of the register is bit `k mod 8`
of byte `k div 8` both ways, the unused high bits of a captured last byte are 0. -/
def Obligations.DataRegisterFrameAndCapture : Prop :=
  (∀ (c : Config) (bytes : List Byte) (n : Nat), (∀ m, c.maxDrBits = some m → n ≤ m) → 1 ≤ n →
    bytes.length = (n + 7) / 8 →
    ∃ q, jtagEncDr c bytes n = some q ∧
      q.tms = [true, false, false] ++ List.replicate (n - 1) false ++ [true, true, false] ∧
      q.tdi = [false, false, false] ++ (List.range n).map (fun k => (bytes.getD (k / 8) 0#8).getLsbD (k % 8)) ++
        [false, false]) ∧
  (∀ (c : Config) (bytes : List Byte) (n : Nat),
    n = 0 ∨ bytes.length ≠ (n + 7) / 8 ∨ (∃ m, c.maxDrBits = some m ∧ m < n) → jtagEncDr c bytes n = none) ∧
  ∀ (tdo : Bits) (n : Nat), 1 ≤ n → tdo.length = n + 5 →
    ∃ bs, jtagDecDr tdo n = some bs ∧ bs.length = (n + 7) / 8 ∧
      ∀ k, k < 8 * bs.length →
        (bs.getD (k / 8) 0#8).getLsbD (k % 8) = if k < n then tdo.getD (3 + k) false else false

/-- Packing and unpacking undo each other and place bit `k` at bit `k mod 8` of byte `k div 8` (R154). -/
def Obligations.PackAndUnpack : Prop :=
  (∀ (bytes : List Byte) (n : Nat), bytes.length = (n + 7) / 8 →
    ∃ w, unpackBits bytes n = some w ∧ w.length = n ∧
      ∀ k, k < n → w[k]? = some ((bytes.getD (k / 8) 0#8).getLsbD (k % 8))) ∧
  (∀ (bytes : List Byte) (n : Nat), bytes.length ≠ (n + 7) / 8 → unpackBits bytes n = none) ∧
  (∀ w : Bits, (packBits w).length = (w.length + 7) / 8 ∧
    ∀ k, k < 8 * (packBits w).length → ((packBits w).getD (k / 8) 0#8).getLsbD (k % 8) = w.getD k false) ∧
  ∀ w : Bits, unpackBits (packBits w) w.length = some w

/-- Each JTAG frame takes a TAP from its idle state through exactly as many shift clocks as it has register bits and
back to idle (R155, R275; the TAP is PRESUMED, log 8). -/
def Obligations.JtagFramesReturnToIdle : Prop :=
  (∀ (v : BitVec 8) (len : Nat) (q : JSeq), jtagEncIr v len = .ok q →
    TapState.after .runTestIdle q.tms = .runTestIdle ∧
    (TapState.walk .runTestIdle q.tms).count .shiftIr = len ∧
    (TapState.walk .runTestIdle q.tms).count .shiftDr = 0) ∧
  (∀ (c : Config) (bytes : List Byte) (n : Nat) (q : JSeq), jtagEncDr c bytes n = some q →
    TapState.after .runTestIdle q.tms = .runTestIdle ∧
    (TapState.walk .runTestIdle q.tms).count .shiftDr = n ∧
    (TapState.walk .runTestIdle q.tms).count .shiftIr = 0 ∧
    ∀ k, (TapState.walk .runTestIdle q.tms)[k]? = some .shiftDr ↔ 3 ≤ k ∧ k < n + 3) ∧
  ∀ (n : Nat) (q : JSeq), jtagEncIdle n = some q →
    TapState.after .runTestIdle q.tms = .runTestIdle ∧ ∀ t ∈ TapState.walk .runTestIdle q.tms, t = .runTestIdle

/-! ### The codec functions as instructions -/

/-- Inside its domain an SWD codec function gives the value of its function and changes nothing but the response port (log
13); outside it the outcome is `Assert` (R130). The domains of the three decoders are those R124 to R126 state, 12, 46
and 47 bits, where `N_TRN_ACK` is 1; that they move with another `N_TRN_ACK` is the DEDUCED choice of log 18. -/
def Obligations.SwdCodecFunctionsComplete : Prop :=
  ∀ s : State,
    (∀ port dir addr, addr.extractLsb' 0 2 = 0#2 → ∃ h, swdHdr port dir addr = some h ∧
      exec (.swdHdr port dir addr) s = .next { s with resp := some (.ok (.bits h)) }) ∧
    (∀ port addr v n, addr.extractLsb' 0 2 = 0#2 → 8 ≤ n → ∃ q, swdEncWrite s.cfg port addr v n = some q ∧
      exec (.swdEncWrite port addr v n) s = .next { s with resp := some (.ok (.swdSeq q.io q.dir)) }) ∧
    (∀ port addr, addr.extractLsb' 0 2 = 0#2 → ∃ q, swdEncRead s.cfg port addr = some q ∧
      exec (.swdEncRead port addr) s = .next { s with resp := some (.ok (.swdSeq q.io q.dir)) }) ∧
    (∀ v : Bits, 11 + s.cfg.nTrnAck ≤ v.length → ∃ k, swdDecAck s.cfg v = some k ∧
      exec (.swdDecAck v) s = .next { s with resp := some (.ok (.ackClass k)) }) ∧
    (∀ v : Bits, v.length = 45 + s.cfg.nTrnAck → ∃ w p ok, swdDecRead s.cfg v = some (w, p, ok) ∧
      exec (.swdDecRead v) s = .next { s with resp := some (.ok (.sampledWord w p ok)) }) ∧
    (∀ io : Bits, 46 + s.cfg.nTrnAck ≤ io.length → ∃ w p, swdDecWrite s.cfg io = some (w, p) ∧
      exec (.swdDecWrite io) s = .next { s with resp := some (.ok (.drivenWord w p)) }) ∧
    exec .swdEncLineReset s =
      .next { s with resp := some (.ok (.swdSeq (swdEncLineReset s.cfg).io (swdEncLineReset s.cfg).dir)) } ∧
    (∀ v : Word, exec (.swdPar32 v) s = .next { s with resp := some (.ok (.bit (swdPar32 v))) }) ∧
    (∀ io dir : Bits, io.length = dir.length →
      exec (.mkSeq io dir) s = .next { s with resp := some (.ok (.swdSeq io dir)) }) ∧
    (∀ io dir : Bits, io.length ≠ dir.length →
      exec (.mkSeq io dir) s = .next { s with resp := some .assert }) ∧
    (∀ port dir addr, addr.extractLsb' 0 2 ≠ 0#2 →
      exec (.swdHdr port dir addr) s = .next { s with resp := some .assert }) ∧
    (∀ port addr v n, addr.extractLsb' 0 2 ≠ 0#2 ∨ n < 8 →
      exec (.swdEncWrite port addr v n) s = .next { s with resp := some .assert }) ∧
    (∀ port addr, addr.extractLsb' 0 2 ≠ 0#2 →
      exec (.swdEncRead port addr) s = .next { s with resp := some .assert }) ∧
    (∀ v : Bits, v.length < 11 + s.cfg.nTrnAck → exec (.swdDecAck v) s = .next { s with resp := some .assert }) ∧
    (∀ v : Bits, v.length ≠ 45 + s.cfg.nTrnAck → exec (.swdDecRead v) s = .next { s with resp := some .assert }) ∧
    ∀ io : Bits, io.length < 46 + s.cfg.nTrnAck → exec (.swdDecWrite io) s = .next { s with resp := some .assert }

/-- The same for the JTAG codec functions (R155): `jtag_enc_ir` at every length (`encIrOf` is the constructors
`jtagEncIrLen0` to `jtagEncIrLen8` and `jtagEncIrLong`), where a length above 8 is the error `NotImplemented` (R150; it
names no command, log 13), `jtag_enc_dr`, `jtag_dec_dr`, `jtag_enc_idle`, `unpack_bits`,
`pack_bits`. -/
def Obligations.JtagCodecFunctionsComplete : Prop :=
  ∀ s : State,
    (∀ (v : BitVec 8) (len : Nat),
      (1 ≤ len → len ≤ 8 → v.toNat < 2 ^ len → ∃ q, jtagEncIr v len = .ok q ∧
        exec (encIrOf v len) s = .next { s with resp := some (.ok (.jtagSeq q.tms q.tdi)) }) ∧
      (len = 0 ∨ len ≤ 8 ∧ 2 ^ len ≤ v.toNat → exec (encIrOf v len) s = .next { s with resp := some .assert }) ∧
      (8 < len → exec (encIrOf v len) s = .next { s with resp := some (.err .notImplemented ⟨none, none⟩) })) ∧
    (∀ (bytes : List Byte) (n : Nat), (∀ m, s.cfg.maxDrBits = some m → n ≤ m) → 1 ≤ n →
      bytes.length = (n + 7) / 8 →
      ∃ q, jtagEncDr s.cfg bytes n = some q ∧
        exec (.jtagEncDr bytes n) s = .next { s with resp := some (.ok (.jtagSeq q.tms q.tdi)) }) ∧
    (∀ (tdo : Bits) (n : Nat), 1 ≤ n → tdo.length = n + 5 → ∃ bs, jtagDecDr tdo n = some bs ∧
      exec (.jtagDecDr tdo n) s = .next { s with resp := some (.ok (.bytes bs)) }) ∧
    (∀ n, 1 ≤ n → exec (.jtagEncIdle n) s =
      .next { s with resp := some (.ok (.jtagSeq (List.replicate n false) (List.replicate n false))) }) ∧
    (∀ (bytes : List Byte) (n : Nat), bytes.length = (n + 7) / 8 → ∃ w, unpackBits bytes n = some w ∧
      exec (.unpackBits bytes n) s = .next { s with resp := some (.ok (.bits w)) }) ∧
    (∀ w : Bits, exec (.packBits w) s = .next { s with resp := some (.ok (.bytes (packBits w))) }) ∧
    (∀ (bytes : List Byte) (n : Nat),
      n = 0 ∨ bytes.length ≠ (n + 7) / 8 ∨ (∃ m, s.cfg.maxDrBits = some m ∧ m < n) →
      exec (.jtagEncDr bytes n) s = .next { s with resp := some .assert }) ∧
    (∀ (tdo : Bits) (n : Nat), n = 0 ∨ tdo.length ≠ n + 5 →
      exec (.jtagDecDr tdo n) s = .next { s with resp := some .assert }) ∧
    exec (.jtagEncIdle 0) s = .next { s with resp := some .assert } ∧
    ∀ (bytes : List Byte) (n : Nat), bytes.length ≠ (n + 7) / 8 →
      exec (.unpackBits bytes n) s = .next { s with resp := some .assert }

/-! ### Refusal and the gates -/

/-- The six causes of `Assert`, in either protocol; nothing happens but the outcome (R250). -/
def Obligations.SixCausesOfAssert : Prop :=
  ∀ s : State,
    (exec .reservedE s = .next { s with resp := some .assert } ∧
      exec .reservedF s = .next { s with resp := some .assert }) ∧
    (∀ port x (addr : BitVec 4) v, addr.getLsbD 0 = true ∨ addr.getLsbD 1 = true →
      exec (.dapRd port x addr) s = .next { s with resp := some .assert } ∧
      exec (.dapWr port x addr v) s = .next { s with resp := some .assert }) ∧
    (∀ (v : BitVec 8) len n d, len = 0 ∨ len ≤ 8 ∧ 2 ^ len ≤ v.toNat →
      exec (.jtagWir v len) s = .next { s with resp := some .assert } ∧
      exec (.jtagRd v len n) s = .next { s with resp := some .assert } ∧
      exec (.jtagWr v len n d) s = .next { s with resp := some .assert }) ∧
    (∀ (v : BitVec 8) len d,
      exec (.jtagRd v len 0) s = .next { s with resp := some .assert } ∧
      exec (.jtagWr v len 0 d) s = .next { s with resp := some .assert }) ∧
    ∀ (v : BitVec 8) len n (d : List Byte), d.length ≠ (n + 7) / 8 →
      exec (.jtagWr v len n d) s = .next { s with resp := some .assert }

/-- The outcome is `Assert` exactly for an instruction outside the contract, whatever the state; and then nothing
else happens (R250, R130; the bound `MAX_DR_BITS` by log 9). -/
def Obligations.AssertExactlyOutsideTheContract : Prop :=
  ∀ (i : Instr) (s : State), s.cfg.wf = true →
    ∃ t, exec i s = .next t ∧ (t.resp = some .assert ↔ i.wf s.cfg = false) ∧
      (t.resp = some .assert → t = { s with resp := some .assert })

/-- `irlen > 8` inside the contract is `NotImplemented`, in either protocol and whatever the cache holds, and nothing
else happens (R244, R251). -/
def Obligations.LongInstructionRegisterNotImplemented : Prop :=
  ∀ (s : State) (v : BitVec 8) (len : Nat), 8 < len →
    exec (.jtagWir v len) s = .next { s with resp := some (.err .notImplemented ⟨some 0xB#4, none⟩) } ∧
    ∀ n (d : List Byte), (∀ m, s.cfg.maxDrBits = some m → n ≤ m) → 1 ≤ n →
      exec (.jtagRd v len n) s = .next { s with resp := some (.err .notImplemented ⟨some 0xC#4, none⟩) } ∧
      (d.length = (n + 7) / 8 →
        exec (.jtagWr v len n d) s = .next { s with resp := some (.err .notImplemented ⟨some 0xD#4, none⟩) })

/-- `UnsupportedProtocol`: the support check of `PROTO.SEL` and the protocol gate, with nothing changed and no call
made (R241). -/
def Obligations.UnsupportedProtocolCauses : Prop :=
  ∀ s : State,
    (∀ p, supports s.cfg p = false →
      exec (.protoSel p) s = .next { s with resp := some (.err .unsupportedProtocol ⟨some 0x3#4, none⟩) }) ∧
    (s.ps.selectedProtocol = .jtag →
      exec .lrst s = .next { s with resp := some (.err .unsupportedProtocol ⟨some 0x2#4, none⟩) } ∧
      ∀ port x (addr : BitVec 4) v, addr.extractLsb' 0 2 = 0#2 →
        exec (.dapRd port x addr) s =
          .next { s with resp := some (.err .unsupportedProtocol ⟨some 0x0#4, some ⟨port, x, addr, .main⟩⟩) } ∧
        exec (.dapWr port x addr v) s =
          .next { s with resp := some (.err .unsupportedProtocol ⟨some 0x1#4, some ⟨port, x, addr, .main⟩⟩) }) ∧
    (s.ps.selectedProtocol = .swd →
      ∀ (v : BitVec 8) len, 1 ≤ len → len ≤ 8 → v.toNat < 2 ^ len →
        exec (.jtagWir v len) s = .next { s with resp := some (.err .unsupportedProtocol ⟨some 0xB#4, none⟩) } ∧
        ∀ n (d : List Byte), (∀ m, s.cfg.maxDrBits = some m → n ≤ m) → 1 ≤ n →
          exec (.jtagRd v len n) s = .next { s with resp := some (.err .unsupportedProtocol ⟨some 0xC#4, none⟩) } ∧
          (d.length = (n + 7) / 8 →
            exec (.jtagWr v len n d) s = .next { s with resp := some (.err .unsupportedProtocol ⟨some 0xD#4, none⟩) }))

/-! ### Protocol, speed, idle cycles, reset line, line reset -/

/-- `PROTO.SEL`: with a supported protocol the cache is invalidated and one call is made, and the register changes
exactly when the call is answered `Done`; with another protocol nothing happens (R210). -/
def Obligations.ProtocolSelect : Prop :=
  ∀ (s : State) (p : Protocol),
    (supports s.cfg p = false →
      exec (.protoSel p) s = .next { s with resp := some (.err .unsupportedProtocol ⟨some 0x3#4, none⟩) }) ∧
    (supports s.cfg p = true → s.answer.failed = false → exec (.protoSel p) s = .next { s with
      ps := { s.ps with selectedProtocol := p, currentIrRegister := none }
      env := s.env.tail
      wire := s.wire ++ [.tpSelect p]
      resp := some (.ok .unit) }) ∧
    (supports s.cfg p = true → s.answer.failed = true → exec (.protoSel p) s = .next { s with
      ps := { s.ps with currentIrRegister := none }
      env := s.env.tail
      wire := s.wire ++ [.tpSelect p]
      resp := some (.err .probeSpecific ⟨some 0x3#4, none⟩) })

/-- The commands that make no call: `PROTO.GET` and `SPEED.GET` return their registers and change nothing (R211, R213);
`JIDLE.SET` writes its register and nothing else, in either protocol (R214). -/
def Obligations.CommandsWithoutCalls : Prop :=
  ∀ s : State,
    exec .protoGet s = .next { s with resp := some (.ok (.proto s.ps.selectedProtocol)) } ∧
    exec .speedGet s = .next { s with resp := some (.ok (.speed s.ps.speedKhz)) } ∧
    ∀ n, exec (.jidleSet n) s =
      .next { s with ps := { s.ps with jtagIdleCycles := n }, resp := some (.ok .unit) }

/-- `SPEED.SET`: one call; the register takes the actual speed when there is one, and is unchanged otherwise (R212). -/
def Obligations.SpeedSet : Prop :=
  ∀ (s : State) (k : Nat),
    (∀ k2, s.answer.failed = false → speedAccept s.cfg k = some k2 → exec (.speedSet k) s = .next { s with
      ps := { s.ps with speedKhz := k2 }
      env := s.env.tail
      wire := s.wire ++ [.tpSetSpeed k]
      resp := some (.ok (.speed k2)) }) ∧
    (s.answer.failed = false → speedAccept s.cfg k = none → exec (.speedSet k) s = .next { s with
      env := s.env.tail
      wire := s.wire ++ [.tpSetSpeed k]
      resp := some (.err .unsupportedSpeed ⟨some 0x5#4, none⟩) }) ∧
    (s.answer.failed = true → exec (.speedSet k) s = .next { s with
      env := s.env.tail
      wire := s.wire ++ [.tpSetSpeed k]
      resp := some (.err .probeSpecific ⟨some 0x5#4, none⟩) })

/-- `RST.ASSERT` and `RST.DEASSERT`: the cache is invalid even when the call fails (R215, R216). -/
def Obligations.ResetLineCommands : Prop :=
  ∀ (s : State) (i : Instr) (op : BitVec 4) (level : ResetLevel),
    (i = .rstAssert ∧ op = 0x8#4 ∧ level = .asserted ∨ i = .rstDeassert ∧ op = 0x9#4 ∧ level = .released) →
    exec i s = .next { s with
      ps := { s.ps with currentIrRegister := none }
      env := s.env.tail
      wire := s.wire ++ [.tpReset level]
      resp := some (if s.answer.failed then .err .probeSpecific ⟨some op, none⟩ else .ok .unit) }

/-- `ATTACH`: the cache is invalidated; in `Swd` one line reset, in `Jtag` nothing sent (R217). `LRST`: in `Swd` the
same frame, the cache untouched; in `Jtag` an error and nothing sent (R225). -/
def Obligations.AttachAndLineReset : Prop :=
  ∀ s : State,
    (s.ps.selectedProtocol = .swd →
      exec .attach s = .next { s with
        ps := { s.ps with currentIrRegister := none }
        buf := .empty
        env := s.env.tail
        wire := s.wire ++ [.swdIo (swdEncLineReset s.cfg).io (swdEncLineReset s.cfg).dir]
        resp := some (if s.answer.failed then .err .probeSpecific ⟨some 0xA#4, none⟩ else .ok .unit) } ∧
      exec .lrst s = .next { s with
        buf := .empty
        env := s.env.tail
        wire := s.wire ++ [.swdIo (swdEncLineReset s.cfg).io (swdEncLineReset s.cfg).dir]
        resp := some (if s.answer.failed then .err .probeSpecific ⟨some 0x2#4, none⟩ else .ok .unit) }) ∧
    (s.ps.selectedProtocol = .jtag →
      exec .attach s = .next { s with
        ps := { s.ps with currentIrRegister := none }, resp := some (.ok .unit) } ∧
      exec .lrst s = .next { s with resp := some (.err .unsupportedProtocol ⟨some 0x2#4, none⟩) })

/-! ### The engine -/

/-- A write acknowledged `Ok` at once: one write frame with the engine's idle count, the outcome `Ok(())`, nothing
else sent; no probe-state register changes (R174, R184). -/
def Obligations.WriteAcknowledgedAtOnce : Prop :=
  ∀ (s : State) (port : Port) (x : Nat) (addr : BitVec 4) (v : Word) (a : Answer) (rest : List Answer),
    s.cfg.wf = true → s.ps.selectedProtocol = .swd → addr.extractLsb' 0 2 = 0#2 →
    s.env = a :: rest → a.Gives s.cfg .ok →
    ∃ q, swdEncWrite s.cfg port addr v s.cfg.engineWriteIdle = some q ∧
      exec (.dapWr port x addr v) s = .next { s with
        eng := { s.eng with
          phase := .idle
          attempt := 0
          txn := ⟨port, x, .write, addr, v⟩
          followup := false
          ack := sampledAck s.cfg a.bits }
        buf := .empty
        env := rest
        wire := s.wire ++ [.swdIo q.io q.dir]
        resp := some (.ok .unit) }

/-- A Debug Port read acknowledged `Ok` at once: one read frame; the value when the parity is right, `IncorrectParity`
and no further frame when it is not (R175, R183). -/
def Obligations.DebugPortReadAcknowledgedAtOnce : Prop :=
  ∀ (s : State) (x : Nat) (addr : BitVec 4) (v : Word) (p : Bool) (a : Answer) (rest : List Answer),
    s.cfg.wf = true → s.ps.selectedProtocol = .swd → addr.extractLsb' 0 2 = 0#2 →
    s.env = a :: rest → a.GivesWord s.cfg v p →
    ∃ q, swdEncRead s.cfg .dp addr = some q ∧
      exec (.dapRd .dp x addr) s = .next { s with
        eng := {
          phase := .idle
          attempt := 0
          txn := ⟨.dp, x, .read, addr, 0#32⟩
          followup := false
          ack := sampledAck s.cfg a.bits
          data := v
          par := p }
        buf := .empty
        env := rest
        wire := s.wire ++ [.swdIo q.io q.dir]
        resp := some (if swdPar32 v = p then .ok (.word v)
          else .err .incorrectParity ⟨some 0x0#4, some ⟨.dp, x, addr, .main⟩⟩) }

/-- An Access Port read whose two frames are acknowledged `Ok` at once: the value and the parity are those of the RDBUFF
read, whatever the first response carried; an error is reported at stage `FollowUp` (R176, R190; the index the latch
keeps is the model's, log 16). -/
def Obligations.AccessPortReadFetchesReadBuffer : Prop :=
  ∀ (s : State) (x : Nat) (addr : BitVec 4) (v : Word) (p : Bool) (a b : Answer) (rest : List Answer),
    s.cfg.wf = true → s.ps.selectedProtocol = .swd → addr.extractLsb' 0 2 = 0#2 →
    s.env = a :: b :: rest → a.Gives s.cfg .ok → b.GivesWord s.cfg v p →
    ∃ q r, swdEncRead s.cfg .ap addr = some q ∧ swdEncRead s.cfg .dp s.cfg.addrRdbuff = some r ∧
      exec (.dapRd .ap x addr) s = .next { s with
        eng := {
          phase := .idle
          attempt := 0
          txn := ⟨.dp, x, .read, s.cfg.addrRdbuff, 0#32⟩
          followup := true
          ack := sampledAck s.cfg b.bits
          data := v
          par := p }
        buf := .empty
        env := rest
        wire := s.wire ++ [.swdIo q.io q.dir, .swdIo r.io r.dir]
        resp := some (if swdPar32 v = p then .ok (.word v)
          else .err .incorrectParity ⟨some 0x0#4, some ⟨.ap, x, addr, .followUp⟩⟩) }

/-- The pseudo-instructions are their commands, with the default register offsets (R84). -/
def Obligations.PseudoInstructionsAbbreviate : Prop :=
  ∀ s : State, s.cfg = .default →
    exec .rdDpidr s = exec (.dapRd .dp 0 0x0#4) s ∧
    (∀ v, exec (.wrAbort v) s = exec (.dapWr .dp 0 0x0#4 v) s) ∧
    exec .rdCtrlstat s = exec (.dapRd .dp 0 0x4#4) s ∧
    (∀ v, exec (.wrCtrlstat v) s = exec (.dapWr .dp 0 0x4#4 v) s) ∧
    exec .rdRdbuff s = exec (.dapRd .dp 0 0xC#4) s ∧
    exec .clrOrun s = exec (.dapWr .dp 0 0x0#4 0x00000010#32) s ∧
    exec .clrStkerr s = exec (.dapWr .dp 0 0x0#4 0x00000004#32) s

/-- Each pseudo-instruction completes: in `Swd`, its frame acknowledged `Ok` with right parity, it makes one call and
gives the word read, or nothing for a write (R84, R183, R184). -/
def Obligations.PseudoInstructionsComplete : Prop :=
  ∀ (s : State) (v w : Word) (a : Answer) (rest : List Answer),
    s.cfg.wf = true → s.ps.selectedProtocol = .swd → s.env = a :: rest → a.GivesWord s.cfg w (swdPar32 w) →
    (∀ row ∈ [(Instr.rdDpidr, s.cfg.addrDpidr), (.rdCtrlstat, s.cfg.addrCtrlstat), (.rdRdbuff, s.cfg.addrRdbuff)],
      ∃ q t, swdEncRead s.cfg .dp row.2 = some q ∧ exec row.1 s = .next t ∧ t.resp = some (.ok (.word w)) ∧
        t.wire = s.wire ++ [.swdIo q.io q.dir] ∧ t.env = rest ∧ t.ps = s.ps) ∧
    ∀ row ∈ [(Instr.wrAbort v, s.cfg.addrAbort, v), (.wrCtrlstat v, s.cfg.addrCtrlstat, v),
        (.clrOrun, s.cfg.addrAbort, 0x00000010#32), (.clrStkerr, s.cfg.addrAbort, 0x00000004#32)],
      ∃ q t, swdEncWrite s.cfg .dp row.2.1 row.2.2 s.cfg.engineWriteIdle = some q ∧ exec row.1 s = .next t ∧
        t.resp = some (.ok .unit) ∧ t.wire = s.wire ++ [.swdIo q.io q.dir] ∧ t.env = rest ∧ t.ps = s.ps

/-- After at most four attempts of the classes `Wait`, `NoAck` and `Fault`, each recovered by its own action, an
acknowledgement `Ok` ends a write with success, and a Debug Port read with its value or, where the parity is wrong, with
`IncorrectParity`, never retried: the trace is the request and the recovery frames of each attempt, in order, and the
request once more (R173, R175, R177, R178, R179, R180). -/
def Obligations.RecoveredAttemptsThenOk : Prop :=
  ∀ (s : State) (x : Nat) (addr : BitVec 4) (as : List Attempt) (a : Answer) (rest : List Answer),
    s.cfg.wf = true → s.ps.selectedProtocol = .swd → addr.extractLsb' 0 2 = 0#2 →
    as.length ≤ 4 → (∀ k ∈ as, k.Valid s.cfg) → s.env = as.flatMap Attempt.answers ++ a :: rest →
    (∀ port v, a.Gives s.cfg .ok →
      ∃ q t, swdEncWrite s.cfg port addr v s.cfg.engineWriteIdle = some q ∧
        exec (.dapWr port x addr v) s = .next t ∧ t.resp = some (.ok .unit) ∧ t.env = rest ∧ t.ps = s.ps ∧
        t.wire = s.wire ++ framesToCalls (as.flatMap (Attempt.frames s.cfg q)) ++ [.swdIo q.io q.dir]) ∧
    ∀ v p, a.GivesWord s.cfg v p →
      ∃ q t, swdEncRead s.cfg .dp addr = some q ∧
        exec (.dapRd .dp x addr) s = .next t ∧
        t.resp = some (if swdPar32 v = p then .ok (.word v)
          else .err .incorrectParity ⟨some 0x0#4, some ⟨.dp, x, addr, .main⟩⟩) ∧ t.env = rest ∧ t.ps = s.ps ∧
        t.wire = s.wire ++ framesToCalls (as.flatMap (Attempt.frames s.cfg q)) ++ [.swdIo q.io q.dir]

/-- An Access Port read has two attempt loops with counts of their own: up to four recovered attempts before its own
request is acknowledged, and up to four more before the RDBUFF read is; five failed ones there end in `Timeout` at stage
`FollowUp`; the Access Port request is not repeated after it has been acknowledged (R176, R190). -/
def Obligations.FollowUpHasAttemptsOfItsOwn : Prop :=
  ∀ (s : State) (x : Nat) (addr : BitVec 4) (as bs : List Attempt) (a : Answer) (rest : List Answer),
    s.cfg.wf = true → s.ps.selectedProtocol = .swd → addr.extractLsb' 0 2 = 0#2 →
    as.length ≤ 4 → (∀ k ∈ as ++ bs, k.Valid s.cfg) → a.Gives s.cfg .ok →
    (∀ (b : Answer) (v : Word) (p : Bool), bs.length ≤ 4 → b.GivesWord s.cfg v p →
      s.env = as.flatMap Attempt.answers ++ a :: (bs.flatMap Attempt.answers ++ b :: rest) →
      ∃ q r t, swdEncRead s.cfg .ap addr = some q ∧ swdEncRead s.cfg .dp s.cfg.addrRdbuff = some r ∧
        exec (.dapRd .ap x addr) s = .next t ∧
        t.resp = some (if swdPar32 v = p then .ok (.word v)
          else .err .incorrectParity ⟨some 0x0#4, some ⟨.ap, x, addr, .followUp⟩⟩) ∧ t.env = rest ∧ t.ps = s.ps ∧
        t.wire = s.wire ++ framesToCalls (as.flatMap (Attempt.frames s.cfg q)) ++ [.swdIo q.io q.dir] ++
          framesToCalls (bs.flatMap (Attempt.frames s.cfg r)) ++ [.swdIo r.io r.dir]) ∧
    (bs.length = 5 → s.cfg.recoverOnLastAttempt = true →
      s.env = as.flatMap Attempt.answers ++ a :: (bs.flatMap Attempt.answers ++ rest) →
      ∃ q r t, swdEncRead s.cfg .ap addr = some q ∧ swdEncRead s.cfg .dp s.cfg.addrRdbuff = some r ∧
        exec (.dapRd .ap x addr) s = .next t ∧
        t.resp = some (.err .timeout ⟨some 0x0#4, some ⟨.ap, x, addr, .followUp⟩⟩) ∧ t.env = rest ∧ t.ps = s.ps ∧
        t.wire = s.wire ++ framesToCalls (as.flatMap (Attempt.frames s.cfg q)) ++ [.swdIo q.io q.dir] ++
          framesToCalls (bs.flatMap (Attempt.frames s.cfg r)))

/-- Five attempts of the failing classes end in `Timeout` and there is no sixth request, whatever the mixture of
classes; with `RECOVER_ON_LAST_ATTEMPT` false the fifth attempt is followed by no recovery (R181, R182, R243). -/
def Obligations.FiveFailedAttemptsTimeOut : Prop :=
  ∀ (s : State) (port : Port) (x : Nat) (addr : BitVec 4) (v : Word) (as : List Attempt) (rest : List Answer),
    s.cfg.wf = true → s.ps.selectedProtocol = .swd → addr.extractLsb' 0 2 = 0#2 → (∀ k ∈ as, k.Valid s.cfg) →
    (s.cfg.recoverOnLastAttempt = true → as.length = 5 → s.env = as.flatMap Attempt.answers ++ rest →
      (∃ q t, swdEncWrite s.cfg port addr v s.cfg.engineWriteIdle = some q ∧
        exec (.dapWr port x addr v) s = .next t ∧
        t.resp = some (.err .timeout ⟨some 0x1#4, some ⟨port, x, addr, .main⟩⟩) ∧ t.env = rest ∧ t.ps = s.ps ∧
        t.wire = s.wire ++ framesToCalls (as.flatMap (Attempt.frames s.cfg q))) ∧
      ∃ q t, swdEncRead s.cfg port addr = some q ∧
        exec (.dapRd port x addr) s = .next t ∧
        t.resp = some (.err .timeout ⟨some 0x0#4, some ⟨port, x, addr, .main⟩⟩) ∧ t.env = rest ∧ t.ps = s.ps ∧
        t.wire = s.wire ++ framesToCalls (as.flatMap (Attempt.frames s.cfg q))) ∧
    (s.cfg.recoverOnLastAttempt = false → as.length = 4 →
      ∀ (a : Answer) (k : AckClass), k ≠ .ok → a.Gives s.cfg k →
        s.env = as.flatMap Attempt.answers ++ a :: rest →
        (∃ q t, swdEncWrite s.cfg port addr v s.cfg.engineWriteIdle = some q ∧
          exec (.dapWr port x addr v) s = .next t ∧
          t.resp = some (.err .timeout ⟨some 0x1#4, some ⟨port, x, addr, .main⟩⟩) ∧ t.env = rest ∧ t.ps = s.ps ∧
          t.wire = s.wire ++ framesToCalls (as.flatMap (Attempt.frames s.cfg q)) ++ [.swdIo q.io q.dir]) ∧
        ∃ q t, swdEncRead s.cfg port addr = some q ∧
          exec (.dapRd port x addr) s = .next t ∧
          t.resp = some (.err .timeout ⟨some 0x0#4, some ⟨port, x, addr, .main⟩⟩) ∧ t.env = rest ∧ t.ps = s.ps ∧
          t.wire = s.wire ++ framesToCalls (as.flatMap (Attempt.frames s.cfg q)) ++ [.swdIo q.io q.dir])

/-- A `Fault` on any attempt whose CTRL/STAT read cannot be acted on ends the operation at once: `FaultResponse` where
that read is not acknowledged `Ok` or shows neither sticky flag, `IncorrectParity` where its parity is wrong; the
CTRL/STAT read is the last frame (R179, R180, R247, R249). So on any attempt of the RDBUFF read of an Access Port read,
where the error is reported at stage `FollowUp` (R176, R190). -/
def Obligations.UnrecoverableFaultEndsTheOperation : Prop :=
  ∀ (s : State) (x : Nat) (addr : BitVec 4) (as : List Attempt) (rest : List Answer) (kind : ErrKind),
    s.cfg.wf = true → s.ps.selectedProtocol = .swd → addr.extractLsb' 0 2 = 0#2 → (∀ k ∈ as, k.Valid s.cfg) →
    ∃ c, swdEncRead s.cfg .dp s.cfg.addrCtrlstat = some c ∧
      (∀ (port : Port) (v : Word) (a cs : Answer),
        (as.length < 4 ∨ as.length = 4 ∧ s.cfg.recoverOnLastAttempt = true) →
        s.env = as.flatMap Attempt.answers ++ a :: cs :: rest → a.Gives s.cfg .fault → cs.Unrecoverable s.cfg kind →
        (∃ q t, swdEncWrite s.cfg port addr v s.cfg.engineWriteIdle = some q ∧
          exec (.dapWr port x addr v) s = .next t ∧
          t.resp = some (.err kind ⟨some 0x1#4, some ⟨port, x, addr, .main⟩⟩) ∧ t.env = rest ∧ t.ps = s.ps ∧
          t.wire = s.wire ++ framesToCalls (as.flatMap (Attempt.frames s.cfg q)) ++
            [.swdIo q.io q.dir, .swdIo c.io c.dir]) ∧
        ∃ q t, swdEncRead s.cfg port addr = some q ∧
          exec (.dapRd port x addr) s = .next t ∧
          t.resp = some (.err kind ⟨some 0x0#4, some ⟨port, x, addr, .main⟩⟩) ∧ t.env = rest ∧ t.ps = s.ps ∧
          t.wire = s.wire ++ framesToCalls (as.flatMap (Attempt.frames s.cfg q)) ++
            [.swdIo q.io q.dir, .swdIo c.io c.dir]) ∧
      ∀ (a : Answer) (bs : List Attempt) (b cs : Answer),
        as.length ≤ 4 → a.Gives s.cfg .ok → (∀ k ∈ bs, k.Valid s.cfg) →
        (bs.length < 4 ∨ bs.length = 4 ∧ s.cfg.recoverOnLastAttempt = true) →
        s.env = as.flatMap Attempt.answers ++ a :: (bs.flatMap Attempt.answers ++ b :: cs :: rest) →
        b.Gives s.cfg .fault → cs.Unrecoverable s.cfg kind →
        ∃ q r t, swdEncRead s.cfg .ap addr = some q ∧ swdEncRead s.cfg .dp s.cfg.addrRdbuff = some r ∧
          exec (.dapRd .ap x addr) s = .next t ∧
          t.resp = some (.err kind ⟨some 0x0#4, some ⟨.ap, x, addr, .followUp⟩⟩) ∧ t.env = rest ∧ t.ps = s.ps ∧
          t.wire = s.wire ++ framesToCalls (as.flatMap (Attempt.frames s.cfg q)) ++ [.swdIo q.io q.dir] ++
            framesToCalls (bs.flatMap (Attempt.frames s.cfg r)) ++ [.swdIo r.io r.dir, .swdIo c.io c.dir]

/-- The three ABORT words of the engine and their parities (R103); which bit of a CTRL/STAT word is which sticky flag
(R35); and which sticky flag asks for which bit of the word: the recovery of class `Fault` reads CTRL/STAT and, where a
flag is set, writes to ABORT the word of the two flags it has read (R34, R179). -/
def Obligations.AbortWords : Prop :=
  abortWord .default true false = 0x00000010#32 ∧ abortWord .default false true = 0x00000004#32 ∧
  abortWord .default true true = 0x00000014#32 ∧
  swdPar32 (abortWord .default true false) = true ∧ swdPar32 (abortWord .default false true) = true ∧
  swdPar32 (abortWord .default true true) = false ∧
  (∀ w : Word, stickyOrun .default w = w.getLsbD 1 ∧ stickyErr .default w = w.getLsbD 5) ∧
  (∀ (c : Config) (w : Word),
    stickyOrun c w = w.getLsbD c.bitStickyorun ∧ stickyErr c w = w.getLsbD c.bitStickyerr) ∧
  (∀ (c : Config) (orun serr : Bool), c.wf = true → c.bitOrunerrclr ≠ c.bitStkerrclr →
    (abortWord c orun serr).getLsbD c.bitOrunerrclr = orun ∧ (abortWord c orun serr).getLsbD c.bitStkerrclr = serr ∧
    ∀ i, i < 32 → i ≠ c.bitOrunerrclr → i ≠ c.bitStkerrclr → (abortWord c orun serr).getLsbD i = false) ∧
  ∀ (s : State) (cs b : Answer) (rest : List Answer) (w : Word),
    s.cfg.wf = true → s.env = cs :: b :: rest → cs.GivesWord s.cfg w (swdPar32 w) →
    (stickyOrun s.cfg w = true ∨ stickyErr s.cfg w = true) →
    ∃ c q t, swdEncRead s.cfg .dp s.cfg.addrCtrlstat = some c ∧
      swdEncWrite s.cfg .dp s.cfg.addrAbort (abortWord s.cfg (stickyOrun s.cfg w) (stickyErr s.cfg w))
        s.cfg.engineWriteIdle = some q ∧
      recoverFault s = (if b.failed then .error (.raise .probeSpecific) else .ok (), t) ∧
      t.wire = s.wire ++ [.swdIo c.io c.dir, .swdIo q.io q.dir] ∧ t.env = rest ∧ t.ps = s.ps

/-- Every call of an engine command is a request frame of its Transaction, a request frame of the RDBUFF read of an
Access Port read, a line reset, a CTRL/STAT read, or an ABORT write with one of the engine's words (R33, R103, R170). -/
def Obligations.EngineSendsOnlyItsFrames : Prop :=
  ∀ (i : Instr) (s : State) (t : Txn), i.txn? s.cfg = some t →
    ∃ u calls, exec i s = .next u ∧ u.wire = s.wire ++ calls ∧ ∀ k ∈ calls, EngineCall s.cfg t k

/-- The bounds on the calls of an engine operation: at least one; at most 15, or 28 for an Access Port read, and with
`RECOVER_ON_LAST_ATTEMPT` false 13 and 26; a successful Access Port read makes at least two (R187). -/
def Obligations.CallBounds : Prop :=
  ∀ (i : Instr) (s : State) (t : Txn), s.cfg.wf = true → s.ps.selectedProtocol = .swd →
    i.txn? s.cfg = some t → t.addr.extractLsb' 0 2 = 0#2 →
    ∃ u calls, exec i s = .next u ∧ u.wire = s.wire ++ calls ∧ 1 ≤ calls.length ∧
      calls.length ≤ (if t.dir = .read ∧ t.port = .ap then (if s.cfg.recoverOnLastAttempt then 28 else 26)
        else if s.cfg.recoverOnLastAttempt then 15 else 13) ∧
      (t.dir = .read → t.port = .ap → (∃ v, u.resp = some (.ok v)) → 2 ≤ calls.length)

/-- The phase machine of R172, run from `Request`, comes to the result and the state of the loop of R173, within 31
transitions. -/
def Obligations.PhasesAgreeWithLoop : Prop :=
  ∀ (t : Txn) (s : State) (n : Nat), 31 ≤ n → runPhases n (startPhases t s) = some (dapAccess t s)

/-- Every transition of a running operation is a row of the table of R172, for a Transaction inside the contract (an
aligned offset, R57); and it stays inside it, in the same configuration. -/
def Obligations.PhaseTransitionsAreTheTable : Prop :=
  ∀ s : State, s.cfg.wf = true → s.eng.txn.addr.extractLsb' 0 2 = 0#2 → s.eng.phase.running = true →
    phaseEdge s.eng.phase (phaseStep s).state.eng.phase = true ∧
    (phaseStep s).state.eng.txn.addr.extractLsb' 0 2 = 0#2 ∧ (phaseStep s).state.cfg = s.cfg

/-- A failed transport call is the last of its command and its outcome is `ProbeSpecific`; that outcome comes from
nothing else (R186, R245). -/
def Obligations.TransportFailureEndsTheCommand : Prop :=
  ∀ (i : Instr) (s : State), ∃ t calls, exec i s = .next t ∧ t.wire = s.wire ++ calls ∧
    t.env = s.env.drop calls.length ∧
    (∀ j a, j < calls.length → s.env[j]? = some a → a.failed = true →
      j + 1 = calls.length ∧ ∃ info, t.resp = some (.err .probeSpecific info)) ∧
    ((∃ info, t.resp = some (.err .probeSpecific info)) →
      calls ≠ [] ∧ ∀ a, s.env[calls.length - 1]? = some a → a.failed = true)

/-- Each error kind is raised by the commands of the table of R240 and by no other. -/
def Obligations.KindsAreRaisedByTheirCommands : Prop :=
  ∀ (i : Instr) (s t : State) (k : ErrKind) (info : Info), exec i s = .next t → t.resp = some (.err k info) →
    mayRaise i k = true

/-- For every command and every environment the outcome is neither `WaitResponse` nor `NoAcknowledge` (R260). -/
def Obligations.WaitAndNoAckNeverSurface : Prop :=
  ∀ (i : Instr) (s t : State) (r : Response), exec i s = .next t → t.resp = some r →
    ¬ (r.errCode = some 5#3 ∧ (r.subCode = some 1#3 ∨ r.subCode = some 3#3))

/-- An error names its command and, for an engine command, the operands of the host's command and the stage; the stage
`FollowUp` only for an Access Port read (R190, R258). -/
def Obligations.ErrorsNameTheirCommand : Prop :=
  ∀ (i : Instr) (s t : State) (k : ErrKind) (info : Info), exec i s = .next t → t.resp = some (.err k info) →
    i.opcode = info.op ∧
    (∀ d, info.dap = some d → i.dapTarget s.cfg = some (d.port, d.apidx, d.addr) ∧
      (d.stage = .followUp → d.port = .ap ∧ info.op = some 0x0#4)) ∧
    (info.dap = none ↔ i.dapTarget s.cfg = none)

/-- The codes of the error kinds (R101, R259) and of the three outcomes (R100). -/
def Obligations.ResponseCodes : Prop :=
  (∀ row ∈ [(ErrKind.unsupportedProtocol, 1#3, 0#3), (.unsupportedSpeed, 2#3, 0#3), (.timeout, 3#3, 0#3),
      (.notImplemented, 4#3, 0#3), (.probeSpecific, 5#3, 0#3), (.waitResponse, 5#3, 1#3), (.faultResponse, 5#3, 2#3),
      (.noAcknowledge, 5#3, 3#3), (.incorrectParity, 5#3, 4#3)],
    row.1.code = row.2.1 ∧ row.1.sub = row.2.2) ∧
  (∀ k j : ErrKind, k.code = j.code → k.sub = j.sub → k = j) ∧
  (∀ v, Response.status (.ok v) = 0#2) ∧ (∀ k info, Response.status (.err k info) = 1#2) ∧
  Response.status .assert = 2#2 ∧ ∀ r : Response, r.status ≠ 3#2

/-! ### Who changes what -/

/-- `DAP.RD` and `DAP.WR` never change a probe-state register, whatever their outcome; the other changes come from the
commands of 43_probe_state.md alone (R25). -/
def Obligations.ProbeStateChangesOnlyByItsCommands : Prop :=
  ∀ (i : Instr) (s t : State), exec i s = .next t → t.ps ≠ s.ps →
    (∃ p, i = .protoSel p) ∨ (∃ k, i = .speedSet k) ∨ (∃ n, i = .jidleSet n) ∨ i = .rstAssert ∨ i = .rstDeassert ∨
    i = .attach ∨ (∃ v l, i = .jtagWir v l) ∨ (∃ v l n, i = .jtagRd v l n) ∨ ∃ v l n d, i = .jtagWr v l n d

/-- Each of the four probe-state registers is written by its own commands alone (R21, R22, R23; the instruction-register
cache by the commands of R24 and R224), the engine latches by the engine commands alone (R28, R29, R30). -/
def Obligations.EachRegisterHasItsWriter : Prop :=
  ∀ (i : Instr) (s t : State), exec i s = .next t →
    (t.ps.selectedProtocol ≠ s.ps.selectedProtocol → i = .protoSel t.ps.selectedProtocol) ∧
    (t.ps.speedKhz ≠ s.ps.speedKhz → ∃ k, i = .speedSet k ∧ speedAccept s.cfg k = some t.ps.speedKhz) ∧
    (t.ps.jtagIdleCycles ≠ s.ps.jtagIdleCycles → i = .jidleSet t.ps.jtagIdleCycles) ∧
    (t.ps.currentIrRegister ≠ s.ps.currentIrRegister →
      (∃ p, i = .protoSel p) ∨ i = .rstAssert ∨ i = .rstDeassert ∨ i = .attach ∨ (∃ v l, i = .jtagWir v l) ∨
      (∃ v l n, i = .jtagRd v l n) ∨ ∃ v l n d, i = .jtagWr v l n d) ∧
    (t.eng ≠ s.eng → ∃ x, i.txn? s.cfg = some x)

/-- The instruction-register cache: the events that set it to `NONE`, and that only a completed instruction-register
write sets it to a value (R224). -/
def Obligations.CacheRule : Prop :=
  (∀ c : Config, (State.resetWith c).ps.currentIrRegister = none) ∧
  ∀ (i : Instr) (s t : State), exec i s = .next t →
    (∀ p, i = .protoSel p → supports s.cfg p = true → t.ps.currentIrRegister = none) ∧
    (i = .rstAssert ∨ i = .rstDeassert ∨ i = .attach → t.ps.currentIrRegister = none) ∧
    ((∃ v l, i = .jtagWir v l) ∨ (∃ v l n, i = .jtagRd v l n) ∨ (∃ v l n d, i = .jtagWr v l n d) →
      (∃ info, t.resp = some (.err .probeSpecific info)) → t.ps.currentIrRegister = none) ∧
    (∀ v, t.ps.currentIrRegister = some v → s.ps.currentIrRegister ≠ some v →
      ∃ len rest, t.wire = s.wire ++ (irFrame v len).call :: rest ∧ (∃ r, t.resp = some (.ok r)) ∧
        (i = .jtagWir v len ∨ (∃ n, i = .jtagRd v len n) ∨ ∃ n d, i = .jtagWr v len n d)) ∧
    (t.ps.currentIrRegister = none → s.ps.currentIrRegister ≠ none →
      (∃ p, i = .protoSel p) ∨ i = .rstAssert ∨ i = .rstDeassert ∨ i = .attach ∨
      (∃ info, t.resp = some (.err .probeSpecific info)) ∧
        ((∃ v l, i = .jtagWir v l) ∨ (∃ v l n, i = .jtagRd v l n) ∨ ∃ v l n d, i = .jtagWr v l n d))

/-- Every instruction ends with an outcome on the response port, in `Idle` with the count 0 where it started so (R31, R254,
R257); that an outcome `Assert` is a next state is log 1, that a codec function leaves its outcome on the response port is
log 13. None changes the configuration (R42) or what the host has still to present. The trace only grows, by one call for
each answer used up, and every call is made with two vectors of one length (R93). -/
def Obligations.EveryInstructionEndsWithAnOutcome : Prop :=
  ∀ (i : Instr) (s : State), ∃ t r calls, exec i s = .next t ∧ t.resp = some r ∧
    (s.eng.phase = .idle → t.eng.phase = .idle) ∧ (s.eng.attempt = 0 → t.eng.attempt = 0) ∧
    t.cfg = s.cfg ∧ t.host = s.host ∧
    t.wire = s.wire ++ calls ∧ t.env = s.env.drop calls.length ∧ ∀ k ∈ calls, k.sameLength = true

/-- Two runs of one instruction from the same probe state with the same answers make the same calls and come to the same
outcome and the same probe state, whatever the engine latches held (R69, R28 to R31) and whatever the two traces so far
are, where the script lists a whole answer to every call the first run makes. Where it does not, the model numbers the
free answers by the length of the trace (logs 2, 15), and the two traces are to have one length. -/
def Obligations.SameAnswersSameTrace : Prop :=
  ∀ (i : Instr) (s u : State), s.cfg = u.cfg → s.ps = u.ps → s.env = u.env →
    (s.wire.length = u.wire.length ∨
      ∃ t calls, exec i s = .next t ∧ t.wire = s.wire ++ calls ∧ Scripted s.env calls) →
    ∃ t w calls, exec i s = .next t ∧ exec i u = .next w ∧ t.wire = s.wire ++ calls ∧ w.wire = u.wire ++ calls ∧
      t.resp = w.resp ∧ t.ps = w.ps ∧ t.env = w.env

/-- The Access Port index has no effect on any bit the block sends: two indices give the same calls, the same probe state
and the same outcome but for the index an error names (R52). -/
def Obligations.AccessPortIndexIsNeverSent : Prop :=
  ∀ (s : State) (port : Port) (x y : Nat) (addr : BitVec 4) (v : Word) (i j : Instr),
    (i = .dapRd port x addr ∧ j = .dapRd port y addr ∨ i = .dapWr port x addr v ∧ j = .dapWr port y addr v) →
    ∃ t u, exec i s = .next t ∧ exec j s = .next u ∧ t.wire = u.wire ∧ t.env = u.env ∧ t.ps = u.ps ∧
      (t.resp = u.resp ∨ ∃ k op stage, t.resp = some (.err k ⟨op, some ⟨port, x, addr, stage⟩⟩) ∧
        u.resp = some (.err k ⟨op, some ⟨port, y, addr, stage⟩⟩))

/-! ### JTAG commands -/

/-- `JTAG.WIR` in `Jtag`: always the instruction-register frame, then the idle frame where the count is not 0; the cache
holds the value (R218, R221, R222). -/
def Obligations.WriteInstructionRegister : Prop :=
  ∀ (s : State) (v : BitVec 8) (len : Nat) (script rest : List Answer),
    s.ps.selectedProtocol = .jtag → 1 ≤ len → len ≤ 8 → v.toNat < 2 ^ len →
    s.env = script ++ rest → AllAnswered script ((irFrame v len).call :: idleCalls s.ps.jtagIdleCycles) →
    exec (.jtagWir v len) s = .next { s with
      ps := { s.ps with currentIrRegister := some v }
      buf := .empty
      env := rest
      wire := s.wire ++ (irFrame v len).call :: idleCalls s.ps.jtagIdleCycles
      resp := some (.ok .unit) }

/-- `JTAG.RD` and `JTAG.WR` in `Jtag`: the instruction-register part only where the cache does not hold the value, then
the data-register frame with the data (zeros for a read) and its idle frame; the result is the register captured
(R219, R220, R221, R226). -/
def Obligations.DataRegisterAccess : Prop :=
  ∀ (s : State) (v : BitVec 8) (len n : Nat) (data : List Byte) (pre post rest : List Answer) (d : Answer) (i : Instr),
    s.ps.selectedProtocol = .jtag → 1 ≤ len → len ≤ 8 → v.toNat < 2 ^ len → 1 ≤ n →
    (∀ m, s.cfg.maxDrBits = some m → n ≤ m) →
    (i = .jtagRd v len n ∧ data = List.replicate ((n + 7) / 8) 0#8 ∨
      i = .jtagWr v len n data ∧ data.length = (n + 7) / 8) →
    s.env = pre ++ d :: (post ++ rest) →
    AllAnswered pre (irCalls s.ps.currentIrRegister s.ps.jtagIdleCycles v len) →
    d.failed = false → n + 5 ≤ d.bits.length → AllAnswered post (idleCalls s.ps.jtagIdleCycles) →
    ∃ q, jtagEncDr s.cfg data n = some q ∧
      exec i s = .next { s with
        ps := { s.ps with currentIrRegister := some v }
        buf := .empty
        env := rest
        wire := s.wire ++ irCalls s.ps.currentIrRegister s.ps.jtagIdleCycles v len ++ q.call ::
          idleCalls s.ps.jtagIdleCycles
        resp := some (.ok (.bytes (packBits ((List.range n).map fun k => d.bits.getD (3 + k) false)))) }

/-- `JTAG.RD` is `JTAG.WR` with all-zero data: the same calls, the same probe state, the same result, and the same errors
but for the opcode they name, in every state (R220). -/
def Obligations.ReadIsWriteOfZeros : Prop :=
  ∀ (s : State) (v : BitVec 8) (len n : Nat),
    ∃ t u, exec (.jtagRd v len n) s = .next t ∧ exec (.jtagWr v len n (List.replicate ((n + 7) / 8) 0#8)) s = .next u ∧
      u = { t with resp := u.resp } ∧
      (t.resp = u.resp ∨ ∃ k, t.resp = some (.err k ⟨some 0xC#4, none⟩) ∧ u.resp = some (.err k ⟨some 0xD#4, none⟩))

/-! ### Invariants and reset -/

/-- Every step keeps the invariant of states between commands: `Idle` with the count 0, empty buffers, no cached value
in `Swd` (R224), registers within the widths of R4 (R22, R23, R28), and only legal calls made (R31, R32, R104, R253). -/
def Obligations.StepKeepsTheInvariant : Prop :=
  ∀ s t : State, s.Inv → step s = .next t → t.Inv

/-- The invariant holds after reset, in every configuration that meets the constraints of R4. -/
def Obligations.ResetMeetsTheInvariant : Prop :=
  ∀ c : Config, c.wf = true → (State.resetWith c).Inv

/-- The reset of the block gives every register its value of R40, makes no transport call and leaves the parameters
(R270, R271, R42), from any state; the registers R40 leaves unspecified are those of log 4. A step that takes the reset
comes to that state, and the state after power-on is the one a reset gives. -/
def Obligations.ResetValues : Prop :=
  (∀ (s : State) (rest : List Input), s.host = .reset :: rest →
    ∃ t, step s = .next t ∧ t.ps = ⟨s.cfg.resetProtocol, s.cfg.resetSpeedKhz, 0, none⟩ ∧
      t.eng.phase = .idle ∧ t.eng.attempt = 0 ∧ t.eng.followup = false ∧ t.buf = ⟨[], [], none⟩ ∧
      t.wire = s.wire ∧ t.env = s.env ∧ t.cfg = s.cfg ∧ t.host = rest) ∧
  ∀ c : Config, (State.resetWith c).blockReset = State.resetWith c
end

