-- ==== Sys2Proof/Laws/Bits.lean ====
section
/-! SUPPORT. What the bit-vector functions do: lengths, single bits, and that reading a number back from its bits
gives the number. -/

namespace Sys2Proof.Machine

@[simp] theorem length_bitsLsb (x n : Nat) : (bitsLsb x n).length = n := by simp [bitsLsb]

@[simp] theorem length_rep (b : Bool) (n : Nat) : (rep b n).length = n := by simp [rep]

@[simp] theorem getElem?_bitsLsb (x n i : Nat) :
    (bitsLsb x n)[i]? = if i < n then some (x.testBit i) else none := by
  by_cases h : i < n <;> simp [bitsLsb, h]

@[simp] theorem getElem_bitsLsb (x n i : Nat) (h : i < (bitsLsb x n).length) :
    (bitsLsb x n)[i] = x.testBit i := by simp [bitsLsb]

@[simp] theorem getElem?_rep (b : Bool) (n i : Nat) : (rep b n)[i]? = if i < n then some b else none := by
  by_cases h : i < n <;> simp [rep, h]

theorem length_slice (v : Bits) (i n : Nat) : (slice v i n).length = min n (v.length - i) := by simp [slice]

theorem getElem?_slice (v : Bits) (i n k : Nat) : (slice v i n)[k]? = if k < n then v[i + k]? else none := by
  by_cases h : k < n <;> simp [slice, h]

/-- A field of a vector that is written as a concatenation. -/
theorem slice_append (a b c : Bits) : slice (a ++ (b ++ c)) a.length b.length = b := by simp [slice]

theorem numLsb_lt (w : Bits) : numLsb w < 2 ^ w.length := by
  induction w with
  | nil => simp [numLsb]
  | cons b w ih =>
    simp only [numLsb, List.length_cons, Nat.pow_succ]
    cases b <;> simp <;> omega

/-- Bit `i` of the number is element `i` of the vector. -/
theorem testBit_numLsb (w : Bits) (i : Nat) : (numLsb w).testBit i = w.getD i false := by
  induction w generalizing i with
  | nil => simp [numLsb]
  | cons b w ih =>
    cases i with
    | zero => cases b <;> simp [numLsb, Nat.testBit_zero]
    | succ i =>
      rw [Nat.testBit_succ]
      have : numLsb (b :: w) / 2 = numLsb w := by
        cases b
        · simp [numLsb]
        · simp [numLsb]; omega
      rw [this, ih]; simp

/-- Reading back the number whose bits a vector holds. -/
theorem numLsb_bitsLsb (x n : Nat) : numLsb (bitsLsb x n) = x % 2 ^ n := by
  apply Nat.eq_of_testBit_eq
  intro i
  rw [testBit_numLsb, Nat.testBit_mod_two_pow]
  by_cases h : i < n <;> simp [List.getD_eq_getElem?_getD, h]

/-- The word whose 32 bits a vector holds. -/
theorem ofNat_numLsb_bitsLsb (v : Word) : BitVec.ofNat 32 (numLsb (bitsLsb v.toNat Config.nData)) = v := by
  rw [numLsb_bitsLsb]
  have : v.toNat % 2 ^ Config.nData = v.toNat := Nat.mod_eq_of_lt v.isLt
  rw [this]; simp

theorem bitsLsb_numLsb (w : Bits) : bitsLsb (numLsb w) w.length = w := by
  apply List.ext_getElem?
  intro i
  by_cases h : i < w.length
  · have hb : (numLsb w).testBit i = w[i] := by rw [testBit_numLsb]; simp [h]
    simp [h, hb]
  · simp [h]

@[simp] theorem xorFold_append (a b : Bits) : xorFold (a ++ b) = xor (xorFold a) (xorFold b) := by
  induction a with
  | nil => simp [xorFold]
  | cons x a ih => simp [xorFold, ih]

/-- The fold is true exactly when an odd number of bits is. -/
theorem xorFold_eq_odd_count (w : Bits) : xorFold w = decide (w.count true % 2 = 1) := by
  induction w with
  | nil => rfl
  | cons b w ih =>
    rw [xorFold, ih]
    cases b
    · simp
    · rw [List.count_cons_self]
      rcases Nat.mod_two_eq_zero_or_one (w.count true) with h | h <;> simp [h, Nat.add_mod]

@[simp] theorem length_unpackAll (bytes : List Byte) (n : Nat) : (unpackAll bytes n).length = n := by
  simp [unpackAll]

@[simp] theorem length_packBits (w : Bits) : (packBits w).length = ceilDiv8 w.length := by simp [packBits]

/-! ### The frames in closed form -/

theorem rep_append_rep (b : Bool) (m n : Nat) : rep b m ++ rep b n = rep b (m + n) := by
  simp [rep, List.replicate_append_replicate]

theorem length_headerBits (p : Port) (d : Dir) (a : BitVec 4) : (headerBits p d a).length = Config.nHdr := rfl

/-- The read frame of R91 where the offset is aligned, and no frame where it is not. -/
theorem swdEncRead_eq (c : Config) (p : Port) (a : BitVec 4) :
    swdEncRead c p a =
      if offsetAligned a then some
        ⟨headerBits p .read a ++ rep false (c.nTrnAck + Config.nAck + Config.nData + 1 + Config.nTrnRd),
         rep true Config.nHdr ++ rep false (c.nTrnAck + Config.nAck + Config.nData + 1 + Config.nTrnRd)⟩
      else none := by
  unfold swdEncRead swdHdr
  cases offsetAligned a with
  | false => rfl
  | true =>
    have h : rep false c.nTrnAck ++ rep false Config.nAck ++ rep false Config.nData ++ rep false 1 ++
        rep false Config.nTrnRd = rep false (c.nTrnAck + Config.nAck + Config.nData + 1 + Config.nTrnRd) := by
      simp only [rep_append_rep]
    simp only [if_true, List.append_assoc] at h ⊢
    rw [h]
    simp [mkSeq, length_headerBits]

/-- The write frame of R90 where the offset is aligned and the idle count is large enough, and no frame otherwise. -/
theorem swdEncWrite_eq (c : Config) (p : Port) (a : BitVec 4) (v : Word) (n : Nat) :
    swdEncWrite c p a v n =
      if Config.minWriteIdle ≤ n ∧ offsetAligned a = true then some
        ⟨headerBits p .write a ++ rep false (c.nTrnAck + Config.nAck + Config.nTrnWr) ++
            bitsLsb v.toNat Config.nData ++ [swdPar32 v] ++ rep false n,
         rep true Config.nHdr ++ rep false (c.nTrnAck + Config.nAck + Config.nTrnWr) ++
            rep true (Config.nData + 1 + n)⟩
      else none := by
  unfold swdEncWrite swdHdr
  by_cases hn : Config.minWriteIdle ≤ n
  · cases offsetAligned a with
    | false => simp
    | true =>
      have h1 : rep false c.nTrnAck ++ (rep false Config.nAck ++ rep false Config.nTrnWr) =
          rep false (c.nTrnAck + Config.nAck + Config.nTrnWr) := by
        simp only [rep_append_rep, Nat.add_assoc]
      have h2 : rep true Config.nData ++ (rep true 1 ++ rep true n) = rep true (Config.nData + 1 + n) := by
        simp only [rep_append_rep, Nat.add_assoc]
      simp only [if_true, hn, List.append_assoc, and_self]
      rw [← h1, ← h2]
      simp only [List.append_assoc]
      unfold mkSeq
      rw [if_pos]
      simp [length_headerBits]
      omega
  · simp [hn]

/-- Parity of an exclusive or (R121). -/
theorem swdPar32_xor (a b : Word) : swdPar32 (a ^^^ b) = xor (swdPar32 a) (swdPar32 b) := by
  have key : ∀ (f g : Nat → Bool) (l : List Nat), xorFold (l.map fun i => xor (f i) (g i)) = xor (xorFold (l.map f)) (xorFold (l.map g)) := by
    intro f g l
    induction l with
    | nil => rfl
    | cons x l ih => simp only [List.map_cons, xorFold, ih]; cases f x <;> cases g x <;> simp
  have : bitsLsb (a ^^^ b).toNat Config.nData = (List.range Config.nData).map fun i => xor (a.toNat.testBit i) (b.toNat.testBit i) := by
    simp [bitsLsb]
  rw [swdPar32, this, key]; rfl

/-- Bit `k` of a packed vector (R154). -/
theorem packBits_getLsbD (w : Bits) (k : Nat) (h : k < 8 * (packBits w).length) :
    ((packBits w).getD (k / 8) 0#8).getLsbD (k % 8) = w.getD k false := by
  rw [length_packBits] at h
  have h1 : k / 8 < ceilDiv8 w.length := by omega
  have h2 : k % 8 < 8 := Nat.mod_lt _ (by decide)
  rw [List.getD_eq_getElem?_getD]
  simp only [packBits, List.getElem?_map, List.getElem?_range h1, Option.map_some, Option.getD_some]
  rw [BitVec.getLsbD_ofNat, testBit_numLsb, List.getD_eq_getElem?_getD, getElem?_slice]
  simp only [h2, decide_true, Bool.true_and, if_true]
  rw [List.getD_eq_getElem?_getD]
  congr 2
  omega

end Sys2Proof.Machine
end

