-- ==== Sys2Proof/Laws/State.lean ====
section
/-! SUPPORT. One lemma per field of a state per update of Machine/Ops.lean, so that no later proof unfolds a record
update; and the same for the sub-fields of the engine latches and of the probe state. -/

namespace Sys2Proof.Machine

@[simp] theorem State.present_cfg (s : State) (p : Presented) : (s.present p).cfg = s.cfg := rfl
@[simp] theorem State.present_ps (s : State) (p : Presented) : (s.present p).ps = s.ps := rfl
@[simp] theorem State.present_eng (s : State) (p : Presented) : (s.present p).eng = s.eng := rfl
@[simp] theorem State.present_buf (s : State) (p : Presented) : (s.present p).buf = s.buf := rfl
@[simp] theorem State.present_host (s : State) (p : Presented) : (s.present p).host = .port p :: s.host := rfl
@[simp] theorem State.present_env (s : State) (p : Presented) : (s.present p).env = s.env := rfl
@[simp] theorem State.present_wire (s : State) (p : Presented) : (s.present p).wire = s.wire := rfl
@[simp] theorem State.present_resp (s : State) (p : Presented) : (s.present p).resp = s.resp := rfl

@[simp] theorem State.called_cfg (s : State) (c : Call) : (s.called c).cfg = s.cfg := rfl
@[simp] theorem State.called_ps (s : State) (c : Call) : (s.called c).ps = s.ps := rfl
@[simp] theorem State.called_eng (s : State) (c : Call) : (s.called c).eng = s.eng := rfl
@[simp] theorem State.called_buf (s : State) (c : Call) : (s.called c).buf = s.buf := rfl
@[simp] theorem State.called_host (s : State) (c : Call) : (s.called c).host = s.host := rfl
@[simp] theorem State.called_env (s : State) (c : Call) : (s.called c).env = s.env.tail := rfl
@[simp] theorem State.called_wire (s : State) (c : Call) : (s.called c).wire = s.wire ++ [c] := rfl
@[simp] theorem State.called_resp (s : State) (c : Call) : (s.called c).resp = s.resp := rfl

@[simp] theorem State.release_cfg (s : State) : (s.release).cfg = s.cfg := rfl
@[simp] theorem State.release_ps (s : State) : (s.release).ps = s.ps := rfl
@[simp] theorem State.release_eng (s : State) : (s.release).eng = s.eng := rfl
@[simp] theorem State.release_buf (s : State) : (s.release).buf = Buffers.empty := rfl
@[simp] theorem State.release_host (s : State) : (s.release).host = s.host := rfl
@[simp] theorem State.release_env (s : State) : (s.release).env = s.env := rfl
@[simp] theorem State.release_wire (s : State) : (s.release).wire = s.wire := rfl
@[simp] theorem State.release_resp (s : State) : (s.release).resp = s.resp := rfl

@[simp] theorem State.swdIo_cfg (s : State) (q : Seq) : (s.swdIo q).cfg = s.cfg := rfl
@[simp] theorem State.swdIo_ps (s : State) (q : Seq) : (s.swdIo q).ps = s.ps := rfl
@[simp] theorem State.swdIo_eng (s : State) (q : Seq) : (s.swdIo q).eng = s.eng := rfl
@[simp] theorem State.swdIo_buf (s : State) (q : Seq) : (s.swdIo q).buf = ⟨q.io, q.dir, s.answer.sample s.wire.length q.io.length⟩ := rfl
@[simp] theorem State.swdIo_host (s : State) (q : Seq) : (s.swdIo q).host = s.host := rfl
@[simp] theorem State.swdIo_env (s : State) (q : Seq) : (s.swdIo q).env = s.env.tail := rfl
@[simp] theorem State.swdIo_wire (s : State) (q : Seq) : (s.swdIo q).wire = s.wire ++ [Call.swdIo q.io q.dir] := rfl
@[simp] theorem State.swdIo_resp (s : State) (q : Seq) : (s.swdIo q).resp = s.resp := rfl

@[simp] theorem State.jtagIo_cfg (s : State) (q : JSeq) : (s.jtagIo q).cfg = s.cfg := rfl
@[simp] theorem State.jtagIo_ps (s : State) (q : JSeq) : (s.jtagIo q).ps = s.ps := rfl
@[simp] theorem State.jtagIo_eng (s : State) (q : JSeq) : (s.jtagIo q).eng = s.eng := rfl
@[simp] theorem State.jtagIo_buf (s : State) (q : JSeq) : (s.jtagIo q).buf = ⟨q.tms, q.tdi, s.answer.sample s.wire.length q.tms.length⟩ := rfl
@[simp] theorem State.jtagIo_host (s : State) (q : JSeq) : (s.jtagIo q).host = s.host := rfl
@[simp] theorem State.jtagIo_env (s : State) (q : JSeq) : (s.jtagIo q).env = s.env.tail := rfl
@[simp] theorem State.jtagIo_wire (s : State) (q : JSeq) : (s.jtagIo q).wire = s.wire ++ [Call.jtagIo q.tms q.tdi] := rfl
@[simp] theorem State.jtagIo_resp (s : State) (q : JSeq) : (s.jtagIo q).resp = s.resp := rfl

@[simp] theorem State.setProtocol_cfg (s : State) (p : Protocol) : (s.setProtocol p).cfg = s.cfg := rfl
@[simp] theorem State.setProtocol_ps (s : State) (p : Protocol) : (s.setProtocol p).ps = { s.ps with selectedProtocol := p } := rfl
@[simp] theorem State.setProtocol_eng (s : State) (p : Protocol) : (s.setProtocol p).eng = s.eng := rfl
@[simp] theorem State.setProtocol_buf (s : State) (p : Protocol) : (s.setProtocol p).buf = s.buf := rfl
@[simp] theorem State.setProtocol_host (s : State) (p : Protocol) : (s.setProtocol p).host = s.host := rfl
@[simp] theorem State.setProtocol_env (s : State) (p : Protocol) : (s.setProtocol p).env = s.env := rfl
@[simp] theorem State.setProtocol_wire (s : State) (p : Protocol) : (s.setProtocol p).wire = s.wire := rfl
@[simp] theorem State.setProtocol_resp (s : State) (p : Protocol) : (s.setProtocol p).resp = s.resp := rfl

@[simp] theorem State.setSpeed_cfg (s : State) (k : Nat) : (s.setSpeed k).cfg = s.cfg := rfl
@[simp] theorem State.setSpeed_ps (s : State) (k : Nat) : (s.setSpeed k).ps = { s.ps with speedKhz := k } := rfl
@[simp] theorem State.setSpeed_eng (s : State) (k : Nat) : (s.setSpeed k).eng = s.eng := rfl
@[simp] theorem State.setSpeed_buf (s : State) (k : Nat) : (s.setSpeed k).buf = s.buf := rfl
@[simp] theorem State.setSpeed_host (s : State) (k : Nat) : (s.setSpeed k).host = s.host := rfl
@[simp] theorem State.setSpeed_env (s : State) (k : Nat) : (s.setSpeed k).env = s.env := rfl
@[simp] theorem State.setSpeed_wire (s : State) (k : Nat) : (s.setSpeed k).wire = s.wire := rfl
@[simp] theorem State.setSpeed_resp (s : State) (k : Nat) : (s.setSpeed k).resp = s.resp := rfl

@[simp] theorem State.setIdleCycles_cfg (s : State) (n : Nat) : (s.setIdleCycles n).cfg = s.cfg := rfl
@[simp] theorem State.setIdleCycles_ps (s : State) (n : Nat) : (s.setIdleCycles n).ps = { s.ps with jtagIdleCycles := n } := rfl
@[simp] theorem State.setIdleCycles_eng (s : State) (n : Nat) : (s.setIdleCycles n).eng = s.eng := rfl
@[simp] theorem State.setIdleCycles_buf (s : State) (n : Nat) : (s.setIdleCycles n).buf = s.buf := rfl
@[simp] theorem State.setIdleCycles_host (s : State) (n : Nat) : (s.setIdleCycles n).host = s.host := rfl
@[simp] theorem State.setIdleCycles_env (s : State) (n : Nat) : (s.setIdleCycles n).env = s.env := rfl
@[simp] theorem State.setIdleCycles_wire (s : State) (n : Nat) : (s.setIdleCycles n).wire = s.wire := rfl
@[simp] theorem State.setIdleCycles_resp (s : State) (n : Nat) : (s.setIdleCycles n).resp = s.resp := rfl

@[simp] theorem State.setIr_cfg (s : State) (r : Option (BitVec 8)) : (s.setIr r).cfg = s.cfg := rfl
@[simp] theorem State.setIr_ps (s : State) (r : Option (BitVec 8)) : (s.setIr r).ps = { s.ps with currentIrRegister := r } := rfl
@[simp] theorem State.setIr_eng (s : State) (r : Option (BitVec 8)) : (s.setIr r).eng = s.eng := rfl
@[simp] theorem State.setIr_buf (s : State) (r : Option (BitVec 8)) : (s.setIr r).buf = s.buf := rfl
@[simp] theorem State.setIr_host (s : State) (r : Option (BitVec 8)) : (s.setIr r).host = s.host := rfl
@[simp] theorem State.setIr_env (s : State) (r : Option (BitVec 8)) : (s.setIr r).env = s.env := rfl
@[simp] theorem State.setIr_wire (s : State) (r : Option (BitVec 8)) : (s.setIr r).wire = s.wire := rfl
@[simp] theorem State.setIr_resp (s : State) (r : Option (BitVec 8)) : (s.setIr r).resp = s.resp := rfl

@[simp] theorem State.setPhase_cfg (s : State) (p : Phase) : (s.setPhase p).cfg = s.cfg := rfl
@[simp] theorem State.setPhase_ps (s : State) (p : Phase) : (s.setPhase p).ps = s.ps := rfl
@[simp] theorem State.setPhase_eng (s : State) (p : Phase) : (s.setPhase p).eng = { s.eng with phase := p } := rfl
@[simp] theorem State.setPhase_buf (s : State) (p : Phase) : (s.setPhase p).buf = s.buf := rfl
@[simp] theorem State.setPhase_host (s : State) (p : Phase) : (s.setPhase p).host = s.host := rfl
@[simp] theorem State.setPhase_env (s : State) (p : Phase) : (s.setPhase p).env = s.env := rfl
@[simp] theorem State.setPhase_wire (s : State) (p : Phase) : (s.setPhase p).wire = s.wire := rfl
@[simp] theorem State.setPhase_resp (s : State) (p : Phase) : (s.setPhase p).resp = s.resp := rfl

@[simp] theorem State.setAttempt_cfg (s : State) (n : Nat) : (s.setAttempt n).cfg = s.cfg := rfl
@[simp] theorem State.setAttempt_ps (s : State) (n : Nat) : (s.setAttempt n).ps = s.ps := rfl
@[simp] theorem State.setAttempt_eng (s : State) (n : Nat) : (s.setAttempt n).eng = { s.eng with attempt := n } := rfl
@[simp] theorem State.setAttempt_buf (s : State) (n : Nat) : (s.setAttempt n).buf = s.buf := rfl
@[simp] theorem State.setAttempt_host (s : State) (n : Nat) : (s.setAttempt n).host = s.host := rfl
@[simp] theorem State.setAttempt_env (s : State) (n : Nat) : (s.setAttempt n).env = s.env := rfl
@[simp] theorem State.setAttempt_wire (s : State) (n : Nat) : (s.setAttempt n).wire = s.wire := rfl
@[simp] theorem State.setAttempt_resp (s : State) (n : Nat) : (s.setAttempt n).resp = s.resp := rfl

@[simp] theorem State.loadTxn_cfg (s : State) (t : Txn) (f : Bool) : (s.loadTxn t f).cfg = s.cfg := rfl
@[simp] theorem State.loadTxn_ps (s : State) (t : Txn) (f : Bool) : (s.loadTxn t f).ps = s.ps := rfl
@[simp] theorem State.loadTxn_eng (s : State) (t : Txn) (f : Bool) : (s.loadTxn t f).eng = { s.eng with txn := t, followup := f, attempt := 0 } := rfl
@[simp] theorem State.loadTxn_buf (s : State) (t : Txn) (f : Bool) : (s.loadTxn t f).buf = s.buf := rfl
@[simp] theorem State.loadTxn_host (s : State) (t : Txn) (f : Bool) : (s.loadTxn t f).host = s.host := rfl
@[simp] theorem State.loadTxn_env (s : State) (t : Txn) (f : Bool) : (s.loadTxn t f).env = s.env := rfl
@[simp] theorem State.loadTxn_wire (s : State) (t : Txn) (f : Bool) : (s.loadTxn t f).wire = s.wire := rfl
@[simp] theorem State.loadTxn_resp (s : State) (t : Txn) (f : Bool) : (s.loadTxn t f).resp = s.resp := rfl

@[simp] theorem State.latch_cfg (s : State) (d : Dir) (v : Bits) : (s.latch d v).cfg = s.cfg := by cases d <;> rfl
@[simp] theorem State.latch_ps (s : State) (d : Dir) (v : Bits) : (s.latch d v).ps = s.ps := by cases d <;> rfl
@[simp] theorem State.latch_buf (s : State) (d : Dir) (v : Bits) : (s.latch d v).buf = s.buf := by cases d <;> rfl
@[simp] theorem State.latch_host (s : State) (d : Dir) (v : Bits) : (s.latch d v).host = s.host := by cases d <;> rfl
@[simp] theorem State.latch_env (s : State) (d : Dir) (v : Bits) : (s.latch d v).env = s.env := by cases d <;> rfl
@[simp] theorem State.latch_wire (s : State) (d : Dir) (v : Bits) : (s.latch d v).wire = s.wire := by cases d <;> rfl
@[simp] theorem State.latch_resp (s : State) (d : Dir) (v : Bits) : (s.latch d v).resp = s.resp := by cases d <;> rfl
@[simp] theorem State.latch_phase (s : State) (d : Dir) (v : Bits) : (s.latch d v).eng.phase = s.eng.phase := by
  cases d <;> rfl
@[simp] theorem State.latch_attempt (s : State) (d : Dir) (v : Bits) :
    (s.latch d v).eng.attempt = s.eng.attempt := by cases d <;> rfl
@[simp] theorem State.latch_txn (s : State) (d : Dir) (v : Bits) : (s.latch d v).eng.txn = s.eng.txn := by
  cases d <;> rfl
@[simp] theorem State.latch_followup (s : State) (d : Dir) (v : Bits) :
    (s.latch d v).eng.followup = s.eng.followup := by cases d <;> rfl
@[simp] theorem State.latch_ack (s : State) (d : Dir) (v : Bits) :
    (s.latch d v).eng.ack = sampledAck s.cfg v := by cases d <;> rfl
@[simp] theorem State.latch_read_data (s : State) (v : Bits) :
    (s.latch .read v).eng.data = sampledData s.cfg v := rfl
@[simp] theorem State.latch_read_par (s : State) (v : Bits) : (s.latch .read v).eng.par = sampledPar s.cfg v := rfl
@[simp] theorem State.latch_write_data (s : State) (v : Bits) : (s.latch .write v).eng.data = s.eng.data := rfl
@[simp] theorem State.latch_write_par (s : State) (v : Bits) : (s.latch .write v).eng.par = s.eng.par := rfl

@[simp] theorem State.respond_cfg (s : State) (r : Response) : (s.respond r).cfg = s.cfg := rfl
@[simp] theorem State.respond_ps (s : State) (r : Response) : (s.respond r).ps = s.ps := rfl
@[simp] theorem State.respond_eng (s : State) (r : Response) : (s.respond r).eng = s.eng := rfl
@[simp] theorem State.respond_buf (s : State) (r : Response) : (s.respond r).buf = s.buf := rfl
@[simp] theorem State.respond_host (s : State) (r : Response) : (s.respond r).host = s.host := rfl
@[simp] theorem State.respond_env (s : State) (r : Response) : (s.respond r).env = s.env := rfl
@[simp] theorem State.respond_wire (s : State) (r : Response) : (s.respond r).wire = s.wire := rfl
@[simp] theorem State.respond_resp (s : State) (r : Response) : (s.respond r).resp = some r := rfl

@[simp] theorem State.assertOut_cfg (s : State) : (s.assertOut).cfg = s.cfg := rfl
@[simp] theorem State.assertOut_ps (s : State) : (s.assertOut).ps = s.ps := rfl
@[simp] theorem State.assertOut_eng (s : State) : (s.assertOut).eng = s.eng := rfl
@[simp] theorem State.assertOut_buf (s : State) : (s.assertOut).buf = s.buf := rfl
@[simp] theorem State.assertOut_host (s : State) : (s.assertOut).host = s.host := rfl
@[simp] theorem State.assertOut_env (s : State) : (s.assertOut).env = s.env := rfl
@[simp] theorem State.assertOut_wire (s : State) : (s.assertOut).wire = s.wire := rfl
@[simp] theorem State.assertOut_resp (s : State) : (s.assertOut).resp = some Response.assert := rfl

@[simp] theorem State.raise_cfg (s : State) (k : ErrKind) (i : Info) : (s.raise k i).cfg = s.cfg := rfl
@[simp] theorem State.raise_ps (s : State) (k : ErrKind) (i : Info) : (s.raise k i).ps = s.ps := rfl
@[simp] theorem State.raise_eng (s : State) (k : ErrKind) (i : Info) : (s.raise k i).eng = s.eng := rfl
@[simp] theorem State.raise_buf (s : State) (k : ErrKind) (i : Info) : (s.raise k i).buf = s.buf := rfl
@[simp] theorem State.raise_host (s : State) (k : ErrKind) (i : Info) : (s.raise k i).host = s.host := rfl
@[simp] theorem State.raise_env (s : State) (k : ErrKind) (i : Info) : (s.raise k i).env = s.env := rfl
@[simp] theorem State.raise_wire (s : State) (k : ErrKind) (i : Info) : (s.raise k i).wire = s.wire := rfl
@[simp] theorem State.raise_resp (s : State) (k : ErrKind) (i : Info) : (s.raise k i).resp = some (Response.err k i) := rfl

@[simp] theorem State.conclude_cfg (s : State) (i : Info) (r : Except Exit Value) : (s.conclude i r).cfg = s.cfg := by rcases r with (_ | _) | _ <;> rfl
@[simp] theorem State.conclude_ps (s : State) (i : Info) (r : Except Exit Value) : (s.conclude i r).ps = s.ps := by rcases r with (_ | _) | _ <;> rfl
@[simp] theorem State.conclude_eng (s : State) (i : Info) (r : Except Exit Value) : (s.conclude i r).eng = s.eng := by rcases r with (_ | _) | _ <;> rfl
@[simp] theorem State.conclude_buf (s : State) (i : Info) (r : Except Exit Value) : (s.conclude i r).buf = s.buf := by rcases r with (_ | _) | _ <;> rfl
@[simp] theorem State.conclude_host (s : State) (i : Info) (r : Except Exit Value) : (s.conclude i r).host = s.host := by rcases r with (_ | _) | _ <;> rfl
@[simp] theorem State.conclude_env (s : State) (i : Info) (r : Except Exit Value) : (s.conclude i r).env = s.env := by rcases r with (_ | _) | _ <;> rfl
@[simp] theorem State.conclude_wire (s : State) (i : Info) (r : Except Exit Value) : (s.conclude i r).wire = s.wire := by rcases r with (_ | _) | _ <;> rfl
@[simp] theorem State.conclude_ok (s : State) (i : Info) (v : Value) :
    s.conclude i (.ok v) = s.respond (.ok v) := rfl
@[simp] theorem State.conclude_raise (s : State) (i : Info) (k : ErrKind) :
    s.conclude i (.error (.raise k)) = s.raise k i := rfl
@[simp] theorem State.conclude_assert (s : State) (i : Info) : s.conclude i (.error .assert) = s.assertOut := rfl

@[simp] theorem State.toIdle_cfg (s : State) : (s.toIdle).cfg = s.cfg := rfl
@[simp] theorem State.toIdle_ps (s : State) : (s.toIdle).ps = s.ps := rfl
@[simp] theorem State.toIdle_eng (s : State) : (s.toIdle).eng = { s.eng with phase := .idle, attempt := 0 } := rfl
@[simp] theorem State.toIdle_buf (s : State) : (s.toIdle).buf = s.buf := rfl
@[simp] theorem State.toIdle_host (s : State) : (s.toIdle).host = s.host := rfl
@[simp] theorem State.toIdle_env (s : State) : (s.toIdle).env = s.env := rfl
@[simp] theorem State.toIdle_wire (s : State) : (s.toIdle).wire = s.wire := rfl
@[simp] theorem State.toIdle_resp (s : State) : (s.toIdle).resp = s.resp := rfl

@[simp] theorem State.giveValue_cfg (s : State) (v : Option Value) : (s.giveValue v).cfg = s.cfg := by cases v <;> rfl
@[simp] theorem State.giveValue_ps (s : State) (v : Option Value) : (s.giveValue v).ps = s.ps := by cases v <;> rfl
@[simp] theorem State.giveValue_eng (s : State) (v : Option Value) : (s.giveValue v).eng = s.eng := by cases v <;> rfl
@[simp] theorem State.giveValue_buf (s : State) (v : Option Value) : (s.giveValue v).buf = s.buf := by cases v <;> rfl
@[simp] theorem State.giveValue_host (s : State) (v : Option Value) : (s.giveValue v).host = s.host := by cases v <;> rfl
@[simp] theorem State.giveValue_env (s : State) (v : Option Value) : (s.giveValue v).env = s.env := by cases v <;> rfl
@[simp] theorem State.giveValue_wire (s : State) (v : Option Value) : (s.giveValue v).wire = s.wire := by cases v <;> rfl
@[simp] theorem State.giveValue_some (s : State) (v : Value) : s.giveValue (some v) = s.respond (.ok v) := rfl
@[simp] theorem State.giveValue_none (s : State) : s.giveValue none = s.assertOut := rfl

@[simp] theorem State.blockReset_cfg (s : State) : (s.blockReset).cfg = s.cfg := rfl
@[simp] theorem State.blockReset_ps (s : State) : (s.blockReset).ps = ProbeState.reset s.cfg := rfl
@[simp] theorem State.blockReset_eng (s : State) : (s.blockReset).eng = Engine.reset := rfl
@[simp] theorem State.blockReset_buf (s : State) : (s.blockReset).buf = Buffers.empty := rfl
@[simp] theorem State.blockReset_host (s : State) : (s.blockReset).host = s.host := rfl
@[simp] theorem State.blockReset_env (s : State) : (s.blockReset).env = s.env := rfl
@[simp] theorem State.blockReset_wire (s : State) : (s.blockReset).wire = s.wire := rfl
@[simp] theorem State.blockReset_resp (s : State) : (s.blockReset).resp = none := rfl

end Sys2Proof.Machine
end

