-- ==== Sys2Proof/Laws/Runs.lean ====
section
/-! SUPPORT. What every procedure of the block has in common: it makes a list of legal transport calls, uses up one
answer for each, and stops at the first that fails. The relation `Does` says this once, and composes. -/

namespace Sys2Proof.Machine

/-- The result of a procedure is `ProbeSpecific` with `sub = 0`: a transport call failed. -/
def isFailure {α : Type} : Except Exit α → Bool
  | .ok _ => false
  | .error (.raise .probeSpecific) => true
  | .error (.raise _) => false
  | .error .assert => false

@[simp] theorem isFailure_ok {α : Type} (a : α) : isFailure (.ok a : Except Exit α) = false := rfl
@[simp] theorem isFailure_probeSpecific {α : Type} :
    isFailure (.error (.raise .probeSpecific) : Except Exit α) = true := rfl
@[simp] theorem isFailure_assert {α : Type} : isFailure (.error .assert : Except Exit α) = false := rfl

/-- Handing an error on does not change whether it is a failure. -/
theorem isFailure_error {α β : Type} (e : Exit) :
    isFailure (.error e : Except Exit α) = isFailure (.error e : Except Exit β) := by
  rcases e with k | _
  · cases k <;> rfl
  · rfl

/-- `t` is `s` after the transport calls `calls`, of which the last failed exactly when `failed`: each call is one of `P`,
the trace has them in order, an answer is used up for each, every answer before the last was no failure; the
configuration, what the host presents and the response port are as before. -/
structure Does (P : Call → Prop) (s t : State) (failed : Bool) (calls : List Call) : Prop where
  cfg : t.cfg = s.cfg
  host : t.host = s.host
  resp : t.resp = s.resp
  env : t.env = s.env.drop calls.length
  wire : t.wire = s.wire ++ calls
  legal : ∀ c ∈ calls, P c
  failing : ∀ j a, j < calls.length → s.env[j]? = some a →
    a.failed = (decide (j + 1 = calls.length) && failed)
  nonempty : failed = true → calls ≠ []

namespace Does

variable {P : Call → Prop}

theorem refl (s : State) : Does P s s false [] :=
  ⟨rfl, rfl, rfl, rfl, by simp, by simp, by simp, by simp⟩

theorem trans {s t u : State} {a b : List Call} {f : Bool} (h : Does P s t false a) (g : Does P t u f b) :
    Does P s u f (a ++ b) where
  cfg := g.cfg.trans h.cfg
  host := g.host.trans h.host
  resp := g.resp.trans h.resp
  env := by rw [g.env, h.env, List.drop_drop, List.length_append]
  wire := by rw [g.wire, h.wire, List.append_assoc]
  legal := by
    intro c hc
    rcases List.mem_append.1 hc with hc | hc
    · exact h.legal c hc
    · exact g.legal c hc
  failing := by
    intro j x hj hx
    rw [List.length_append] at hj ⊢
    by_cases hja : j < a.length
    · rw [h.failing j x hja hx]
      cases f with
      | false => simp
      | true =>
        have : b.length ≠ 0 := fun hb => g.nonempty rfl (List.length_eq_zero_iff.1 hb)
        have : ¬ (j + 1 = a.length + b.length) := by omega
        simp [this]
    · have hx' : t.env[j - a.length]? = some x := by
        rw [h.env, List.getElem?_drop, Nat.add_sub_cancel' (Nat.le_of_not_lt hja)]; exact hx
      rw [g.failing (j - a.length) x (by omega) hx']
      have : (j - a.length + 1 = b.length) ↔ (j + 1 = a.length + b.length) := by omega
      simp [this]
  nonempty := fun hf => by simp [g.nonempty hf]

/-- A change that touches neither configuration, inputs, trace nor response port, after. -/
theorem congr_right {s t u : State} {a : List Call} {f : Bool} (h : Does P s t f a) (hc : u.cfg = t.cfg)
    (hh : u.host = t.host) (hr : u.resp = t.resp) (he : u.env = t.env) (hw : u.wire = t.wire) : Does P s u f a :=
  ⟨hc.trans h.cfg, hh.trans h.host, hr.trans h.resp, he.trans h.env, hw.trans h.wire, h.legal, h.failing, h.nonempty⟩

/-- A change that touches neither configuration, inputs, trace nor response port, before. -/
theorem congr_left {s t u : State} {a : List Call} {f : Bool} (h : Does P s t f a) (hc : s.cfg = u.cfg)
    (hh : s.host = u.host) (hr : s.resp = u.resp) (he : s.env = u.env) (hw : s.wire = u.wire) : Does P u t f a :=
  ⟨hc ▸ h.cfg, hh ▸ h.host, hr ▸ h.resp, he ▸ h.env, hw ▸ h.wire, h.legal, he ▸ h.failing, h.nonempty⟩

/-- Calls of a narrower kind. -/
theorem mono {Q : Call → Prop} {s t : State} {a : List Call} {f : Bool} (h : Does P s t f a) (hq : ∀ c, P c → Q c) :
    Does Q s t f a :=
  ⟨h.cfg, h.host, h.resp, h.env, h.wire, fun c hc => hq c (h.legal c hc), h.failing, h.nonempty⟩

/-- One call. -/
theorem one (s : State) (c : Call) (hc : P c) : Does P s (s.called c) s.answer.failed [c] where
  cfg := rfl
  host := rfl
  resp := rfl
  env := by simp
  wire := rfl
  legal := by simpa using hc
  failing := by
    intro j a hj ha
    have hj0 : j = 0 := by simpa using hj
    subst hj0
    have : s.answer = a := by
      unfold State.answer
      cases he : s.env with
      | nil => simp [he] at ha
      | cons x xs => simpa [he] using ha
    simp [this]
  nonempty := by simp

end Does

/-- A sampled vector exists exactly when the answer is no failure (R105). -/
theorem sample_eq_none_iff (a : Answer) (k n : Nat) : a.sample k n = none ↔ a.failed = true := by
  cases h : a.failed <;> simp [Answer.sample, h]

/-- The transport returns as many bits as it was given (R99). -/
theorem length_of_sample {a : Answer} {k n : Nat} {v : Bits} (h : a.sample k n = some v) : v.length = n := by
  unfold Answer.sample at h
  split at h
  · cases h
  · cases h; simp

/-- Where the answer lists enough bits, the sampled vector is those bits. -/
theorem sample_eq_take {a : Answer} {k n : Nat} (hf : a.failed = false) (hn : n ≤ a.bits.length) :
    a.sample k n = some (a.bits.take n) := by
  unfold Answer.sample
  simp only [hf, Bool.false_eq_true, if_false, Option.some.injEq]
  apply List.ext_getElem
  · simp [hn]
  · intro i h1 h2
    have : i < a.bits.length := by simp at h1; omega
    simp [this]

end Sys2Proof.Machine
end

