-- ==== Sys2Proof/Laws/Engine.lean ====
section
/-! SUPPORT. What each procedure of the engine can do, one lemma each that says everything: the calls it makes (with
their number), the latches it leaves alone, and its result. Later proofs cite them and do not unfold the procedures. -/

namespace Sys2Proof.Machine

/-! ### Frames -/

/-- The constraints of R4 (`Config.wf`), one by one. -/
theorem Config.wf_iff (c : Config) : c.wf = true ↔
    Config.minWriteIdle ≤ c.engineWriteIdle ∧ 50 ≤ c.nResetHigh ∧
    c.addrDpidr.extractLsb' 0 2 = 0#2 ∧ c.addrAbort.extractLsb' 0 2 = 0#2 ∧
    c.addrCtrlstat.extractLsb' 0 2 = 0#2 ∧ c.addrRdbuff.extractLsb' 0 2 = 0#2 ∧
    c.bitStkerrclr < 32 ∧ c.bitOrunerrclr < 32 ∧ c.bitStickyorun < 32 ∧ c.bitStickyerr < 32 ∧
    c.resetSpeedKhz < 2 ^ c.speedBits ∧ ∀ r ∈ c.speedRules, Config.ruleFits c.speedBits r = true := by
  simp [Config.wf, and_assoc]

/-- The two ways of writing the alignment check (R57) agree. -/
theorem offsetAligned_eq_alignedOffset (a : BitVec 4) : offsetAligned a = alignedOffset a := by
  revert a; decide

theorem offsetAligned_of_extract {a : BitVec 4} (h : a.extractLsb' 0 2 = 0#2) : offsetAligned a = true := by
  rw [offsetAligned_eq_alignedOffset]; simp [alignedOffset, h]

/-- A request for an aligned offset has a frame when the configuration meets its constraints. -/
theorem requestFrame_isSome {c : Config} (hc : c.wf = true) {a : BitVec 4} (ha : offsetAligned a = true) (p : Port)
    (d : Dir) (v : Word) : ∃ q, requestFrame c p d a v = some q := by
  have hi := ((Config.wf_iff c).1 hc).1
  cases d
  · simp [requestFrame, swdEncRead, swdHdr, ha, mkSeq, length_headerBits, Nat.add_assoc]
  · simp [requestFrame, swdEncWrite, swdHdr, ha, hi, mkSeq, length_headerBits]; omega

/-- What a step of the engine leaves alone beside what `Does` says: the probe state, and of the latches the
Transaction, the follow-up marker and the attempt count. -/
structure KeepsTxn (s t : State) : Prop where
  ps : t.ps = s.ps
  txn : t.eng.txn = s.eng.txn
  followup : t.eng.followup = s.eng.followup
  attempt : t.eng.attempt = s.eng.attempt

theorem KeepsTxn.refl (s : State) : KeepsTxn s s := ⟨rfl, rfl, rfl, rfl⟩

theorem KeepsTxn.trans {s t u : State} (h : KeepsTxn s t) (g : KeepsTxn t u) : KeepsTxn s u :=
  ⟨g.ps.trans h.ps, g.txn.trans h.txn, g.followup.trans h.followup, g.attempt.trans h.attempt⟩

/-- `swd_frame` (R171) with a frame `q`: one call; it fails, or its answer is classified and latched. -/
theorem swdFrame_eq {p : Port} {d : Dir} {a : BitVec 4} {v : Word} {s : State} {q : Seq}
    (hq : requestFrame s.cfg p d a v = some q) :
    swdFrame p d a v s =
      match s.answer.sample s.wire.length q.io.length with
      | none => (.error (.raise .probeSpecific), (s.called q.call).release)
      | some smp => (.ok (sampledAck s.cfg smp).classify, ((s.called q.call).latch d smp).release) := by
  simp only [swdFrame, hq, State.receive, State.swdIo_buf]
  cases s.answer.sample s.wire.length q.io.length with
  | none => rfl
  | some smp => cases d <;> rfl

/-- Everything `swd_frame` can do. -/
theorem swdFrame_does (p : Port) (d : Dir) (a : BitVec 4) (v : Word) (s : State) :
    ∃ calls, Does (fun k => ∃ q, requestFrame s.cfg p d a v = some q ∧ k = q.call) s (swdFrame p d a v s).2 (isFailure (swdFrame p d a v s).1) calls ∧ calls.length ≤ 1 ∧
      KeepsTxn s (swdFrame p d a v s).2 ∧ (swdFrame p d a v s).2.eng.phase = s.eng.phase ∧
      ((swdFrame p d a v s).2.buf = .empty ∨ (swdFrame p d a v s).2 = s) ∧
      ((swdFrame p d a v s).1 = .error .assert ∧ requestFrame s.cfg p d a v = none ∧ calls = [] ∨
       (∃ q, requestFrame s.cfg p d a v = some q ∧ calls = [q.call]) ∧
        ((swdFrame p d a v s).1 = .error (.raise .probeSpecific) ∨
         ∃ k, (swdFrame p d a v s).1 = .ok k ∧ (swdFrame p d a v s).2.eng.ack.classify = k)) := by
  cases hq : requestFrame s.cfg p d a v with
  | none =>
    have : swdFrame p d a v s = (.error .assert, s) := by simp [swdFrame, hq]
    rw [this]
    exact ⟨[], Does.refl s, by simp, KeepsTxn.refl s, rfl, .inr rfl, .inl ⟨rfl, rfl, rfl⟩⟩
  | some q =>
    have h1 := Does.one (P := fun k => ∃ q', some q = some q' ∧ k = q'.call) s q.call ⟨q, rfl, rfl⟩
    rw [swdFrame_eq hq]
    cases hs : s.answer.sample s.wire.length q.io.length with
    | none =>
      rw [(sample_eq_none_iff _ _ _).1 hs] at h1
      exact ⟨[q.call], h1.congr_right rfl rfl rfl rfl rfl, by simp, ⟨rfl, rfl, rfl, rfl⟩, rfl, .inl rfl,
        .inr ⟨⟨q, rfl, rfl⟩, .inl rfl⟩⟩
    | some smp =>
      have hf : s.answer.failed = false := by
        cases h : s.answer.failed with
        | false => rfl
        | true => rw [(sample_eq_none_iff _ _ _).2 h] at hs; cases hs
      rw [hf] at h1
      refine ⟨[q.call], ?_, by simp, ?_, ?_, .inl rfl, .inr ⟨⟨q, rfl, rfl⟩, .inr ⟨_, rfl, ?_⟩⟩⟩
      · exact h1.congr_right (by simp) (by simp) (by simp) (by simp) (by simp)
      · exact ⟨by simp, by simp, by simp, by simp⟩
      · simp
      · simp

/-- Everything `line_reset` can do. -/
theorem lineReset_eq (s : State) :
    lineReset s =
      (if s.answer.failed then .error (.raise .probeSpecific) else .ok (),
       (s.called (swdEncLineReset s.cfg).call).release) := by
  cases hf : s.answer.failed with
  | true =>
    have := (sample_eq_none_iff s.answer s.wire.length (swdEncLineReset s.cfg).io.length).2 hf
    simp only [lineReset, State.swdIo_buf, this]; rfl
  | false =>
    have : ∃ v, s.answer.sample s.wire.length (swdEncLineReset s.cfg).io.length = some v := by
      simp [Answer.sample, hf]
    obtain ⟨v, hv⟩ := this
    simp only [lineReset, State.swdIo_buf, hv]; rfl

theorem lineReset_does (s : State) :
    Does (RecoveryCall s.cfg) s (lineReset s).2 (isFailure (lineReset s).1) [(swdEncLineReset s.cfg).call] ∧
      (lineReset s).2.ps = s.ps ∧ (lineReset s).2.eng = s.eng ∧ (lineReset s).2.buf = .empty ∧
      (lineReset s).1 ≠ .error .assert := by
  have h1 := Does.one (P := RecoveryCall s.cfg) s (swdEncLineReset s.cfg).call (.inl rfl)
  rw [lineReset_eq]
  cases hf : s.answer.failed with
  | true =>
    rw [hf] at h1
    exact ⟨h1.congr_right rfl rfl rfl rfl rfl, rfl, rfl, rfl, by simp⟩
  | false =>
    rw [hf] at h1
    exact ⟨h1.congr_right rfl rfl rfl rfl rfl, rfl, rfl, rfl, by simp⟩

/-! ### The engine's calls are legal -/

theorem RecoveryCall.legal {c : Config} {k : Call} (h : RecoveryCall c k) : k.Legal c := by
  rcases h with h | ⟨q, hq, h⟩ | ⟨o, e, q, -, hq, h⟩
  · rw [h]; exact .inl rfl
  · rw [h]; exact .inr ⟨_, _, _, _, hq⟩
  · rw [h]; exact .inr ⟨_, _, _, _, hq⟩

theorem AttemptCall.legal {c : Config} {t : Txn} {k : Call} (h : AttemptCall c t k) : k.Legal c := by
  rcases h with ⟨q, hq, h⟩ | h
  · rw [h]; exact .inr ⟨_, _, _, _, hq⟩
  · exact h.legal

theorem EngineCall.legal {c : Config} {t : Txn} {k : Call} (h : EngineCall c t k) : k.Legal c := by
  rcases h with h | ⟨-, -, h⟩
  · exact h.legal
  · exact h.legal

/-! ### Recovery (R177 to R181) -/

/-- What a recovery can do: at most `n` calls; it returns, or raises one of three kinds, or asserts because a frame of
its own has none. -/
structure RecoveryDoes (s : State) (r : Except Exit Unit × State) (n : Nat) : Prop where
  does : ∃ calls, Does (RecoveryCall s.cfg) s r.2 (isFailure r.1) calls ∧ calls.length ≤ n
  keeps : KeepsTxn s r.2
  phase : r.2.eng.phase = s.eng.phase
  buf : r.2.buf = .empty ∨ r.2 = s
  result : r.1 = .ok () ∨ r.1 = .error (.raise .probeSpecific) ∨ r.1 = .error (.raise .faultResponse) ∨
    r.1 = .error (.raise .incorrectParity) ∨ r.1 = .error .assert ∧ s.cfg.wf = false

theorem requestFrame_ne_none {c : Config} {p : Port} {d : Dir} {a : BitVec 4} {v : Word}
    (ha : a.extractLsb' 0 2 = 0#2 ∨ c.wf = false) (h : requestFrame c p d a v = none) : c.wf = false := by
  cases hc : c.wf with
  | false => rfl
  | true =>
    rcases ha with ha | ha
    · obtain ⟨q, hq⟩ := requestFrame_isSome hc (offsetAligned_of_extract ha) p d v
      rw [hq] at h; cases h
    · rw [hc] at ha; cases ha

theorem aligned_or_not_wf (c : Config) :
    (c.addrAbort.extractLsb' 0 2 = 0#2 ∨ c.wf = false) ∧ (c.addrCtrlstat.extractLsb' 0 2 = 0#2 ∨ c.wf = false) := by
  cases hc : c.wf with
  | false => exact ⟨.inr rfl, .inr rfl⟩
  | true =>
    have := (Config.wf_iff c).1 hc
    exact ⟨.inl this.2.2.2.1, .inl this.2.2.2.2.1⟩

theorem abortWrite_does (orun serr : Bool) (h : orun = true ∨ serr = true) (s : State) :
    RecoveryDoes s (abortWrite (abortWord s.cfg orun serr) s) 1 := by
  obtain ⟨calls, hd, hn, hk, hp, hb, hr⟩ := swdFrame_does .dp .write s.cfg.addrAbort (abortWord s.cfg orun serr) s
  replace hd := hd.mono (Q := RecoveryCall s.cfg) fun k ⟨q, hq, hk⟩ => .inr (.inr ⟨orun, serr, q, h, hq, hk⟩)
  unfold abortWrite
  cases hx : swdFrame .dp .write s.cfg.addrAbort (abortWord s.cfg orun serr) s with
  | mk r t =>
    rw [hx] at hd hk hp hb hr
    cases r with
    | ok k => exact ⟨⟨calls, by simpa using hd, hn⟩, hk, hp, hb, .inl rfl⟩
    | error e =>
      refine ⟨⟨calls, by rw [isFailure_error (β := AckClass)]; exact hd, hn⟩, hk, hp, hb, ?_⟩
      rcases hr with ⟨h1, h2, -⟩ | ⟨-, h1 | ⟨k, h1, -⟩⟩
      · cases h1
        exact .inr (.inr (.inr (.inr ⟨rfl, requestFrame_ne_none (aligned_or_not_wf s.cfg).1 h2⟩)))
      · cases h1
        exact .inr (.inl rfl)
      · cases h1

/-- A recovery followed by another procedure of the same kind. -/
theorem recoverFault_does (s : State) : RecoveryDoes s (recoverFault s) 2 := by
  obtain ⟨calls, hd, hn, hk, hp, hb, hr⟩ := swdFrame_does .dp .read s.cfg.addrCtrlstat 0#32 s
  replace hd := hd.mono (Q := RecoveryCall s.cfg) fun k ⟨q, hq, hk⟩ => .inr (.inl ⟨q, hq, hk⟩)
  unfold recoverFault
  cases hx : swdFrame .dp .read s.cfg.addrCtrlstat 0#32 s with
  | mk r t =>
    rw [hx] at hd hk hp hb hr
    cases r with
    | error e =>
      refine ⟨⟨calls, by rw [isFailure_error (β := AckClass)]; exact hd, by omega⟩, hk, hp, hb, ?_⟩
      rcases hr with ⟨h1, h2, -⟩ | ⟨-, h1 | ⟨k, h1, -⟩⟩
      · cases h1
        exact .inr (.inr (.inr (.inr ⟨rfl, requestFrame_ne_none (aligned_or_not_wf s.cfg).2 h2⟩)))
      · cases h1
        exact .inr (.inl rfl)
      · cases h1
    | ok k =>
      dsimp only
      split
      · exact ⟨⟨calls, hd, by omega⟩, hk, hp, hb, .inr (.inr (.inl rfl))⟩
      split
      · exact ⟨⟨calls, hd, by omega⟩, hk, hp, hb, .inr (.inr (.inr (.inl rfl)))⟩
      split
      · exact ⟨⟨calls, hd, by omega⟩, hk, hp, hb, .inr (.inr (.inl rfl))⟩
      · next hset =>
        have hset' : stickyOrun t.cfg t.eng.data = true ∨ stickyErr t.cfg t.eng.data = true := by
          cases h1 : stickyOrun t.cfg t.eng.data <;> cases h2 : stickyErr t.cfg t.eng.data <;> simp_all
        have hc : t.cfg = s.cfg := hd.cfg
        have ha := abortWrite_does (stickyOrun t.cfg t.eng.data) (stickyErr t.cfg t.eng.data) hset' t
        obtain ⟨c2, h2, hn2⟩ := ha.does
        rw [hc] at h2
        refine ⟨⟨calls ++ c2, Does.trans hd (by rw [hc]; exact h2), by simp; omega⟩, hk.trans ha.keeps, ha.phase.trans hp, ?_, ?_⟩
        · rcases ha.buf with h | h
          · exact .inl h
          · rw [h]; exact hb
        · have hres := ha.result
          rw [hc] at hres
          rw [hc]
          exact hres

theorem recover_does (k : AckClass) (s : State) : RecoveryDoes s (recover k s) 2 := by
  cases k with
  | ok => exact ⟨⟨[], Does.refl s, by simp⟩, KeepsTxn.refl s, rfl, .inr rfl, .inl rfl⟩
  | wait =>
    have h := abortWrite_does true false (.inl rfl) s
    obtain ⟨c, hc, hn⟩ := h.does
    exact ⟨⟨c, hc, by omega⟩, h.keeps, h.phase, h.buf, h.result⟩
  | fault => exact recoverFault_does s
  | noAck =>
    obtain ⟨hd, hp, he, hb, hr⟩ := lineReset_does s
    refine ⟨⟨_, hd, by simp⟩, ⟨hp, by simp [recover, recoverNoAck, he], by simp [recover, recoverNoAck, he],
      by simp [recover, recoverNoAck, he]⟩, by simp [recover, recoverNoAck, he], .inl hb, ?_⟩
    have h1 : (recover .noAck s).1 = if s.answer.failed then .error (.raise .probeSpecific) else .ok () := by
      show (lineReset s).1 = _
      rw [lineReset_eq]
    rw [h1]
    cases s.answer.failed
    · exact .inl rfl
    · exact .inr (.inl rfl)

/-- The recovery after an attempt makes no call when it is skipped (R181). -/
theorem recoverIfAllowed_does (k : AckClass) (s : State) :
    RecoveryDoes s (recoverIfAllowed k s)
      (if s.isLastAttempt = false ∨ s.cfg.recoverOnLastAttempt = true then 2 else 0) := by
  unfold recoverIfAllowed
  split
  · exact recover_does k s
  · exact ⟨⟨[], Does.refl s, by simp⟩, KeepsTxn.refl s, rfl, .inr rfl, .inl rfl⟩

/-! ### Attempts (R173) -/

/-- One turn of the loop. -/
theorem attempts_succ (n : Nat) (s : State) : attempts (n + 1) s =
    (match attemptFrame s with
    | (.error e, s1) => (.error e, s1)
    | (.ok .ok, s1) => (.ok (), s1)
    | (.ok c, s1) =>
      match recoverIfAllowed c s1 with
      | (.error e, s2) => (.error e, s2)
      | (.ok _, s2) => if s1.isLastAttempt then (.error (.raise .timeout), s2) else attempts n s2) := rfl

/-- One attempt: one call, counted once; the class is that of the latched bits and becomes the phase. -/
structure AttemptDoes (s : State) (r : Except Exit AckClass × State) : Prop where
  does : ∃ calls, Does (AttemptCall s.cfg s.eng.txn) s r.2 (isFailure r.1) calls ∧ calls.length ≤ 1
  ps : r.2.ps = s.ps
  txn : r.2.eng.txn = s.eng.txn
  followup : r.2.eng.followup = s.eng.followup
  result : (r.1 = .error .assert ∧ r.2 = s ∧
      requestFrame s.cfg s.eng.txn.port s.eng.txn.dir s.eng.txn.addr s.eng.txn.value = none) ∨
    (r.2.buf = .empty ∧ r.2.eng.attempt = s.eng.attempt + 1 ∧
      (r.1 = .error (.raise .probeSpecific) ∨
        ∃ k, r.1 = .ok k ∧ r.2.eng.phase = k.phase ∧ r.2.eng.ack.classify = k))

/-- An attempt with a frame `q` (R171, R172). -/
theorem attemptFrame_eq {s : State} {q : Seq}
    (hq : requestFrame s.cfg s.eng.txn.port s.eng.txn.dir s.eng.txn.addr s.eng.txn.value = some q) :
    attemptFrame s =
      match s.answer.sample s.wire.length q.io.length with
      | none => (.error (.raise .probeSpecific),
          (((s.called q.call).setAttempt (s.eng.attempt + 1)).setPhase .awaitAck).release)
      | some smp => (.ok (sampledAck s.cfg smp).classify,
          ((((s.called q.call).setAttempt (s.eng.attempt + 1)).latch s.eng.txn.dir smp).setPhase
            (sampledAck s.cfg smp).classify.phase).release) := by
  have h0 : sendRequest s = some
      (((((s.setPhase .request).setAttempt (s.eng.attempt + 1)).swdIo q)).setPhase .awaitAck) := by
    simp only [sendRequest]
    have : requestFrame ((s.setPhase .request).setAttempt (s.eng.attempt + 1)).cfg
        ((s.setPhase .request).setAttempt (s.eng.attempt + 1)).eng.txn.port
        ((s.setPhase .request).setAttempt (s.eng.attempt + 1)).eng.txn.dir
        ((s.setPhase .request).setAttempt (s.eng.attempt + 1)).eng.txn.addr
        ((s.setPhase .request).setAttempt (s.eng.attempt + 1)).eng.txn.value = some q := hq
    rw [this]
  simp only [attemptFrame, h0, takeAck, State.receive, State.setPhase_buf, State.swdIo_buf]
  have ha : ((s.setPhase .request).setAttempt (s.eng.attempt + 1)).answer = s.answer := rfl
  have hw : ((s.setPhase .request).setAttempt (s.eng.attempt + 1)).wire = s.wire := rfl
  rw [ha, hw]
  cases s.answer.sample s.wire.length q.io.length with
  | none => rfl
  | some smp =>
    show (Except.ok _, _) = _
    simp only [State.setPhase_eng, State.swdIo_eng, State.setAttempt_eng]
    cases s.eng.txn.dir <;> rfl

theorem attemptFrame_does (s : State) : AttemptDoes s (attemptFrame s) := by
  cases hq : requestFrame s.cfg s.eng.txn.port s.eng.txn.dir s.eng.txn.addr s.eng.txn.value with
  | none =>
    have h : attemptFrame s = (.error .assert, s) := by
      have : sendRequest s = none := by
        simp only [sendRequest]
        have : requestFrame ((s.setPhase .request).setAttempt (s.eng.attempt + 1)).cfg
          ((s.setPhase .request).setAttempt (s.eng.attempt + 1)).eng.txn.port
          ((s.setPhase .request).setAttempt (s.eng.attempt + 1)).eng.txn.dir
          ((s.setPhase .request).setAttempt (s.eng.attempt + 1)).eng.txn.addr
          ((s.setPhase .request).setAttempt (s.eng.attempt + 1)).eng.txn.value = none := hq
        rw [this]
      simp [attemptFrame, this]
    rw [h]
    exact ⟨⟨[], Does.refl s, by simp⟩, rfl, rfl, rfl, .inl ⟨rfl, rfl, hq⟩⟩
  | some q =>
    have h1 := Does.one (P := AttemptCall s.cfg s.eng.txn) s q.call (.inl ⟨q, hq, rfl⟩)
    rw [attemptFrame_eq hq]
    cases hs : s.answer.sample s.wire.length q.io.length with
    | none =>
      rw [(sample_eq_none_iff _ _ _).1 hs] at h1
      exact ⟨⟨[q.call], h1.congr_right rfl rfl rfl rfl rfl, by simp⟩, rfl, rfl, rfl,
        .inr ⟨rfl, rfl, .inl rfl⟩⟩
    | some smp =>
      have hf : s.answer.failed = false := by
        cases h : s.answer.failed with
        | false => rfl
        | true => rw [(sample_eq_none_iff _ _ _).2 h] at hs; cases hs
      rw [hf] at h1
      refine ⟨⟨[q.call], ?_, by simp⟩, ?_, ?_, ?_, .inr ⟨rfl, ?_, .inr ⟨_, rfl, ?_, ?_⟩⟩⟩
      · exact h1.congr_right (by simp) (by simp) (by simp) (by simp) (by simp)
      all_goals simp

/-- The most calls `n` attempts make (R187): three each, but for a last one whose recovery is skipped (R181). -/
def loopBound (c : Config) (n : Nat) : Nat := if c.recoverOnLastAttempt then 3 * n else 3 * n - 2

theorem le_loopBound {c : Config} {n m : Nat} (h : m ≤ 3 * n - 2) : m ≤ loopBound c n := by
  unfold loopBound; split <;> omega

/-- What the attempt loop can do with `n` of `MAX_ATTEMPTS` attempts left. -/
structure AttemptsDo (s : State) (r : Except Exit Unit × State) (n : Nat) : Prop where
  does : ∃ calls, Does (AttemptCall s.cfg s.eng.txn) s r.2 (isFailure r.1) calls ∧
    (r.1 = .ok () → calls.length ≤ 3 * n - 2) ∧ calls.length ≤ loopBound s.cfg n
  ps : r.2.ps = s.ps
  txn : r.2.eng.txn = s.eng.txn
  followup : r.2.eng.followup = s.eng.followup
  count : r.2.eng.attempt ≤ s.eng.attempt + n
  buf : r.2.buf = .empty ∨ r.2.buf = s.buf
  result : (r.1 = .ok () ∧ r.2.eng.phase = .ok ∧ r.2.eng.ack.classify = .ok) ∨ r.1 = .error (.raise .timeout) ∨
    r.1 = .error (.raise .probeSpecific) ∨ r.1 = .error (.raise .faultResponse) ∨
    r.1 = .error (.raise .incorrectParity) ∨
    r.1 = .error .assert ∧ (s.cfg.wf = false ∨
      requestFrame s.cfg s.eng.txn.port s.eng.txn.dir s.eng.txn.addr s.eng.txn.value = none)

theorem attempts_do (n : Nat) (s : State) (h : s.eng.attempt + n = Config.maxAttempts) :
    AttemptsDo s (attempts n s) n := by
  induction n generalizing s with
  | zero =>
    exact ⟨⟨[], Does.refl s, by simp⟩, rfl, rfl, rfl, by simp [attempts], .inr rfl, .inr (.inl rfl)⟩
  | succ n ih =>
    have ha := attemptFrame_does s
    unfold attempts
    cases hx : attemptFrame s with
    | mk r t =>
      rw [hx] at ha
      obtain ⟨calls, hd, hn⟩ := ha.does
      cases r with
      | error e =>
        have hb : t.buf = .empty ∨ t.buf = s.buf := by
          rcases ha.result with ⟨-, h2, -⟩ | ⟨h2, -⟩
          · exact .inr (congrArg State.buf h2)
          · exact .inl h2
        have hcnt : t.eng.attempt ≤ s.eng.attempt + (n + 1) := by
          rcases ha.result with ⟨-, h2, -⟩ | ⟨-, h2, -⟩
          · have : t = s := h2
            rw [this]; omega
          · have : t.eng.attempt = s.eng.attempt + 1 := h2
            omega
        refine ⟨⟨calls, by rw [isFailure_error (β := AckClass)]; exact hd, ?_⟩, ha.ps, ha.txn, ha.followup, hcnt, hb,
          ?_⟩
        · exact ⟨by simp, le_loopBound (by omega)⟩
        · rcases ha.result with ⟨h1, -, h3⟩ | ⟨-, -, h1 | ⟨k, h1, -⟩⟩
          · cases h1; exact .inr (.inr (.inr (.inr (.inr ⟨rfl, .inr h3⟩))))
          · cases h1; exact .inr (.inr (.inl rfl))
          · cases h1
      | ok k =>
        rcases ha.result with ⟨h1, -⟩ | ⟨hbuf, hatt, h1 | ⟨k', h1, hph, hak⟩⟩
        · cases h1
        · cases h1
        · cases h1
          have hatt' : t.eng.attempt = s.eng.attempt + 1 := hatt
          have hcfg : t.cfg = s.cfg := hd.cfg
          by_cases hk : k = .ok
          · subst hk
            exact ⟨⟨calls, hd, by intro _; omega, le_loopBound (by omega)⟩, ha.ps, ha.txn, ha.followup,
              by show t.eng.attempt ≤ _; omega, .inl hbuf, .inl ⟨rfl, hph, hak⟩⟩
          · have hrec := recoverIfAllowed_does k t
            have key : AttemptsDo s
                (match recoverIfAllowed k t with
                | (.error e, s2) => (.error e, s2)
                | (.ok _, s2) =>
                  if t.isLastAttempt then (.error (.raise .timeout), s2) else attempts n s2) (n + 1) := by
              obtain ⟨c2, hd2, hn2⟩ := hrec.does
              replace hd2 := hd2.mono (Q := AttemptCall s.cfg s.eng.txn) (fun k hk => .inr (hcfg ▸ hk))
              have hk2 := hrec.keeps
              have hb2 := hrec.buf
              have hr2 := hrec.result
              rw [hcfg] at hn2 hr2
              cases hy : recoverIfAllowed k t with
              | mk r2 u =>
                rw [hy] at hd2 hk2 hb2 hr2
                have hbu : u.buf = .empty ∨ u.buf = s.buf := by
                  rcases hb2 with h | h
                  · exact .inl h
                  · rw [show u = t from h]; exact .inl hbuf
                have hps : u.ps = s.ps := hk2.ps.trans ha.ps
                have htx : u.eng.txn = s.eng.txn := hk2.txn.trans ha.txn
                have hfu : u.eng.followup = s.eng.followup := hk2.followup.trans ha.followup
                have hua : u.eng.attempt = s.eng.attempt + 1 := hk2.attempt.trans hatt'
                cases r2 with
                | error e =>
                  refine ⟨⟨calls ++ c2, Does.trans hd (by rw [isFailure_error (β := Unit)]; exact hd2), ?_⟩, hps, htx,
                    hfu, by show u.eng.attempt ≤ _; omega, hbu, ?_⟩
                  · refine ⟨by simp, ?_⟩
                    rw [List.length_append]
                    cases hl : t.isLastAttempt with
                    | true =>
                      have hn2' : c2.length ≤ if s.cfg.recoverOnLastAttempt then 2 else 0 := by
                        simpa [hl] using hn2
                      unfold loopBound
                      cases hrl : s.cfg.recoverOnLastAttempt <;> simp only [hrl, if_true, if_false,
                        Bool.false_eq_true] at hn2' ⊢ <;> omega
                    | false =>
                      have : n ≠ 0 := by
                        intro h0
                        subst h0
                        simp [State.isLastAttempt, hatt', h] at hl
                      simp [hl] at hn2
                      unfold loopBound
                      split <;> omega
                  · rcases hr2 with h1 | h1 | h1 | h1 | ⟨h1, h2⟩
                    · cases h1
                    · cases h1; exact .inr (.inr (.inl rfl))
                    · cases h1; exact .inr (.inr (.inr (.inl rfl)))
                    · cases h1; exact .inr (.inr (.inr (.inr (.inl rfl))))
                    · cases h1; exact .inr (.inr (.inr (.inr (.inr ⟨rfl, .inl h2⟩))))
                | ok _ =>
                  cases hl : t.isLastAttempt with
                  | true =>
                    refine ⟨⟨calls ++ c2, Does.trans hd hd2, ?_⟩, hps, htx, hfu,
                      by show u.eng.attempt ≤ _; omega, hbu, .inr (.inl rfl)⟩
                    have hn2' : c2.length ≤ if s.cfg.recoverOnLastAttempt then 2 else 0 := by
                      simpa [hl] using hn2
                    refine ⟨by simp, ?_⟩
                    rw [List.length_append]
                    unfold loopBound
                    cases hrl : s.cfg.recoverOnLastAttempt <;> simp only [hrl, if_true, if_false,
                      Bool.false_eq_true] at hn2' ⊢ <;> omega
                  | false =>
                    have hn0 : n ≠ 0 := by
                      intro h0
                      subst h0
                      simp [State.isLastAttempt, hatt', h] at hl
                    have hi := ih u (by omega)
                    obtain ⟨c3, hd3, hn3⟩ := hi.does
                    rw [hd2.cfg.trans hcfg, htx] at hd3
                    have hres := hi.result
                    rw [hd2.cfg.trans hcfg, htx] at hres
                    rw [hd2.cfg.trans hcfg] at hn3
                    simp only [hl] at hn2
                    simp only [Bool.false_eq_true, if_false]
                    refine ⟨⟨calls ++ (c2 ++ c3), Does.trans hd (Does.trans hd2 hd3), ?_⟩, hi.ps.trans hps,
                      hi.txn.trans htx, hi.followup.trans hfu, by have := hi.count; omega, ?_, hres⟩
                    · simp at hn2
                      simp only [List.length_append]
                      refine ⟨fun h => ?_, ?_⟩
                      · have := hn3.1 h
                        omega
                      · have := hn3.2
                        unfold loopBound at this ⊢
                        split at this <;> simp_all <;> omega
                    · rcases hi.buf with h | h
                      · exact .inl h
                      · rw [h]; exact hbu
            cases k with
            | ok => exact absurd rfl hk
            | wait => exact key
            | fault => exact key
            | noAck => exact key

/-! ### `dap_access` (R173) -/

/-- The most calls an engine operation makes (R187): for a write or a Debug Port read those of one attempt loop, for an
Access Port read those of a loop that succeeds and of the follow-up. -/
def callBound (c : Config) (t : Txn) : Nat :=
  (match t.dir, t.port with
    | .read, .ap => 13
    | _, _ => 0) + loopBound c Config.maxAttempts

/-- The frame of a Transaction is wanting only outside the contract or outside the constraints of R4. -/
theorem requestFrame_eq_none {c : Config} {t : Txn}
    (h : requestFrame c t.port t.dir t.addr t.value = none) : c.wf = false ∨ offsetAligned t.addr = false := by
  cases hc : c.wf with
  | false => exact .inl rfl
  | true =>
    cases ha : offsetAligned t.addr with
    | false => exact .inr rfl
    | true =>
      obtain ⟨q, hq⟩ := requestFrame_isSome hc ha t.port t.dir t.value
      rw [hq] at h; cases h

/-- Everything `dap_access` can do. -/
structure DapDoes (t : Txn) (s : State) (r : Except Exit Word × State) : Prop where
  does : ∃ calls, Does (EngineCall s.cfg t) s r.2 (isFailure r.1) calls ∧ calls.length ≤ callBound s.cfg t
  ps : r.2.ps = s.ps
  buf : r.2.buf = .empty ∨ r.2.buf = s.buf
  index : r.2.eng.txn.apidx = t.apidx
  result : (∃ v, r.1 = .ok v) ∨ r.1 = .error (.raise .timeout) ∨
    r.1 = .error (.raise .probeSpecific) ∨ r.1 = .error (.raise .faultResponse) ∨
    r.1 = .error (.raise .incorrectParity) ∨
    r.1 = .error .assert ∧ (s.cfg.wf = false ∨ offsetAligned t.addr = false)

theorem checkedData_cases (s : State) :
    (s.eng.parityOk = true ∧ checkedData s = (.ok s.eng.data, s)) ∨
    (s.eng.parityOk = false ∧ checkedData s = (.error (.raise .incorrectParity), s)) := by
  unfold checkedData
  cases s.eng.parityOk <;> simp

/-- What `DapDoes` says of a result is said of it at the end of the operation too. -/
theorem DapDoes.endPhase {t : Txn} {s : State} {r : Except Exit Word × State} (h : DapDoes t s r) :
    DapDoes t s (endPhase r) := by
  obtain ⟨calls, hd, hn⟩ := h.does
  rcases r with ⟨_ | v, u⟩
  · exact ⟨⟨calls, hd.congr_right rfl rfl rfl rfl rfl, hn⟩, h.ps, h.buf, h.index, h.result⟩
  · exact ⟨⟨calls, hd.congr_right rfl rfl rfl rfl rfl, hn⟩, h.ps, h.buf, h.index, h.result⟩

theorem AttemptsDo.result_error {s u : State} {e : Exit} {n : Nat}
    (h : AttemptsDo s (.error e, u) n) :
    e = .raise .timeout ∨ e = .raise .probeSpecific ∨ e = .raise .faultResponse ∨ e = .raise .incorrectParity ∨
      e = .assert ∧ (s.cfg.wf = false ∨ offsetAligned s.eng.txn.addr = false) := by
  rcases h.result with ⟨h1, -⟩ | h1 | h1 | h1 | h1 | ⟨h1, h2⟩
  · cases h1
  · cases h1; exact .inl rfl
  · cases h1; exact .inr (.inl rfl)
  · cases h1; exact .inr (.inr (.inl rfl))
  · cases h1; exact .inr (.inr (.inr (.inl rfl)))
  · cases h1
    refine .inr (.inr (.inr (.inr ⟨rfl, ?_⟩)))
    rcases h2 with h2 | h2
    · exact .inl h2
    · exact requestFrame_eq_none h2

theorem followUpRead_does (s : State) :
    ∃ calls, Does (AttemptCall s.cfg (followUpTxn s.cfg s.eng.txn)) s (followUpRead s).2 (isFailure (followUpRead s).1) calls ∧
      calls.length ≤ loopBound s.cfg Config.maxAttempts ∧
      (followUpRead s).2.ps = s.ps ∧
      ((followUpRead s).2.buf = .empty ∨ (followUpRead s).2.buf = s.buf) ∧
      (followUpRead s).2.eng.txn.apidx = s.eng.txn.apidx ∧
      ((∃ v, (followUpRead s).1 = .ok v) ∨ (followUpRead s).1 = .error (.raise .timeout) ∨
        (followUpRead s).1 = .error (.raise .probeSpecific) ∨ (followUpRead s).1 = .error (.raise .faultResponse) ∨
        (followUpRead s).1 = .error (.raise .incorrectParity) ∨
        (followUpRead s).1 = .error .assert ∧ s.cfg.wf = false) := by
  unfold followUpRead
  have h := attempts_do Config.maxAttempts ((s.setPhase .followUp).loadTxn (followUpTxn s.cfg s.eng.txn) true)
    (by simp)
  cases hx : attempts Config.maxAttempts ((s.setPhase .followUp).loadTxn (followUpTxn s.cfg s.eng.txn) true) with
  | mk r u =>
    rw [hx] at h
    obtain ⟨calls, hd, hn⟩ := h.does
    have hidx : u.eng.txn.apidx = s.eng.txn.apidx := by
      rw [show u.eng.txn = followUpTxn s.cfg s.eng.txn from h.txn]; rfl
    have hd0 : ∀ b, Does (AttemptCall s.cfg (followUpTxn s.cfg s.eng.txn))
        ((s.setPhase .followUp).loadTxn (followUpTxn s.cfg s.eng.txn) true) u b calls →
        Does (AttemptCall s.cfg (followUpTxn s.cfg s.eng.txn)) s u b calls := fun b h => h.congr_left rfl rfl rfl rfl rfl
    have hn' : calls.length ≤ loopBound s.cfg Config.maxAttempts := hn.2
    cases r with
    | error e =>
      refine ⟨calls, by rw [isFailure_error (β := Unit)]; exact hd0 _ hd, hn', h.ps, h.buf, hidx, ?_⟩
      · have hal : ∀ c : Config, c.wf = false ∨ offsetAligned (followUpTxn c s.eng.txn).addr = false → c.wf = false := by
          intro c hc
          rcases hc with hc | hc
          · exact hc
          · cases hw : c.wf with
            | false => rfl
            | true =>
              have := offsetAligned_of_extract ((Config.wf_iff c).1 hw).2.2.2.2.2.1
              rw [show (followUpTxn c s.eng.txn).addr = c.addrRdbuff from rfl, this] at hc
              cases hc
        rcases h.result_error with h1 | h1 | h1 | h1 | ⟨h1, h2⟩
        · exact .inr (.inl (by rw [h1]))
        · exact .inr (.inr (.inl (by rw [h1])))
        · exact .inr (.inr (.inr (.inl (by rw [h1]))))
        · exact .inr (.inr (.inr (.inr (.inl (by rw [h1])))))
        · exact .inr (.inr (.inr (.inr (.inr ⟨by rw [h1], hal _ h2⟩))))
    | ok _ =>
      dsimp only
      rcases checkedData_cases u with ⟨-, hc⟩ | ⟨-, hc⟩
      · rw [hc]
        exact ⟨calls, hd0 _ hd, hn', h.ps, h.buf, hidx, .inl ⟨_, rfl⟩⟩
      · rw [hc]
        exact ⟨calls, hd0 _ hd, hn', h.ps, h.buf, hidx, .inr (.inr (.inr (.inr (.inl rfl))))⟩

theorem dapAccess_does (t : Txn) (s : State) : DapDoes t s (dapAccess t s) := by
  have h := attempts_do Config.maxAttempts (s.loadTxn t false) (by simp)
  unfold dapAccess
  cases hx : attempts Config.maxAttempts (s.loadTxn t false) with
  | mk r u =>
    rw [hx] at h
    obtain ⟨calls, hd, hn⟩ := h.does
    have hd0 : ∀ b, Does (AttemptCall s.cfg t) (s.loadTxn t false) u b calls → Does (EngineCall s.cfg t) s u b calls :=
      fun b h => Does.mono (P := AttemptCall s.cfg t) (h.congr_left rfl rfl rfl rfl rfl) fun k hk => Or.inl hk
    have hn' : calls.length ≤ loopBound s.cfg Config.maxAttempts := hn.2
    cases r with
    | error e =>
      apply DapDoes.endPhase
      refine ⟨⟨calls, by rw [isFailure_error (β := Unit)]; exact hd0 _ hd, ?_⟩, h.ps, h.buf, congrArg Txn.apidx h.txn, ?_⟩
      · unfold callBound; omega
      · rcases h.result_error with h1 | h1 | h1 | h1 | ⟨h1, h2⟩
        · exact .inr (.inl (by rw [h1]))
        · exact .inr (.inr (.inl (by rw [h1])))
        · exact .inr (.inr (.inr (.inl (by rw [h1]))))
        · exact .inr (.inr (.inr (.inr (.inl (by rw [h1])))))
        · exact .inr (.inr (.inr (.inr (.inr ⟨by rw [h1], h2⟩))))
    | ok _ =>
      apply DapDoes.endPhase
      have hn13 : calls.length ≤ 13 := hn.1 rfl
      have htx : u.eng.txn = t := h.txn
      have hle : calls.length ≤ callBound s.cfg t := by
        unfold callBound
        omega
      have hdu := hd0 _ hd
      unfold afterOk
      rw [htx]
      rcases t with ⟨p, x, d, a, v⟩
      cases d with
      | write => exact ⟨⟨calls, hdu, hle⟩, h.ps, h.buf, congrArg Txn.apidx h.txn, .inl ⟨_, rfl⟩⟩
      | read =>
        cases p with
        | dp =>
          dsimp only
          rcases checkedData_cases u with ⟨-, hc⟩ | ⟨-, hc⟩
          · rw [hc]
            exact ⟨⟨calls, hdu, hle⟩, h.ps, h.buf, congrArg Txn.apidx h.txn, .inl ⟨_, rfl⟩⟩
          · rw [hc]
            exact ⟨⟨calls, hdu, hle⟩, h.ps, h.buf, congrArg Txn.apidx h.txn, .inr (.inr (.inr (.inr (.inl rfl))))⟩
        | ap =>
          dsimp only
          obtain ⟨c2, hd2, hn2, hps2, hb2, hx2, hr2⟩ := followUpRead_does u
          have hcfg : u.cfg = s.cfg := hd.cfg
          rw [hcfg] at hn2 hr2 hd2
          rw [htx] at hd2
          refine ⟨⟨calls ++ c2, Does.trans hdu (hd2.mono fun k hk => .inr ⟨rfl, rfl, hk⟩), ?_⟩, hps2.trans h.ps, ?_,
            hx2.trans (by rw [htx]), ?_⟩
          · simp only [callBound, List.length_append]; omega
          · rcases hb2 with hb | hb
            · exact .inl hb
            · rw [hb]; exact h.buf
          · rcases hr2 with h1 | h1 | h1 | h1 | h1 | ⟨h1, h2⟩
            · exact .inl h1
            · exact .inr (.inl h1)
            · exact .inr (.inr (.inl h1))
            · exact .inr (.inr (.inr (.inl h1)))
            · exact .inr (.inr (.inr (.inr (.inl h1))))
            · exact .inr (.inr (.inr (.inr (.inr ⟨h1, .inl h2⟩))))

/-- An attempt loop whose request has a frame makes a call (R187). -/
theorem attempts_calls_pos {s : State} {n : Nat} {q : Seq}
    (hq : requestFrame s.cfg s.eng.txn.port s.eng.txn.dir s.eng.txn.addr s.eng.txn.value = some q)
    (h : s.eng.attempt + (n + 1) = Config.maxAttempts) : s.wire.length < (attempts (n + 1) s).2.wire.length := by
  have hone : ∃ r u, attemptFrame s = (r, u) ∧ u.wire = s.wire ++ [q.call] ∧ u.eng.attempt = s.eng.attempt + 1 := by
    rw [attemptFrame_eq hq]
    cases s.answer.sample s.wire.length q.io.length with
    | none => exact ⟨_, _, rfl, rfl, rfl⟩
    | some smp => exact ⟨_, _, rfl, by simp, by simp⟩
  obtain ⟨r, u, hu, hw, ha⟩ := hone
  have hlen : s.wire.length < u.wire.length := by rw [hw]; simp
  rw [attempts_succ, hu]
  rcases r with e | k
  · exact hlen
  · have hrec : ∀ k, u.wire.length ≤ (recoverIfAllowed k u).2.wire.length ∧ (recoverIfAllowed k u).2.eng.attempt = u.eng.attempt := by
      intro k
      have := recoverIfAllowed_does k u
      obtain ⟨calls, hd, -⟩ := this.does
      exact ⟨by rw [hd.wire]; simp, this.keeps.attempt⟩
    have key : ∀ k, s.wire.length < (match recoverIfAllowed k u with
      | (.error e, s2) => ((.error e, s2) : Except Exit Unit × State)
      | (.ok _, s2) => if u.isLastAttempt then (.error (.raise .timeout), s2) else attempts n s2).2.wire.length := by
      intro k
      obtain ⟨h1, h2⟩ := hrec k
      cases hx : recoverIfAllowed k u with
      | mk r2 w =>
        rw [hx] at h1 h2
        have h1 : u.wire.length ≤ w.wire.length := h1
        have h2 : w.eng.attempt = u.eng.attempt := h2
        rcases r2 with e | _
        · show _ < w.wire.length; omega
        · dsimp only
          split
          · show _ < w.wire.length; omega
          · obtain ⟨calls, hd, -⟩ := (attempts_do n w (by omega)).does
            rw [hd.wire, List.length_append]; omega
    cases k with
    | ok => exact hlen
    | wait => exact key _
    | fault => exact key _
    | noAck => exact key _

end Sys2Proof.Machine
end

