-- ==== Sys2Proof/Laws/Jtag.lean ====
section
/-! SUPPORT. What each procedure of the JTAG path can do, one lemma each that says everything: the calls it makes, what
it does to the instruction-register cache, what it leaves alone, and its result. -/

namespace Sys2Proof.Machine

/-! ### Checks and frames -/

/-- The contract check of a JTAG command and the limit on `irlen` together are what `check_ir` (R221) passes. -/
theorem jtagEncIr_eq_ok {v : BitVec 8} {len : Nat} (hc : irContract v len = true) (hl : len ≤ Config.maxIrLen) :
    jtagEncIr v len = .ok (irFrame v len) := by
  have h8 : ¬ Config.maxIrLen < len := by omega
  simp only [irContract, h8, decide_false, Bool.false_or, Bool.and_eq_true, decide_eq_true_eq] at hc
  have h0 : len ≠ 0 := by omega
  simp [jtagEncIr, checkIr, h0, h8, hc.2]

/-- Outside the contract `check_ir` is an `assert` (R221). -/
theorem jtagEncIr_assert {v : BitVec 8} {len : Nat} (hc : irContract v len = false) :
    jtagEncIr v len = .error .assert := by
  simp only [irContract, Bool.and_eq_false_iff, Bool.or_eq_false_iff, decide_eq_false_iff_not] at hc
  rcases hc with h0 | ⟨h8, hv⟩
  · simp [jtagEncIr, checkIr, show len = 0 by omega]
  · by_cases h0 : len = 0
    · simp [jtagEncIr, checkIr, h0]
    · simp [jtagEncIr, checkIr, h0, h8, hv]

/-- A length above 8 is not implemented (R221). -/
theorem jtagEncIr_long {v : BitVec 8} {len : Nat} (h : 8 < len) :
    jtagEncIr v len = .error (.raise .notImplemented) := by
  simp [jtagEncIr, checkIr, show len ≠ 0 by omega, show Config.maxIrLen < len from h]

theorem irFrame_legal (c : Config) {v : BitVec 8} {len : Nat} (h : jtagEncIr v len = .ok (irFrame v len)) :
    (irFrame v len).call.Legal c := .inl ⟨v, len, h⟩

theorem jtagEncDr_legal {c : Config} {bytes : List Byte} {n : Nat} {q : JSeq} (h : jtagEncDr c bytes n = some q) :
    q.call.Legal c := .inr (.inl ⟨bytes, n, h⟩)

theorem jtagEncIdle_legal (c : Config) {n : Nat} {q : JSeq} (h : jtagEncIdle n = some q) : q.call.Legal c :=
  .inr (.inr ⟨n, h⟩)

/-- A data-register frame exists exactly inside the contract (R151). -/
theorem jtagEncDr_eq_some_iff (c : Config) (bytes : List Byte) (n : Nat) (q : JSeq) :
    jtagEncDr c bytes n = some q ↔
      drContract c n = true ∧ bytes.length = ceilDiv8 n ∧ q = drFrame (unpackAll bytes n) := by
  unfold jtagEncDr unpackBits
  cases hd : drContract c n with
  | false => simp
  | true =>
    by_cases hb : bytes.length = ceilDiv8 n
    · simp [hb, eq_comm]
    · simp [hb]

/-! ### One call -/

/-- `jtag_io` and the release of its buffers: one call, its answer sampled (R105). -/
theorem jtagShift_eq (q : JSeq) (s : State) :
    jtagShift q s = (s.answer.sample s.wire.length q.tms.length, (s.called q.call).release) := rfl

/-! ### Procedures -/

/-- What a procedure of the JTAG path can do: at most `n` calls; it returns or a transport call failed; the engine
latches and the other probe-state registers are as before. -/
structure JtagDoes {α : Type} (s : State) (r : Except Exit α × State) (n : Nat) : Prop where
  does : ∃ calls, Does (Call.Legal s.cfg) s r.2 (isFailure r.1) calls ∧ calls.length ≤ n
  eng : r.2.eng = s.eng
  protocol : r.2.ps.selectedProtocol = s.ps.selectedProtocol
  speed : r.2.ps.speedKhz = s.ps.speedKhz
  idleCycles : r.2.ps.jtagIdleCycles = s.ps.jtagIdleCycles
  buf : r.2.buf = .empty ∨ r.2.buf = s.buf
  result : (∃ a, r.1 = .ok a) ∨ r.1 = .error (.raise .probeSpecific)

/-- Everything `jtag_idle` (R222) can do; it leaves the cache alone when it returns and invalidates it when it raises. -/
theorem jtagIdle_does (s : State) :
    JtagDoes s (jtagIdle s) 1 ∧
      ((jtagIdle s).1 = .ok () ∧ (jtagIdle s).2.ps = s.ps ∨
       (jtagIdle s).1 = .error (.raise .probeSpecific) ∧ (jtagIdle s).2.ps.currentIrRegister = none) := by
  unfold jtagIdle
  cases hq : jtagEncIdle s.ps.jtagIdleCycles with
  | none =>
    exact ⟨⟨⟨[], Does.refl s, by simp⟩, rfl, rfl, rfl, rfl, .inr rfl, .inl ⟨_, rfl⟩⟩, .inl ⟨rfl, rfl⟩⟩
  | some q =>
    have h1 := Does.one (P := Call.Legal s.cfg) s q.call (jtagEncIdle_legal s.cfg hq)
    simp only [jtagShift_eq]
    cases hs : s.answer.sample s.wire.length q.tms.length with
    | none =>
      rw [(sample_eq_none_iff _ _ _).1 hs] at h1
      exact ⟨⟨⟨_, h1.congr_right rfl rfl rfl rfl rfl, by simp⟩, rfl, rfl, rfl, rfl, .inl rfl, .inr rfl⟩,
        .inr ⟨rfl, rfl⟩⟩
    | some v =>
      have hf : s.answer.failed = false := by
        cases h : s.answer.failed with
        | false => rfl
        | true => rw [(sample_eq_none_iff _ _ _).2 h] at hs; cases hs
      rw [hf] at h1
      exact ⟨⟨⟨_, h1.congr_right rfl rfl rfl rfl rfl, by simp⟩, rfl, rfl, rfl, rfl, .inl rfl, .inl ⟨_, rfl⟩⟩,
        .inl ⟨rfl, rfl⟩⟩

/-- Everything `write_ir` (R221) can do when its check has passed: the cache holds `v` exactly when it returns. -/
theorem writeIr_does {v : BitVec 8} {len : Nat} (s : State) (hq : jtagEncIr v len = .ok (irFrame v len)) :
    JtagDoes s (writeIr v len s) 2 ∧
      ((writeIr v len s).1 = .ok () ∧ (writeIr v len s).2.ps.currentIrRegister = some v ∨
       (writeIr v len s).1 = .error (.raise .probeSpecific) ∧ (writeIr v len s).2.ps.currentIrRegister = none) := by
  unfold writeIr
  simp only [hq, jtagShift_eq]
  have h1 : Does (Call.Legal s.cfg) s ((s.setIr none).called (irFrame v len).call) s.answer.failed [(irFrame v len).call] :=
    (Does.one (s.setIr none) _ (irFrame_legal _ hq)).congr_left rfl rfl rfl rfl rfl
  have ha : (s.setIr none).answer = s.answer := rfl
  have hw : (s.setIr none).wire = s.wire := rfl
  rw [ha, hw]
  cases hs : s.answer.sample s.wire.length (irFrame v len).tms.length with
  | none =>
    rw [(sample_eq_none_iff _ _ _).1 hs] at h1
    exact ⟨⟨⟨_, h1.congr_right rfl rfl rfl rfl rfl, by simp⟩, rfl, rfl, rfl, rfl, .inl rfl, .inr rfl⟩, .inr ⟨rfl, rfl⟩⟩
  | some tdo =>
    have hf : s.answer.failed = false := by
      cases h : s.answer.failed with
      | false => rfl
      | true => rw [(sample_eq_none_iff _ _ _).2 h] at hs; cases hs
    rw [hf] at h1
    have h2 := h1.congr_right (u := ((s.setIr none).called (irFrame v len).call).release) rfl rfl rfl rfl rfl
    obtain ⟨hj, hres⟩ := jtagIdle_does ((s.setIr none).called (irFrame v len).call).release
    obtain ⟨calls, hd, hn⟩ := hj.does
    dsimp only
    cases hx : jtagIdle ((s.setIr none).called (irFrame v len).call).release with
    | mk r u =>
      rw [hx] at hd hj hres
      have hbuf : u.buf = .empty := by
        rcases hj.buf with h | h
        · exact h
        · exact h
      rcases hres with ⟨h3, h4⟩ | ⟨h3, h4⟩
      · cases h3
        exact ⟨⟨⟨_, (Does.trans h2 hd).congr_right rfl rfl rfl rfl rfl, by simp; omega⟩, hj.eng, hj.protocol, hj.speed,
          hj.idleCycles, .inl hbuf, .inl ⟨_, rfl⟩⟩, .inl ⟨rfl, rfl⟩⟩
      · cases h3
        exact ⟨⟨⟨_, Does.trans h2 hd, by simp; omega⟩, hj.eng, hj.protocol, hj.speed,
          hj.idleCycles, .inl hbuf, .inr rfl⟩, .inr ⟨rfl, h4⟩⟩

/-- Everything `ensure_ir` (R221) can do. -/
theorem ensureIr_does {v : BitVec 8} {len : Nat} (s : State) (hq : jtagEncIr v len = .ok (irFrame v len)) :
    JtagDoes s (ensureIr v len s) 2 ∧
      ((ensureIr v len s).1 = .ok () ∧ (ensureIr v len s).2.ps.currentIrRegister = some v ∨
       (ensureIr v len s).1 = .error (.raise .probeSpecific) ∧ (ensureIr v len s).2.ps.currentIrRegister = none) := by
  unfold ensureIr
  split
  · next h =>
    exact ⟨⟨⟨[], Does.refl s, by simp⟩, rfl, rfl, rfl, rfl, .inr rfl, .inl ⟨_, rfl⟩⟩, .inl ⟨rfl, h⟩⟩
  · exact writeIr_does s hq

/-- Everything `shift_dr` (R226) can do when its frame exists. -/
theorem shiftDr_does {bytes : List Byte} {n : Nat} {q : JSeq} (s : State) (hq : jtagEncDr s.cfg bytes n = some q) :
    JtagDoes s (shiftDr bytes n s) 2 ∧
      ((∃ bs, (shiftDr bytes n s).1 = .ok bs) ∧ (shiftDr bytes n s).2.ps = s.ps ∨
       (shiftDr bytes n s).1 = .error (.raise .probeSpecific) ∧
        (shiftDr bytes n s).2.ps.currentIrRegister = none) := by
  unfold shiftDr
  simp only [hq, jtagShift_eq]
  have h1 := Does.one (P := Call.Legal s.cfg) s q.call (jtagEncDr_legal hq)
  cases hs : s.answer.sample s.wire.length q.tms.length with
  | none =>
    rw [(sample_eq_none_iff _ _ _).1 hs] at h1
    exact ⟨⟨⟨_, h1.congr_right rfl rfl rfl rfl rfl, by simp⟩, rfl, rfl, rfl, rfl, .inl rfl, .inr rfl⟩, .inr ⟨rfl, rfl⟩⟩
  | some tdo =>
    have hf : s.answer.failed = false := by
      cases h : s.answer.failed with
      | false => rfl
      | true => rw [(sample_eq_none_iff _ _ _).2 h] at hs; cases hs
    rw [hf] at h1
    have h2 := h1.congr_right (u := (s.called q.call).release) rfl rfl rfl rfl rfl
    obtain ⟨hj, hres⟩ := jtagIdle_does (s.called q.call).release
    obtain ⟨calls, hd, hn⟩ := hj.does
    dsimp only
    cases hx : jtagIdle (s.called q.call).release with
    | mk r u =>
      rw [hx] at hd hj hres
      have hbuf : u.buf = .empty := by
        rcases hj.buf with h | h
        · exact h
        · exact h
      rcases hres with ⟨h3, h4⟩ | ⟨h3, h4⟩
      · cases h3
        exact ⟨⟨⟨_, Does.trans h2 hd, by simp; omega⟩, hj.eng, hj.protocol, hj.speed,
          hj.idleCycles, .inl hbuf, .inl ⟨_, rfl⟩⟩, .inl ⟨⟨_, rfl⟩, h4⟩⟩
      · cases h3
        exact ⟨⟨⟨_, Does.trans h2 hd, by simp; omega⟩, hj.eng, hj.protocol, hj.speed,
          hj.idleCycles, .inl hbuf, .inr rfl⟩, .inr ⟨rfl, h4⟩⟩

/-- Everything `JTAG.RD` and `JTAG.WR` execute after their checks can do (R219, R220). -/
theorem jtagAccess_does {v : BitVec 8} {len : Nat} {bytes : List Byte} {n : Nat} {q : JSeq} (s : State)
    (hi : jtagEncIr v len = .ok (irFrame v len)) (hq : jtagEncDr s.cfg bytes n = some q) :
    JtagDoes s (jtagAccess v len bytes n s) 4 ∧
      ((∃ bs, (jtagAccess v len bytes n s).1 = .ok bs) ∧
        (jtagAccess v len bytes n s).2.ps.currentIrRegister = some v ∨
       (jtagAccess v len bytes n s).1 = .error (.raise .probeSpecific) ∧
        (jtagAccess v len bytes n s).2.ps.currentIrRegister = none) := by
  unfold jtagAccess
  obtain ⟨he, hres⟩ := ensureIr_does s hi
  obtain ⟨calls, hd, hn⟩ := he.does
  cases hx : ensureIr v len s with
  | mk r t =>
    rw [hx] at hd he hres
    rcases hres with ⟨h3, h4⟩ | ⟨h3, h4⟩
    · cases h3
      have hcfg : t.cfg = s.cfg := hd.cfg
      obtain ⟨hs, hres2⟩ := shiftDr_does (bytes := bytes) (n := n) (q := q) t (by rw [hcfg]; exact hq)
      obtain ⟨c2, hd2, hn2⟩ := hs.does
      rw [hcfg] at hd2
      refine ⟨⟨⟨_, Does.trans hd hd2, by simp; omega⟩, hs.eng.trans he.eng, hs.protocol.trans he.protocol,
        hs.speed.trans he.speed, hs.idleCycles.trans he.idleCycles, ?_, hs.result⟩, ?_⟩
      · rcases hs.buf with h | h
        · exact .inl h
        · rw [h]; exact he.buf
      · rcases hres2 with ⟨h5, h6⟩ | h5
        · refine .inl ⟨h5, ?_⟩
          rw [h6]; exact h4
        · exact .inr h5
    · cases h3
      exact ⟨⟨⟨_, hd, by omega⟩, he.eng, he.protocol, he.speed, he.idleCycles, he.buf, .inr rfl⟩, .inr ⟨rfl, h4⟩⟩

theorem drContract_iff (c : Config) (n : Nat) :
    drContract c n = true ↔ 1 ≤ n ∧ ∀ m, c.maxDrBits = some m → n ≤ m := by
  unfold drContract
  cases c.maxDrBits <;> simp

theorem irContract_of {v : BitVec 8} {len : Nat} (h1 : 1 ≤ len) (hv : v.toNat < 2 ^ len) :
    irContract v len = true := by
  simp [irContract, h1, hv]

/-- `write_ir` makes its frame first (R221). -/
theorem writeIr_wire {s : State} {v : BitVec 8} {len : Nat} (hq : jtagEncIr v len = .ok (irFrame v len)) : ∃ rest, (writeIr v len s).2.wire = s.wire ++ (irFrame v len).call :: rest := by
  unfold writeIr
  rw [hq]
  dsimp only
  rw [jtagShift_eq]
  cases (s.setIr none).answer.sample (s.setIr none).wire.length (irFrame v len).tms.length with
  | none => exact ⟨[], rfl⟩
  | some w =>
    dsimp only
    obtain ⟨h, -⟩ := jtagIdle_does ((s.setIr none).called (irFrame v len).call).release
    obtain ⟨calls, hd, -⟩ := h.does
    refine ⟨calls, ?_⟩
    have hw := hd.wire
    cases hx : jtagIdle ((s.setIr none).called (irFrame v len).call).release with
    | mk r u =>
      rw [hx] at hw
      rcases r with e | _
      · show u.wire = _
        rw [show u.wire = _ from hw]; simp
      · show u.wire = _
        rw [show u.wire = _ from hw]; simp

/-- Where the cache does not hold the value, the instruction-register frame is made first (R221). -/
theorem jtagAccess_wire {s : State} {v : BitVec 8} {len : Nat} {bytes : List Byte} {n : Nat} {q : JSeq} (hi : jtagEncIr v len = .ok (irFrame v len)) (hq : jtagEncDr s.cfg bytes n = some q)
    (hne : s.ps.currentIrRegister ≠ some v) : ∃ rest, (jtagAccess v len bytes n s).2.wire = s.wire ++ (irFrame v len).call :: rest := by
  unfold jtagAccess ensureIr
  rw [if_neg hne]
  obtain ⟨rest, hr⟩ := writeIr_wire (s := s) hi
  obtain ⟨hj, -⟩ := writeIr_does s hi
  obtain ⟨c, hd, -⟩ := hj.does
  have hcfg := hd.cfg
  cases hx : writeIr v len s with
  | mk r u =>
    rw [hx] at hr hcfg
    rcases r with e | _
    · exact ⟨rest, hr⟩
    · dsimp only
      obtain ⟨h, -⟩ := shiftDr_does (bytes := bytes) (n := n) (q := q) u (by rw [show u.cfg = s.cfg from hcfg]; exact hq)
      obtain ⟨calls, hd, -⟩ := h.does
      refine ⟨rest ++ calls, ?_⟩
      rw [hd.wire, show u.wire = _ from hr]; simp

end Sys2Proof.Machine
end

