-- ==== Sys2Proof/Laws/Commands.lean ====
section
/-! SUPPORT. What `exec` can do, said once for all instructions (`ExecDoes`), with one lemma per shape of meaning:
the calls, the outcome, what becomes of each register. Whole-machine claims cite `exec_does` and do not unfold the
meanings. -/

namespace Sys2Proof.Machine

/-! ### Well-formedness as the meanings check it -/

theorem irContract_eq (v : BitVec 8) (len : Nat) : irContract v len = irOperandsInContract v len := rfl

theorem drContract_eq (c : Config) (n : Nat) : drContract c n = drBitsInContract c n := rfl

/-! ### What every instruction does -/

/-- What an error reports is about the instruction: its opcode, and for an engine command its operands; the stage
`FollowUp` only for an Access Port read (R190, R258). -/
def Info.About (c : Config) (i : Instr) (info : Info) : Prop :=
  i.opcode = info.op ∧
  (match info.dap with
    | none => i.dapTarget c = none
    | some d => i.dapTarget c = some (d.port, d.apidx, d.addr) ∧
        (d.stage = .followUp → d.port = .ap ∧ ∃ t, i.txn? c = some t ∧ t.dir = .read))

/-- What `exec` can do with `i` in `s`, when it answers `t`. -/
structure ExecDoes (i : Instr) (s t : State) : Prop where
  does : ∃ calls failed, Does (Call.Legal s.cfg) s { t with resp := s.resp } failed calls ∧
    (failed = true ↔ ∃ info, t.resp = some (.err .probeSpecific info))
  responds : ∃ r, t.resp = some r
  err : ∀ k info, t.resp = some (.err k info) → mayRaise i k = true ∧ info.About s.cfg i
  asserts : t.resp = some .assert → s.cfg.wf = false ∨ i.wf s.cfg = false
  phase : s.eng.phase = .idle → t.eng.phase = .idle
  attempt : s.eng.attempt = 0 → t.eng.attempt = 0
  buf : s.buf = .empty → t.buf = .empty
  eng : i.txn? s.cfg = none → t.eng = s.eng
  index : t.eng.txn.apidx = s.eng.txn.apidx ∨ ∃ x, i.txn? s.cfg = some x ∧ t.eng.txn.apidx = x.apidx
  protocol : t.ps.selectedProtocol = s.ps.selectedProtocol ∨
    t.ps.currentIrRegister = none ∧ i = .protoSel t.ps.selectedProtocol
  speed : t.ps.speedKhz = s.ps.speedKhz ∨ ∃ k, i = .speedSet k ∧ speedAccept s.cfg k = some t.ps.speedKhz
  idleCycles : t.ps.jtagIdleCycles = s.ps.jtagIdleCycles ∨ i = .jidleSet t.ps.jtagIdleCycles
  cache : t.ps.currentIrRegister = s.ps.currentIrRegister ∨ t.ps.currentIrRegister = none ∨
    s.ps.selectedProtocol = .jtag ∧ ∃ v, t.ps.currentIrRegister = some v ∧
      ((∃ l, i = .jtagWir v l) ∨ (∃ l n, i = .jtagRd v l n) ∨ ∃ l n d, i = .jtagWr v l n d)

theorem speedLookup_lt {bits k k2 : Nat} (hk : k < 2 ^ bits) {rules : List SpeedRule}
    (hr : ∀ r ∈ rules, Config.ruleFits bits r = true) (h : speedLookup k rules = some k2) : k2 < 2 ^ bits := by
  induction rules with
  | nil => cases h
  | cons r rest ih =>
    unfold speedLookup at h
    split at h
    · have h0 := hr r List.mem_cons_self
      unfold Config.ruleFits at h0
      unfold speedOfRule at h
      split at h <;> simp_all
    · exact ih (fun x hx => hr x (List.mem_cons_of_mem _ hx)) h

/-- A speed that `speed_accept` answers fits `SPEED_BITS` where the request does (R105, R22). -/
theorem speedAccept_lt {c : Config} {k k2 : Nat} (hc : c.wf = true) (hk : k < 2 ^ c.speedBits)
    (h : speedAccept c k = some k2) : k2 < 2 ^ c.speedBits :=
  speedLookup_lt hk ((Config.wf_iff c).1 hc).2.2.2.2.2.2.2.2.2.2.2 h

/-! ### Shapes -/

/-- An outcome and nothing else. -/
theorem ExecDoes.respond {i : Instr} {s : State} {r : Response} (ha : r = .assert → i.wf s.cfg = false)
    (he : ∀ k info, r = .err k info → k ≠ .probeSpecific ∧ mayRaise i k = true ∧ info.About s.cfg i) :
    ExecDoes i s (s.respond r) where
  does := by
    refine ⟨[], false, (Does.refl s), ?_⟩
    simp only [Bool.false_eq_true, false_iff]
    rintro ⟨info, h⟩
    exact (he _ _ (Option.some.inj h)).1 rfl
  responds := ⟨r, rfl⟩
  err := fun k info h => (he k info (Option.some.inj h)).2
  asserts := fun h => .inr (ha (Option.some.inj h))
  phase := id
  attempt := id
  buf := id
  eng := fun _ => rfl
  index := .inl rfl
  protocol := .inl rfl
  speed := .inl rfl
  idleCycles := .inl rfl
  cache := .inl rfl

theorem ExecDoes.value (i : Instr) (s : State) (v : Value) : ExecDoes i s (s.respond (.ok v)) :=
  .respond (by simp) (by simp)

theorem ExecDoes.assertOut {i : Instr} {s : State} (h : i.wf s.cfg = false) : ExecDoes i s s.assertOut :=
  .respond (fun _ => h) (by simp)

theorem ExecDoes.raise {i : Instr} {s : State} {k : ErrKind} {info : Info} (hk : k ≠ .probeSpecific)
    (hm : mayRaise i k = true) (ha : info.About s.cfg i) : ExecDoes i s (s.raise k info) :=
  .respond (by simp) (by rintro k' info' h; cases h; exact ⟨hk, hm, ha⟩)

/-- A codec function by itself. -/
theorem ExecDoes.giveValue {i : Instr} {s : State} {v : Option Value} (h : v = none → i.wf s.cfg = false) :
    ExecDoes i s (s.giveValue v) := by
  cases v with
  | none => exact .assertOut (h rfl)
  | some v => exact .value i s v

/-- A command raises what the table of R240 has for its opcode. -/
theorem mayRaise_of_opcode {i : Instr} {op : BitVec 4} (h : i.opcode = some op) (k : ErrKind) :
    mayRaise i k = raisedByOpcode op k := by
  unfold mayRaise; rw [h]

/-- The `info` of a command that is no engine command. -/
theorem opInfo_about (c : Config) {i : Instr} {op : BitVec 4} (h : i.opcode = some op) (hd : i.dapTarget c = none) :
    (opInfo op).About c i := ⟨h, hd⟩

/-- The changes of the probe state that a command other than the four setters may make. -/
structure KeepsPs (s t : State) : Prop where
  protocol : t.ps.selectedProtocol = s.ps.selectedProtocol
  speed : t.ps.speedKhz = s.ps.speedKhz
  idleCycles : t.ps.jtagIdleCycles = s.ps.jtagIdleCycles

/-- The end of a procedure that has kept the engine latches: its outcome on the response port. -/
theorem ExecDoes.conclude {i : Instr} {s t : State} {r : Except Exit Value} {op : BitVec 4} {calls : List Call}
    (hd : Does (Call.Legal s.cfg) s t (isFailure r) calls)
    (hr : (∃ v, r = .ok v) ∨ r = .error (.raise .probeSpecific)) (heng : t.eng = s.eng)
    (hbuf : t.buf = .empty ∨ t.buf = s.buf) (hop : i.opcode = some op) (hdt : i.dapTarget s.cfg = none)
    (hm : mayRaise i .probeSpecific = true)
    (hps : KeepsPs s t)
    (hc : t.ps.currentIrRegister = s.ps.currentIrRegister ∨ t.ps.currentIrRegister = none ∨
      s.ps.selectedProtocol = .jtag ∧ ∃ v, t.ps.currentIrRegister = some v ∧
        ((∃ l, i = .jtagWir v l) ∨ (∃ l n, i = .jtagRd v l n) ∨ ∃ l n d, i = .jtagWr v l n d)) :
    ExecDoes i s (t.conclude (opInfo op) r) := by
  have hb : s.buf = .empty → t.buf = .empty := by
    intro h; rcases hbuf with h1 | h1
    · exact h1
    · rw [h1]; exact h
  rcases hr with ⟨v, rfl⟩ | rfl
  · exact ⟨⟨calls, false, hd.congr_right rfl rfl hd.resp.symm rfl rfl, by simp [State.conclude, State.respond]⟩,
      ⟨_, rfl⟩, by simp [State.conclude, State.respond], by simp [State.conclude, State.respond],
      fun h => by simp [State.conclude, State.respond, heng, h],
      fun h => by simp [State.conclude, State.respond, heng, h], hb, fun _ => heng, .inl (by simp [State.conclude, State.respond, heng]), .inl hps.protocol, .inl hps.speed,
      .inl hps.idleCycles, hc⟩
  · exact ⟨⟨calls, true, hd.congr_right rfl rfl hd.resp.symm rfl rfl,
        by simp [State.conclude, State.raise, State.respond]⟩,
      ⟨_, rfl⟩,
      by
        rintro k info h
        simp only [State.conclude, State.raise, State.respond, Option.some.injEq, Response.err.injEq] at h
        obtain ⟨rfl, rfl⟩ := h
        exact ⟨hm, opInfo_about _ hop hdt⟩,
      by simp [State.conclude, State.raise, State.respond],
      fun h => by simp [State.conclude, State.raise, State.respond, heng, h],
      fun h => by simp [State.conclude, State.raise, State.respond, heng, h], hb, fun _ => heng, .inl (by simp [State.conclude, State.raise, State.respond, heng]), .inl hps.protocol, .inl hps.speed,
      .inl hps.idleCycles, hc⟩

/-! ### Engine commands -/

theorem stage_followUp_iff (b : Bool) : stageOf b = .followUp ↔ b = true := by cases b <;> simp [stageOf]

/-- After an operation the follow-up marker is up only for an Access Port read. -/
theorem dapAccess_followup (t : Txn) (s : State) (h : (dapAccess t s).2.eng.followup = true) :
    t.dir = .read ∧ t.port = .ap := by
  have ha := attempts_do Config.maxAttempts (s.loadTxn t false) (by simp)
  unfold dapAccess at h
  cases hx : attempts Config.maxAttempts (s.loadTxn t false) with
  | mk r u =>
    rw [hx] at ha h
    have hf : u.eng.followup = false := ha.followup
    have ht : u.eng.txn = t := ha.txn
    cases r with
    | error e => simp [endPhase, hf] at h
    | ok _ =>
      have key : (endPhase (afterOk u)).2.eng.followup = (afterOk u).2.eng.followup := by
        rcases afterOk u with ⟨_ | _, _⟩ <;> rfl
      rw [show (endPhase (afterOk u)).2.eng.followup = true from h] at key
      unfold afterOk at key
      rw [ht] at key
      rcases t with ⟨p, x, d, a, v⟩
      cases d with
      | write => simp [hf] at key
      | read =>
        cases p with
        | dp =>
          have : (checkedData u).2.eng.followup = u.eng.followup := by
            unfold checkedData; split <;> rfl
          simp [this, hf] at key
        | ap => exact ⟨rfl, rfl⟩

/-- The end of an engine command. -/
theorem ExecDoes.endEngine {i : Instr} {s : State} {op : BitVec 4} {t : Txn} {r : Except Exit Value}
    (hop : i.opcode = some op) (hop01 : op = 0x0#4 ∨ op = 0x1#4)
    (htx : i.txn? s.cfg = some t) (hdt : i.dapTarget s.cfg = some (t.port, t.apidx, t.addr))
    (ha : offsetAligned t.addr = true)
    (hr : (∃ w v, (dapAccess t s).1 = .ok w ∧ r = .ok v) ∨ ∃ e, (dapAccess t s).1 = .error e ∧ r = .error e) :
    ExecDoes i s (endEngine op t r (dapAccess t s).2) := by
  have h := dapAccess_does t s
  have hfu := dapAccess_followup t s
  obtain ⟨calls, hd, -⟩ := h.does
  have hd' := hd.mono (Q := Call.Legal s.cfg) fun k hk => hk.legal
  have hb : s.buf = .empty → (dapAccess t s).2.buf = .empty := by
    intro h0; rcases h.buf with h1 | h1
    · exact h1
    · rw [h1]; exact h0
  have heq : i.txn? s.cfg ≠ none := by rw [htx]; simp
  have habout : (dapInfo op t.port t.apidx t.addr (stageOf (dapAccess t s).2.eng.followup)).About s.cfg i := by
    refine ⟨hop, hdt, fun hs => ?_⟩
    have h2 := hfu ((stage_followUp_iff _).1 hs)
    exact ⟨h2.2, t, htx, h2.1⟩
  have hmay : ∀ k, k = .timeout ∨ k = .probeSpecific ∨ k = .faultResponse ∨ k = .incorrectParity →
      mayRaise i k = true := by
    intro k hk
    rw [mayRaise_of_opcode hop]
    rcases hop01 with rfl | rfl <;> rcases hk with rfl | rfl | rfl | rfl <;> rfl
  rcases hr with ⟨w, v, hw, rfl⟩ | ⟨e, he, rfl⟩
  · rw [hw] at hd'
    exact ⟨⟨calls, false, hd'.congr_right rfl rfl hd.resp.symm rfl rfl, by simp [Machine.endEngine, State.conclude]⟩,
      ⟨_, rfl⟩, by simp [Machine.endEngine, State.conclude], by simp [Machine.endEngine, State.conclude],
      fun _ => rfl, fun _ => rfl, hb, fun h => (heq h).elim, .inr ⟨t, htx, h.index⟩, .inl (congrArg _ h.ps), .inl (congrArg _ h.ps), .inl (congrArg _ h.ps),
      .inl (congrArg _ h.ps)⟩
  · rw [he] at hd'
    have hres := h.result
    rw [he] at hres
    have hk : (∃ k, e = .raise k ∧ (k = .timeout ∨ k = .probeSpecific ∨ k = .faultResponse ∨ k = .incorrectParity)) ∨
        e = .assert ∧ s.cfg.wf = false := by
      rcases hres with ⟨v, h1⟩ | h1 | h1 | h1 | h1 | ⟨h1, h2⟩
      · cases h1
      · cases h1; exact .inl ⟨_, rfl, .inl rfl⟩
      · cases h1; exact .inl ⟨_, rfl, .inr (.inl rfl)⟩
      · cases h1; exact .inl ⟨_, rfl, .inr (.inr (.inl rfl))⟩
      · cases h1; exact .inl ⟨_, rfl, .inr (.inr (.inr rfl))⟩
      · cases h1
        refine .inr ⟨rfl, ?_⟩
        rcases h2 with h2 | h2
        · exact h2
        · rw [ha] at h2; cases h2
    rcases hk with ⟨k, rfl, hk⟩ | ⟨rfl, hwf⟩
    · refine ⟨⟨calls, _, hd'.congr_right rfl rfl hd.resp.symm rfl rfl, ?_⟩, ⟨_, rfl⟩, ?_,
        by simp [Machine.endEngine, State.conclude, State.raise], fun _ => rfl, fun _ => rfl, hb,
        fun h => (heq h).elim, .inr ⟨t, htx, h.index⟩,
        .inl (congrArg _ h.ps), .inl (congrArg _ h.ps), .inl (congrArg _ h.ps), .inl (congrArg _ h.ps)⟩
      · rcases hk with rfl | rfl | rfl | rfl <;> simp [Machine.endEngine, State.conclude, State.raise, isFailure]
      · rintro k' info h'
        simp only [Machine.endEngine, State.conclude, State.raise, State.toIdle, State.setAttempt_resp,
          State.setPhase_resp, State.respond_resp, Option.some.injEq, Response.err.injEq] at h'
        obtain ⟨rfl, rfl⟩ := h'
        exact ⟨hmay _ hk, habout⟩
    · refine ⟨⟨calls, false, hd'.congr_right rfl rfl hd.resp.symm rfl rfl,
        by simp [Machine.endEngine, State.conclude, State.assertOut]⟩, ⟨_, rfl⟩,
        by simp [Machine.endEngine, State.conclude, State.assertOut], fun _ => .inl hwf, fun _ => rfl, fun _ => rfl, hb,
        fun h => (heq h).elim, .inr ⟨t, htx, h.index⟩,
        .inl (congrArg _ h.ps), .inl (congrArg _ h.ps), .inl (congrArg _ h.ps), .inl (congrArg _ h.ps)⟩

/-- `DAP.RD`, whichever instruction it serves. -/
theorem ExecDoes.dapRead {i : Instr} {s : State} {p : Port} {x : Nat} {a : BitVec 4}
    (hop : i.opcode = some 0x0#4) (htx : i.txn? s.cfg = some ⟨p, x, .read, a, 0#32⟩)
    (hdt : i.dapTarget s.cfg = some (p, x, a)) (hwf : i.wf s.cfg = alignedOffset a) :
    ExecDoes i s (dapRead p x a s) := by
  unfold Machine.dapRead
  split
  · next h => exact .assertOut (by rw [hwf, ← offsetAligned_eq_alignedOffset]; exact h)
  split
  · exact .raise (by simp) (by rw [mayRaise_of_opcode hop]; rfl) ⟨hop, hdt, by simp⟩
  · next h _ =>
    refine .endEngine hop (.inl rfl) htx hdt (by simpa using h) ?_
    cases h1 : (dapAccess ⟨p, x, .read, a, 0#32⟩ s).1 with
    | ok w => exact .inl ⟨w, _, rfl, rfl⟩
    | error e => exact .inr ⟨e, rfl, rfl⟩

/-- `DAP.WR`, whichever instruction it serves. -/
theorem ExecDoes.dapWrite {i : Instr} {s : State} {p : Port} {x : Nat} {a : BitVec 4} {v : Word}
    (hop : i.opcode = some 0x1#4) (htx : i.txn? s.cfg = some ⟨p, x, .write, a, v⟩)
    (hdt : i.dapTarget s.cfg = some (p, x, a)) (hwf : i.wf s.cfg = alignedOffset a) :
    ExecDoes i s (dapWrite p x a v s) := by
  unfold Machine.dapWrite
  split
  · next h => exact .assertOut (by rw [hwf, ← offsetAligned_eq_alignedOffset]; exact h)
  split
  · exact .raise (by simp) (by rw [mayRaise_of_opcode hop]; rfl) ⟨hop, hdt, by simp⟩
  · next h _ =>
    refine .endEngine hop (.inr rfl) htx hdt (by simpa using h) ?_
    cases h1 : (dapAccess ⟨p, x, .write, a, v⟩ s).1 with
    | ok w => exact .inl ⟨w, _, rfl, rfl⟩
    | error e => exact .inr ⟨e, rfl, rfl⟩

/-- The engine commands and the pseudo-instructions, by their Transaction: each is `DAP.RD` or `DAP.WR` of it (R84). -/
theorem engine_cases {i : Instr} {c : Config} {t : Txn} (h : i.txn? c = some t) :
    (∃ p x a, t = ⟨p, x, .read, a, 0#32⟩ ∧ i.opcode = some 0x0#4 ∧ i.wf c = alignedOffset a ∧
      ∀ s : State, s.cfg = c → exec i s = .next (dapRead p x a s)) ∨
    ∃ p x a v, t = ⟨p, x, .write, a, v⟩ ∧ i.opcode = some 0x1#4 ∧ i.wf c = alignedOffset a ∧
      ∀ s : State, s.cfg = c → exec i s = .next (dapWrite p x a v s) := by
  cases i with
  | dapRd p x a => cases h; exact .inl ⟨_, _, _, rfl, rfl, rfl, fun _ _ => rfl⟩
  | dapWr p x a v => cases h; exact .inr ⟨_, _, _, _, rfl, rfl, rfl, fun _ _ => rfl⟩
  | rdDpidr => cases h; exact .inl ⟨_, _, _, rfl, rfl, rfl, fun _ hc => by rw [← hc]; rfl⟩
  | wrAbort v => cases h; exact .inr ⟨_, _, _, _, rfl, rfl, rfl, fun _ hc => by rw [← hc]; rfl⟩
  | rdCtrlstat => cases h; exact .inl ⟨_, _, _, rfl, rfl, rfl, fun _ hc => by rw [← hc]; rfl⟩
  | wrCtrlstat v => cases h; exact .inr ⟨_, _, _, _, rfl, rfl, rfl, fun _ hc => by rw [← hc]; rfl⟩
  | rdRdbuff => cases h; exact .inl ⟨_, _, _, rfl, rfl, rfl, fun _ hc => by rw [← hc]; rfl⟩
  | clrOrun => cases h; exact .inr ⟨_, _, _, _, rfl, rfl, rfl, fun _ hc => by rw [← hc]; rfl⟩
  | clrStkerr => cases h; exact .inr ⟨_, _, _, _, rfl, rfl, rfl, fun _ hc => by rw [← hc]; rfl⟩
  | _ => cases h

/-- Past its checks an engine command is `dap_access` and its outcome. -/
theorem exec_engine {i : Instr} {s : State} {t : Txn} (h : i.txn? s.cfg = some t)
    (hp : s.ps.selectedProtocol = .swd) (ha : offsetAligned t.addr = true) :
    ∃ op r, exec i s = .next (endEngine op t r (dapAccess t s).2) ∧
      ((∃ v w, (dapAccess t s).1 = .ok w ∧ r = .ok v) ∨ ∃ e, (dapAccess t s).1 = .error e ∧ r = .error e) := by
  rcases engine_cases h with ⟨p, x, a, rfl, -, -, he⟩ | ⟨p, x, a, v, rfl, -, -, he⟩
  · refine ⟨0x0#4, readValue (dapAccess ⟨p, x, .read, a, 0#32⟩ s).1, ?_, ?_⟩
    · rw [he s rfl]; simp [dapRead, show offsetAligned a = true from ha, hp]
    · cases (dapAccess ⟨p, x, .read, a, 0#32⟩ s).1 with
      | ok w => exact .inl ⟨_, w, rfl, rfl⟩
      | error e => exact .inr ⟨e, rfl, rfl⟩
  · refine ⟨0x1#4, writeValue (dapAccess ⟨p, x, .write, a, v⟩ s).1, ?_, ?_⟩
    · rw [he s rfl]; simp [dapWrite, show offsetAligned a = true from ha, hp]
    · cases (dapAccess ⟨p, x, .write, a, v⟩ s).1 with
      | ok w => exact .inl ⟨_, w, rfl, rfl⟩
      | error e => exact .inr ⟨e, rfl, rfl⟩

@[simp] theorem endEngine_wire (op : BitVec 4) (t : Txn) (r : Except Exit Value) (s : State) :
    (endEngine op t r s).wire = s.wire := by
  rcases r with (k | _) | v <;> rfl

@[simp] theorem endEngine_env (op : BitVec 4) (t : Txn) (r : Except Exit Value) (s : State) :
    (endEngine op t r s).env = s.env := by
  rcases r with (k | _) | v <;> rfl

@[simp] theorem endEngine_ps (op : BitVec 4) (t : Txn) (r : Except Exit Value) (s : State) :
    (endEngine op t r s).ps = s.ps := by
  rcases r with (k | _) | v <;> rfl

/-! ### Probe-state commands -/

/-- The line reset as a command, after what the command did to the cache. -/
theorem ExecDoes.lineReset {i : Instr} {s s1 : State} {op : BitVec 4} (hop : i.opcode = some op)
    (hdt : i.dapTarget s.cfg = none) (hm : mayRaise i .probeSpecific = true) (h1 : s1 = s ∨ s1 = s.setIr none) :
    ExecDoes i s ((Machine.lineReset s1).2.conclude (opInfo op) (unitValue (Machine.lineReset s1).1)) := by
  obtain ⟨hd, hps, heng, hbuf, hna⟩ := lineReset_does s1
  have hfields : s1.cfg = s.cfg ∧ s1.host = s.host ∧ s1.resp = s.resp ∧ s1.env = s.env ∧ s1.wire = s.wire ∧
      s1.eng = s.eng ∧ KeepsPs s s1 ∧
      (s1.ps.currentIrRegister = s.ps.currentIrRegister ∨ s1.ps.currentIrRegister = none) := by
    rcases h1 with rfl | rfl
    · exact ⟨rfl, rfl, rfl, rfl, rfl, rfl, ⟨rfl, rfl, rfl⟩, .inl rfl⟩
    · exact ⟨rfl, rfl, rfl, rfl, rfl, rfl, ⟨rfl, rfl, rfl⟩, .inr rfl⟩
  obtain ⟨hc, hh, hr, he, hw, hen, hk, hir⟩ := hfields
  have hres : (∃ v, unitValue (Machine.lineReset s1).1 = .ok v) ∨
      unitValue (Machine.lineReset s1).1 = .error (.raise .probeSpecific) := by
    rw [lineReset_eq]
    cases s1.answer.failed
    · exact .inl ⟨_, rfl⟩
    · exact .inr rfl
  have hfail : isFailure (unitValue (Machine.lineReset s1).1) = isFailure (Machine.lineReset s1).1 := by
    rw [lineReset_eq]
    cases s1.answer.failed <;> rfl
  refine .conclude (calls := [(swdEncLineReset s1.cfg).call])
    (by rw [hfail]; exact (hd.mono fun k hk => hc ▸ RecoveryCall.legal hk).congr_left hc hh hr he hw)
    hres (heng.trans hen) (.inl hbuf) hop hdt hm
    ⟨by rw [hps]; exact hk.protocol, by rw [hps]; exact hk.speed, by rw [hps]; exact hk.idleCycles⟩ ?_
  rw [hps]
  rcases hir with h | h
  · exact .inl h
  · exact .inr (.inl h)

/-- A reset-line command: one call after the cache is invalidated (R215, R216). -/
theorem ExecDoes.reset {i : Instr} {s : State} {op : BitVec 4} {level : ResetLevel} (hop : i.opcode = some op)
    (hdt : i.dapTarget s.cfg = none) (hm : mayRaise i .probeSpecific = true) :
    ExecDoes i s (callThen op (.tpReset level) (s.setIr none) id) := by
  have h1 : Does (Call.Legal s.cfg) s ((s.setIr none).called (.tpReset level)) s.answer.failed [.tpReset level] :=
    (Does.one (s.setIr none) (.tpReset level) trivial).congr_left rfl rfl rfl rfl rfl
  have key : callThen op (.tpReset level) (s.setIr none) id =
      ((s.setIr none).called (.tpReset level)).conclude (opInfo op)
        (if s.answer.failed then .error (.raise .probeSpecific) else .ok .unit) := by
    unfold callThen
    have : (s.setIr none).answer = s.answer := rfl
    rw [this]
    cases s.answer.failed <;> rfl
  rw [key]
  refine .conclude (calls := [.tpReset level]) ?_ ?_ rfl (.inr rfl) hop hdt hm ⟨rfl, rfl, rfl⟩ (.inr (.inl rfl))
  · cases h : s.answer.failed <;> rw [h] at h1 <;> exact h1
  · cases s.answer.failed
    · exact .inl ⟨_, rfl⟩
    · exact .inr rfl

/-! ### JTAG commands -/

/-- A JTAG command: its checks in the order of R251, then what it executes. -/
theorem ExecDoes.jtagChecked {i : Instr} {s : State} {op : BitVec 4} {contract : Bool} {irlen : Nat}
    {run : State → State} (hop : i.opcode = some op) (hdt : i.dapTarget s.cfg = none)
    (hm : mayRaise i .notImplemented = true ∧ mayRaise i .unsupportedProtocol = true)
    (hwf : i.wf s.cfg = contract)
    (hrun : contract = true → irlen ≤ Config.maxIrLen → s.ps.selectedProtocol = .jtag → ExecDoes i s (run s)) :
    ExecDoes i s (jtagChecked op contract irlen s run) := by
  unfold Machine.jtagChecked
  split
  · next h => exact .assertOut (by rw [hwf, h])
  split
  · exact .raise (by simp) hm.1 (opInfo_about _ hop hdt)
  split
  · exact .raise (by simp) hm.2 (opInfo_about _ hop hdt)
  · next h1 h2 h3 => exact hrun (by simpa using h1) (by omega) (by simpa using h3)

/-- The end of a procedure of the JTAG path. -/
theorem ExecDoes.jtagEnd {i : Instr} {s : State} {op : BitVec 4} {α : Type} {p : Except Exit α × State} {n : Nat}
    {r : Except Exit Value} (h : JtagDoes s p n)
    (hr : (∃ a v, p.1 = .ok a ∧ r = .ok v) ∨ ∃ e, p.1 = .error e ∧ r = .error e)
    (hop : i.opcode = some op) (hdt : i.dapTarget s.cfg = none) (hm : mayRaise i .probeSpecific = true)
    (hc : p.2.ps.currentIrRegister = s.ps.currentIrRegister ∨ p.2.ps.currentIrRegister = none ∨
      s.ps.selectedProtocol = .jtag ∧ ∃ v, p.2.ps.currentIrRegister = some v ∧
        ((∃ l, i = .jtagWir v l) ∨ (∃ l n, i = .jtagRd v l n) ∨ ∃ l n d, i = .jtagWr v l n d)) :
    ExecDoes i s (p.2.conclude (opInfo op) r) := by
  obtain ⟨calls, hd, -⟩ := h.does
  have hf : isFailure p.1 = isFailure r := by
    rcases hr with ⟨a, v, h1, rfl⟩ | ⟨e, h1, rfl⟩
    · rw [h1]; rfl
    · rw [h1]; exact isFailure_error e
  refine .conclude (calls := calls) (by rw [← hf]; exact hd) ?_ h.eng h.buf hop hdt hm
    ⟨h.protocol, h.speed, h.idleCycles⟩ hc
  rcases hr with ⟨a, v, h1, rfl⟩ | ⟨e, h1, rfl⟩
  · exact .inl ⟨v, rfl⟩
  · rcases h.result with ⟨a, h2⟩ | h2
    · rw [h1] at h2; cases h2
    · rw [h1] at h2; cases h2; exact .inr rfl

/-! ### All instructions -/

/-- `jtag_enc_ir` called by itself: outside its contract `Assert`, at a length above 8 the error (R150). -/
theorem ExecDoes.giveEncIr {i : Instr} {s : State} {v : BitVec 8} {len : Nat}
    (hwf : i.wf s.cfg = irOperandsInContract v len) (hop : i.opcode = none) (hdt : i.dapTarget s.cfg = none)
    (hl : 8 < len → mayRaise i .notImplemented = true) : ExecDoes i s (giveEncIr v len s) := by
  unfold Machine.giveEncIr encIrValue
  cases hc : irContract v len with
  | false =>
    rw [jtagEncIr_assert hc]
    exact .assertOut (by rw [hwf, ← irContract_eq, hc])
  | true =>
    by_cases h8 : 8 < len
    · rw [jtagEncIr_long h8]
      exact .raise (by simp) (hl h8) ⟨hop, hdt⟩
    · rw [jtagEncIr_eq_ok hc (by simpa [Config.maxIrLen] using h8)]
      exact .value i s _

theorem jtagEncDr_none {c : Config} {bytes : List Byte} {n : Nat} (h : jtagEncDr c bytes n = none) :
    (drBitsInContract c n && decide (bytes.length = ceilDiv8 n)) = false := by
  cases hd : drContract c n with
  | false => rw [← drContract_eq, hd]; rfl
  | true =>
    by_cases hb : bytes.length = ceilDiv8 n
    · rw [(jtagEncDr_eq_some_iff c bytes n _).2 ⟨hd, hb, rfl⟩] at h; cases h
    · simp [hb]

/-- `exec` answers a next state for every instruction in every state, and does in it what `ExecDoes` says. -/
theorem exec_does (i : Instr) (s : State) : ∃ t, exec i s = .next t ∧ ExecDoes i s t := by
  cases i with
  | dapRd p x a => exact ⟨_, rfl, .dapRead rfl rfl rfl rfl⟩
  | dapWr p x a v => exact ⟨_, rfl, .dapWrite rfl rfl rfl rfl⟩
  | rdDpidr => exact ⟨_, rfl, .dapRead rfl rfl rfl rfl⟩
  | wrAbort v => exact ⟨_, rfl, .dapWrite rfl rfl rfl rfl⟩
  | rdCtrlstat => exact ⟨_, rfl, .dapRead rfl rfl rfl rfl⟩
  | wrCtrlstat v => exact ⟨_, rfl, .dapWrite rfl rfl rfl rfl⟩
  | rdRdbuff => exact ⟨_, rfl, .dapRead rfl rfl rfl rfl⟩
  | clrOrun => exact ⟨_, rfl, .dapWrite rfl rfl rfl rfl⟩
  | clrStkerr => exact ⟨_, rfl, .dapWrite rfl rfl rfl rfl⟩
  | lrst =>
    refine ⟨_, rfl, ?_⟩
    split
    · exact .raise (by simp) rfl (opInfo_about _ rfl rfl)
    · exact .lineReset rfl rfl rfl (.inl rfl)
  | protoSel p =>
    refine ⟨_, rfl, ?_⟩
    split
    · exact .raise (by simp) rfl (opInfo_about _ rfl rfl)
    · next h =>
      have hl : (Call.tpSelect p).Legal s.cfg := by simpa [Call.Legal] using h
      have h1 : Does (Call.Legal s.cfg) s ((s.setIr none).called (.tpSelect p)) s.answer.failed [.tpSelect p] :=
        (Does.one (s.setIr none) (.tpSelect p) hl).congr_left rfl rfl rfl rfl rfl
      unfold callThen
      have hans : (s.setIr none).answer = s.answer := rfl
      rw [hans]
      cases hf : s.answer.failed with
      | true =>
        rw [hf] at h1
        exact .conclude (r := .error (.raise .probeSpecific)) (op := 0x3#4) h1 (.inr rfl) rfl (.inr rfl) rfl rfl
          rfl ⟨rfl, rfl, rfl⟩ (.inr (.inl rfl))
      | false =>
        rw [hf] at h1
        exact ⟨⟨_, false, h1.congr_right rfl rfl rfl rfl rfl, by simp⟩, ⟨_, rfl⟩, by simp, by simp, id, id, id,
          fun _ => rfl, .inl rfl, .inr ⟨rfl, rfl⟩, .inl rfl, .inl rfl, .inr (.inl rfl)⟩
  | protoGet => exact ⟨_, rfl, .value _ _ _⟩
  | speedSet k =>
    refine ⟨_, rfl, ?_⟩
    have h1 : Does (Call.Legal s.cfg) s (s.called (.tpSetSpeed k)) s.answer.failed [.tpSetSpeed k] :=
      Does.one s (.tpSetSpeed k) trivial
    unfold State.speedAnswer
    cases hf : s.answer.failed with
    | true =>
      rw [hf] at h1
      exact .conclude (r := .error (.raise .probeSpecific)) (op := 0x5#4) h1 (.inr rfl) rfl (.inr rfl) rfl rfl
        rfl ⟨rfl, rfl, rfl⟩ (.inl rfl)
    | false =>
      rw [hf] at h1
      cases hk2 : speedAccept s.cfg k with
      | none =>
        exact ⟨⟨_, false, h1.congr_right rfl rfl rfl rfl rfl, by simp [State.raise]⟩, ⟨_, rfl⟩,
          by
            rintro k' info' h'
            simp only [Bool.false_eq_true, if_false, State.raise, State.respond_resp, Option.some.injEq,
              Response.err.injEq] at h'
            obtain ⟨rfl, rfl⟩ := h'
            exact ⟨rfl, opInfo_about _ rfl rfl⟩,
          by simp [State.raise], id, id, id, fun _ => rfl, .inl rfl,
          .inl rfl, .inl rfl, .inl rfl, .inl rfl⟩
      | some k2 =>
        exact ⟨⟨_, false, h1.congr_right rfl rfl rfl rfl rfl, by simp⟩, ⟨_, rfl⟩, by simp, by simp, id, id, id,
          fun _ => rfl, .inl rfl, .inl rfl, .inr ⟨k, rfl, hk2⟩, .inl rfl, .inl rfl⟩
  | speedGet => exact ⟨_, rfl, .value _ _ _⟩
  | jidleSet n =>
    refine ⟨_, rfl, ⟨[], false, (Does.refl s).congr_right rfl rfl rfl rfl rfl, by simp⟩, ⟨_, rfl⟩, by simp, by simp, id,
      id, id, fun _ => rfl, .inl rfl, .inl rfl, .inl rfl, .inr rfl, .inl rfl⟩
  | rstAssert => exact ⟨_, rfl, .reset rfl rfl rfl⟩
  | rstDeassert => exact ⟨_, rfl, .reset rfl rfl rfl⟩
  | attach =>
    refine ⟨_, rfl, ?_⟩
    dsimp only
    split
    · exact .lineReset rfl rfl rfl (.inr rfl)
    · exact .conclude (r := .ok .unit) (op := 0xA#4) (calls := [])
        ((Does.refl s).congr_right (u := s.setIr none) rfl rfl rfl rfl rfl) (.inl ⟨_, rfl⟩) rfl (.inr rfl) rfl rfl
        rfl ⟨rfl, rfl, rfl⟩ (.inr (.inl rfl))
  | jtagWir v len =>
    refine ⟨_, rfl, .jtagChecked rfl rfl ⟨rfl, rfl⟩ (by simp [Instr.wf, irContract_eq]) ?_⟩
    intro hc hl hp
    obtain ⟨h, hres⟩ := writeIr_does s (jtagEncIr_eq_ok hc hl)
    refine .jtagEnd h ?_ rfl rfl rfl ?_
    · rcases hres with ⟨h1, -⟩ | ⟨h1, -⟩ <;> rw [h1]
      · exact .inl ⟨_, _, rfl, rfl⟩
      · exact .inr ⟨_, rfl, rfl⟩
    · rcases hres with ⟨-, h1⟩ | ⟨-, h1⟩
      · exact .inr (.inr ⟨hp, v, h1, .inl ⟨len, rfl⟩⟩)
      · exact .inr (.inl h1)
  | jtagRd v len n =>
    refine ⟨_, rfl, .jtagChecked rfl rfl ⟨rfl, rfl⟩ (by simp [Instr.wf, irContract_eq, drContract_eq]) ?_⟩
    intro hc hl hp
    rw [Bool.and_eq_true] at hc
    have hq := (jtagEncDr_eq_some_iff s.cfg (zeroBytes n) n _).2 ⟨hc.2, by simp [zeroBytes], rfl⟩
    obtain ⟨h, hres⟩ := jtagAccess_does s (jtagEncIr_eq_ok hc.1 hl) hq
    refine .jtagEnd h ?_ rfl rfl rfl ?_
    · rcases hres with ⟨⟨bs, h1⟩, -⟩ | ⟨h1, -⟩ <;> rw [h1]
      · exact .inl ⟨_, _, rfl, rfl⟩
      · exact .inr ⟨_, rfl, rfl⟩
    · rcases hres with ⟨-, h1⟩ | ⟨-, h1⟩
      · exact .inr (.inr ⟨hp, v, h1, .inr (.inl ⟨len, n, rfl⟩)⟩)
      · exact .inr (.inl h1)
  | jtagWr v len n d =>
    refine ⟨_, rfl, .jtagChecked rfl rfl ⟨rfl, rfl⟩
      (by simp [Instr.wf, irContract_eq, drContract_eq, dataContract]) ?_⟩
    intro hc hl hp
    simp only [Bool.and_eq_true, dataContract, decide_eq_true_eq] at hc
    have hq := (jtagEncDr_eq_some_iff s.cfg d n _).2 ⟨hc.1.2, hc.2, rfl⟩
    obtain ⟨h, hres⟩ := jtagAccess_does s (jtagEncIr_eq_ok hc.1.1 hl) hq
    refine .jtagEnd h ?_ rfl rfl rfl ?_
    · rcases hres with ⟨⟨bs, h1⟩, -⟩ | ⟨h1, -⟩ <;> rw [h1]
      · exact .inl ⟨_, _, rfl, rfl⟩
      · exact .inr ⟨_, rfl, rfl⟩
    · rcases hres with ⟨-, h1⟩ | ⟨-, h1⟩
      · exact .inr (.inr ⟨hp, v, h1, .inr (.inr ⟨len, n, d, rfl⟩)⟩)
      · exact .inr (.inl h1)
  | reservedE => exact ⟨_, rfl, .assertOut rfl⟩
  | reservedF => exact ⟨_, rfl, .assertOut rfl⟩
  | swdHdr p d a =>
    refine ⟨_, rfl, .giveValue fun h => ?_⟩
    rw [Instr.wf, ← offsetAligned_eq_alignedOffset]
    simpa [swdHdr] using h
  | swdEncWrite p a v n =>
    refine ⟨_, rfl, .giveValue fun h => ?_⟩
    rw [Instr.wf, ← offsetAligned_eq_alignedOffset]
    by_cases hn : Config.minWriteIdle ≤ n
    · cases ha : offsetAligned a with
      | false => rfl
      | true =>
        simp [swdEncWrite, hn, swdHdr, ha, mkSeq, length_headerBits] at h
        omega
    · simp [hn]
  | swdEncRead p a =>
    refine ⟨_, rfl, .giveValue fun h => ?_⟩
    rw [Instr.wf, ← offsetAligned_eq_alignedOffset]
    cases ha : offsetAligned a with
    | false => rfl
    | true =>
      simp [swdEncRead, swdHdr, ha, mkSeq, length_headerBits] at h
      omega
  | swdDecAck v =>
    refine ⟨_, rfl, .giveValue fun h => ?_⟩
    unfold swdDecAck at h
    split at h
    · simp at h
    · next hn => simpa [Instr.wf, ackAt] using hn
  | swdDecRead v =>
    refine ⟨_, rfl, .giveValue fun h => ?_⟩
    unfold swdDecRead at h
    split at h
    · simp at h
    · next hn => simpa [Instr.wf, readFrameLength, readDataAt, ackAt] using hn
  | swdDecWrite v =>
    refine ⟨_, rfl, .giveValue fun h => ?_⟩
    simpa [swdDecWrite, Instr.wf, writeDataAt, ackAt] using h
  | swdEncLineReset => exact ⟨_, rfl, .giveValue (by simp)⟩
  | swdPar32 v => exact ⟨_, rfl, .giveValue (by simp)⟩
  | mkSeq io d =>
    refine ⟨_, rfl, .giveValue fun h => ?_⟩
    simpa [mkSeq, Instr.wf] using h
  | jtagEncIrLen1 v => exact ⟨_, rfl, .giveEncIr (len := 1) (by simp [Instr.wf, irOperandsInContract, Config.maxIrLen]) rfl rfl (by omega)⟩
  | jtagEncIrLen2 v => exact ⟨_, rfl, .giveEncIr (len := 2) (by simp [Instr.wf, irOperandsInContract, Config.maxIrLen]) rfl rfl (by omega)⟩
  | jtagEncIrLen3 v => exact ⟨_, rfl, .giveEncIr (len := 3) (by simp [Instr.wf, irOperandsInContract, Config.maxIrLen]) rfl rfl (by omega)⟩
  | jtagEncIrLen4 v => exact ⟨_, rfl, .giveEncIr (len := 4) (by simp [Instr.wf, irOperandsInContract, Config.maxIrLen]) rfl rfl (by omega)⟩
  | jtagEncIrLen5 v => exact ⟨_, rfl, .giveEncIr (len := 5) (by simp [Instr.wf, irOperandsInContract, Config.maxIrLen]) rfl rfl (by omega)⟩
  | jtagEncIrLen6 v => exact ⟨_, rfl, .giveEncIr (len := 6) (by simp [Instr.wf, irOperandsInContract, Config.maxIrLen]) rfl rfl (by omega)⟩
  | jtagEncIrLen7 v => exact ⟨_, rfl, .giveEncIr (len := 7) (by simp [Instr.wf, irOperandsInContract, Config.maxIrLen]) rfl rfl (by omega)⟩
  | jtagEncIrLen8 v => exact ⟨_, rfl, .giveEncIr (len := 8) (by simp [Instr.wf, irOperandsInContract, Config.maxIrLen]) rfl rfl (by omega)⟩
  | jtagEncIrLen0 v => exact ⟨_, rfl, .giveEncIr (len := 0) rfl rfl rfl (by omega)⟩
  | jtagEncIrLong v excess =>
    exact ⟨_, rfl, .giveEncIr (len := excess + 9) (by rw [Instr.wf, Nat.add_comm]) rfl rfl fun _ => rfl⟩
  | jtagEncDr bytes n =>
    refine ⟨_, rfl, .giveValue fun h => jtagEncDr_none ?_⟩
    simpa using h
  | jtagDecDr tdo n =>
    refine ⟨_, rfl, .giveValue fun h => ?_⟩
    by_cases h1 : 1 ≤ n <;> by_cases h2 : tdo.length = n + 5 <;> simp_all [jtagDecDr, Instr.wf]
  | jtagEncIdle n =>
    refine ⟨_, rfl, .giveValue fun h => ?_⟩
    by_cases h1 : 1 ≤ n <;> simp_all [jtagEncIdle, Instr.wf]
  | unpackBits bytes n =>
    refine ⟨_, rfl, .giveValue fun h => ?_⟩
    simpa [unpackBits, Instr.wf] using h
  | packBits w => exact ⟨_, rfl, .giveValue (by simp)⟩

/-- Outside the contract nothing happens but the outcome `Assert` (R250, R130). -/
theorem exec_of_not_wf (i : Instr) (s : State) (h : i.wf s.cfg = false) : exec i s = .next s.assertOut := by
  have hal : ∀ a, alignedOffset a = false → offsetAligned a = false := fun a => by
    rw [offsetAligned_eq_alignedOffset]; exact id
  have hrd : ∀ p x a, alignedOffset a = false → dapRead p x a s = s.assertOut := fun p x a h => by
    simp [dapRead, hal a h]
  have hwr : ∀ p x a v, alignedOffset a = false → dapWrite p x a v s = s.assertOut := fun p x a v h => by
    simp [dapWrite, hal a h]
  have hir : ∀ v len, irOperandsInContract v len = false → giveEncIr v len s = s.assertOut := fun v len hc => by
    rw [giveEncIr, encIrValue, jtagEncIr_assert hc]; rfl
  have hg : ∀ v : Option Value, v = none → Host.Outcome.next (σ := State) (φ := Fault) (ρ := Refusal) (s.giveValue v) = .next s.assertOut := by
    rintro v rfl; rfl
  cases i with
  | dapRd p x a => exact congrArg _ (hrd _ _ _ h)
  | dapWr p x a v => exact congrArg _ (hwr _ _ _ _ h)
  | rdDpidr => exact congrArg _ (hrd _ _ _ h)
  | wrAbort v => exact congrArg _ (hwr _ _ _ _ h)
  | rdCtrlstat => exact congrArg _ (hrd _ _ _ h)
  | wrCtrlstat v => exact congrArg _ (hwr _ _ _ _ h)
  | rdRdbuff => exact congrArg _ (hrd _ _ _ h)
  | clrOrun => exact congrArg _ (hwr _ _ _ _ h)
  | clrStkerr => exact congrArg _ (hwr _ _ _ _ h)
  | jtagWir v len => 
    show Host.Outcome.next _ = _
    rw [show irContract v len = false from h]; rfl
  | jtagRd v len n =>
    show Host.Outcome.next _ = _
    rw [show (irContract v len && drContract s.cfg n) = false from h]; rfl
  | jtagWr v len n d => 
    show Host.Outcome.next _ = _
    rw [show (irContract v len && drContract s.cfg n && dataContract n d) = false from h]; rfl
  | reservedE => rfl
  | reservedF => rfl
  | swdHdr p d a => exact hg _ (by simp [swdHdr, hal a h])
  | swdEncWrite p a v n =>
    refine hg _ ?_
    simp only [Instr.wf, Bool.and_eq_false_iff, decide_eq_false_iff_not] at h
    rcases h with h | h
    · simp [swdEncWrite, swdHdr, hal a h]
    · simp [swdEncWrite, h]
  | swdEncRead p a => exact hg _ (by simp [swdEncRead, swdHdr, hal a h])
  | swdDecAck v => exact hg _ (by simp only [Instr.wf, decide_eq_false_iff_not] at h; rw [Machine.swdDecAck, ackAt, if_neg h]; rfl)
  | swdDecRead v => exact hg _ (by simp [Instr.wf] at h; simp [Machine.swdDecRead, readFrameLength, readDataAt, ackAt, h])
  | swdDecWrite v => exact hg _ (by simpa [swdDecWrite, Instr.wf, writeDataAt, ackAt] using h)
  | mkSeq io d => exact hg _ (by simpa [Machine.mkSeq, Instr.wf] using h)
  | jtagEncIrLen1 v => exact congrArg Host.Outcome.next (hir v 1 (by simpa [Instr.wf, irOperandsInContract, Config.maxIrLen] using h))
  | jtagEncIrLen2 v => exact congrArg Host.Outcome.next (hir v 2 (by simpa [Instr.wf, irOperandsInContract, Config.maxIrLen] using h))
  | jtagEncIrLen3 v => exact congrArg Host.Outcome.next (hir v 3 (by simpa [Instr.wf, irOperandsInContract, Config.maxIrLen] using h))
  | jtagEncIrLen4 v => exact congrArg Host.Outcome.next (hir v 4 (by simpa [Instr.wf, irOperandsInContract, Config.maxIrLen] using h))
  | jtagEncIrLen5 v => exact congrArg Host.Outcome.next (hir v 5 (by simpa [Instr.wf, irOperandsInContract, Config.maxIrLen] using h))
  | jtagEncIrLen6 v => exact congrArg Host.Outcome.next (hir v 6 (by simpa [Instr.wf, irOperandsInContract, Config.maxIrLen] using h))
  | jtagEncIrLen7 v => exact congrArg Host.Outcome.next (hir v 7 (by simpa [Instr.wf, irOperandsInContract, Config.maxIrLen] using h))
  | jtagEncIrLen8 v => exact congrArg Host.Outcome.next (hir v 8 (by simpa [Instr.wf, irOperandsInContract, Config.maxIrLen] using h))
  | jtagEncIrLen0 v => exact congrArg Host.Outcome.next (hir v 0 h)
  | jtagEncIrLong v excess => exact congrArg Host.Outcome.next (hir v (excess + 9) (by rw [Nat.add_comm]; exact h))
  | jtagEncDr bytes n =>
    refine hg _ ?_
    rw [Option.map_eq_none_iff]
    cases hq : Machine.jtagEncDr s.cfg bytes n with
    | none => rfl
    | some q =>
      obtain ⟨h1, h2, -⟩ := (jtagEncDr_eq_some_iff _ _ _ _).1 hq
      simp [Instr.wf, ← drContract_eq, h1, h2] at h
  | jtagDecDr tdo n =>
    refine hg _ ?_
    simp only [Instr.wf, Bool.and_eq_false_iff, decide_eq_false_iff_not] at h
    rw [Option.map_eq_none_iff, Machine.jtagDecDr, if_neg]
    tauto
  | jtagEncIdle n => exact hg _ (by simpa [Machine.jtagEncIdle, Instr.wf] using h)
  | unpackBits bytes n => exact hg _ (by simpa [Machine.unpackBits, Instr.wf] using h)
  | _ => cases h

end Sys2Proof.Machine
end

