-- ==== Sys2Proof/Laws/Alike.lean ====
section
/-! SUPPORT. Two states that what the block does cannot tell apart: same configuration, probe state and coming answers.
Every procedure, run from two such states, comes to the same result over the same calls, where as many calls were made
before or the script lists a whole answer to every call (`Numbered`). -/

namespace Sys2Proof.Machine

/-- The same to every procedure that reads no engine latch. -/
structure Alike (s u : State) : Prop where
  cfg : s.cfg = u.cfg
  ps : s.ps = u.ps
  env : s.env = u.env

/-- The same to the attempt loop: the latches it reads agree, but for the Access Port index (R52). -/
structure AlikeTxn (s u : State) : Prop extends Alike s u where
  port : s.eng.txn.port = u.eng.txn.port
  dir : s.eng.txn.dir = u.eng.txn.dir
  addr : s.eng.txn.addr = u.eng.txn.addr
  value : s.eng.txn.value = u.eng.txn.value
  followup : s.eng.followup = u.eng.followup
  attempt : s.eng.attempt = u.eng.attempt

/-- Two runs have come to the same result over the same calls. -/
structure SameRun {α : Type} (s u : State) (x y : α × State) : Prop where
  result : x.1 = y.1
  calls : ∃ calls, x.2.wire = s.wire ++ calls ∧ y.2.wire = u.wire ++ calls

/-- The data latches agree (R30). -/
def SameData (s u : State) : Prop := s.eng.data = u.eng.data ∧ s.eng.par = u.eng.par

/-- `t` is `s` after some calls, with an answer used up for each. -/
def Grows (s t : State) : Prop := ∃ calls, t.wire = s.wire ++ calls ∧ t.env = s.env.drop calls.length

/-- The free answers of a run from `s` to `t` are those of a run from `u`: the traces so far have one length, which is
what numbers them (assumption logs 2 and 15), or there are none, the script listing a whole answer to every call. -/
def Numbered (s u t : State) : Prop :=
  s.wire.length = u.wire.length ∨ ∃ calls, t.wire = s.wire ++ calls ∧ Scripted s.env calls

theorem Grows.refl (s : State) : Grows s s := ⟨[], by simp, by simp⟩

theorem Grows.trans {s t u : State} (h : Grows s t) (g : Grows t u) : Grows s u := by
  obtain ⟨a, h1, h2⟩ := h
  obtain ⟨b, g1, g2⟩ := g
  exact ⟨a ++ b, by rw [g1, h1, List.append_assoc], by rw [g2, h2, List.drop_drop, List.length_append]⟩

theorem Does.grows {P : Call → Prop} {s t : State} {f : Bool} {calls : List Call} (h : Does P s t f calls) :
    Grows s t := ⟨calls, h.wire, h.env⟩

/-- A script of whole answers to a run is one to its first part, and what is left of it is one to the second. -/
theorem Scripted.split {script : List Answer} {a b : List Call} (h : Scripted script (a ++ b)) :
    Scripted script a ∧ Scripted (script.drop a.length) b := by
  obtain ⟨hl, hw⟩ := h
  rw [List.length_append] at hl
  refine ⟨⟨by omega, fun j x k hx hk => hw j x k hx ?_⟩, ⟨by rw [List.length_drop]; omega, fun j x k hx hk => ?_⟩⟩
  · have : j < a.length := (List.getElem?_eq_some_iff.1 hk).1
    rw [List.getElem?_append_left this, hk]
  · rw [List.getElem?_drop] at hx
    exact hw (a.length + j) x k hx (by rw [List.getElem?_append_right (by omega), Nat.add_sub_cancel_left, hk])

/-- What numbers a run numbers its two parts. -/
theorem Numbered.split {α : Type} {s u t : State} {x : α × State} (h : Numbered s u t) (g1 : Grows s x.2)
    (g2 : Grows x.2 t) : Numbered s u x.2 ∧ ∀ y : α × State, SameRun s u x y → Numbered x.2 y.2 t := by
  obtain ⟨a, ha, hae⟩ := g1
  obtain ⟨b, hb, -⟩ := g2
  rcases h with h | ⟨calls, hc, hs⟩
  · refine ⟨.inl h, fun y hr => .inl ?_⟩
    obtain ⟨c, h1, h2⟩ := hr.calls
    rw [h1, h2, List.length_append, List.length_append, h]
  · have : calls = a ++ b := by
      rw [hc, ha, List.append_assoc] at hb
      exact List.append_cancel_left hb
    subst this
    obtain ⟨hs1, hs2⟩ := hs.split
    exact ⟨.inr ⟨a, ha, hs1⟩, fun _ _ => .inr ⟨b, hb, by rw [hae]; exact hs2⟩⟩

/-- The answer to the first call of a numbered run, and what that call samples of it, are the same from `u`. -/
theorem Numbered.answer {s u t : State} {k : Call} {rest : List Call} (h : Alike s u) (hn : Numbered s u t)
    (ht : t.wire = s.wire ++ k :: rest) :
    s.answer = u.answer ∧ s.answer.sample s.wire.length k.width = u.answer.sample u.wire.length k.width := by
  rcases hn with hn | ⟨calls, hc, hl, hw⟩
  · have : s.answer = u.answer := by unfold State.answer; rw [h.env, hn]
    exact ⟨this, by rw [this, hn]⟩
  · rw [ht] at hc
    have := List.append_cancel_left hc
    subst this
    cases he : s.env with
    | nil => rw [he] at hl; simp at hl
    | cons a env =>
      have h1 : s.answer = a := by simp [State.answer, he]
      have h2 : u.answer = a := by simp [State.answer, ← h.env, he]
      rw [h1, h2]
      refine ⟨rfl, ?_⟩
      cases hf : a.failed with
      | true => rw [(sample_eq_none_iff _ _ _).2 hf, (sample_eq_none_iff _ _ _).2 hf]
      | false =>
        have hwk : k.width ≤ a.bits.length := by
          rcases hw 0 a k (by simp [he]) (by simp) with h | h
          · rw [hf] at h; cases h
          · exact h
        rw [sample_eq_take hf hwk, sample_eq_take hf hwk]

theorem SameRun.trans {α β : Type} {s u s1 u1 : State} {r : α} {x y : β × State}
    (h : SameRun s u (r, s1) (r, u1)) (g : SameRun s1 u1 x y) : SameRun s u x y := by
  obtain ⟨a, ha1, ha2⟩ := h.calls
  obtain ⟨b, hb1, hb2⟩ := g.calls
  refine ⟨g.result, a ++ b, ?_, ?_⟩
  · rw [hb1, show s1.wire = s.wire ++ a from ha1, List.append_assoc]
  · rw [hb2, show u1.wire = u.wire ++ a from ha2, List.append_assoc]

/-- No call. -/
theorem SameRun.pure {α : Type} (s u : State) (r : α) : SameRun s u (r, s) (r, u) :=
  ⟨rfl, [], by simp, by simp⟩

/-! ### The trace only grows -/

theorem swdFrame_grows (p : Port) (d : Dir) (a : BitVec 4) (v : Word) (s : State) : Grows s (swdFrame p d a v s).2 := by
  obtain ⟨c, hd, -⟩ := swdFrame_does p d a v s
  exact hd.grows

theorem abortWrite_grows (w : Word) (s : State) : Grows s (abortWrite w s).2 := by
  have h := swdFrame_grows .dp .write s.cfg.addrAbort w s
  unfold abortWrite
  generalize swdFrame .dp .write s.cfg.addrAbort w s = x at h ⊢
  rcases x with ⟨_ | _, _⟩ <;> exact h

theorem recoverIfAllowed_grows (k : AckClass) (s : State) : Grows s (recoverIfAllowed k s).2 := by
  obtain ⟨c, hd, -⟩ := (recoverIfAllowed_does k s).does
  exact hd.grows

theorem attemptFrame_grows (s : State) : Grows s (attemptFrame s).2 := by
  obtain ⟨c, hd, -⟩ := (attemptFrame_does s).does
  exact hd.grows

/-- What the loop does after the frame of an attempt. -/
def afterFrame (n : Nat) (r : Except Exit AckClass × State) : Except Exit Unit × State :=
  match r with
  | (.error e, s1) => (.error e, s1)
  | (.ok .ok, s1) => (.ok (), s1)
  | (.ok c, s1) =>
    match recoverIfAllowed c s1 with
    | (.error e, s2) => (.error e, s2)
    | (.ok _, s2) => if s1.isLastAttempt then (.error (.raise .timeout), s2) else attempts n s2

theorem attempts_eq_afterFrame (n : Nat) (s : State) : attempts (n + 1) s = afterFrame n (attemptFrame s) := rfl

theorem afterFrame_failed (n : Nat) {k : AckClass} (s : State) (h : k ≠ .ok) : afterFrame n (.ok k, s) =
    (match recoverIfAllowed k s with
    | (.error e, s2) => (.error e, s2)
    | (.ok _, s2) => if s.isLastAttempt then (.error (.raise .timeout), s2) else attempts n s2) := by
  cases k with
  | ok => exact absurd rfl h
  | wait => rfl
  | fault => rfl
  | noAck => rfl

theorem afterFrame_grows_of {n : Nat} (ih : ∀ s, Grows s (attempts n s).2) (r : Except Exit AckClass × State) :
    Grows r.2 (afterFrame n r).2 := by
  obtain ⟨e | k, s⟩ := r
  · exact .refl s
  · by_cases hk : k = .ok
    · subst hk; exact .refl s
    · rw [afterFrame_failed n s hk]
      have h := recoverIfAllowed_grows k s
      generalize recoverIfAllowed k s = x at h ⊢
      rcases x with ⟨_ | _, s2⟩
      · exact h
      · dsimp only
        split
        · exact h
        · exact Grows.trans h (ih s2)

theorem attempts_grows (n : Nat) : ∀ s, Grows s (attempts n s).2 := by
  induction n with
  | zero => exact .refl
  | succ n ih => intro s; exact (attemptFrame_grows s).trans (afterFrame_grows_of ih _)

theorem afterFrame_grows (n : Nat) (r : Except Exit AckClass × State) : Grows r.2 (afterFrame n r).2 :=
  afterFrame_grows_of (attempts_grows n) r

theorem followUpRead_grows (s : State) : Grows s (followUpRead s).2 := by
  obtain ⟨c, hd, -⟩ := followUpRead_does s
  exact hd.grows

theorem checkedData_state (s : State) : (checkedData s).2 = s := by unfold checkedData; split <;> rfl

theorem afterOk_grows (s : State) : Grows s (afterOk s).2 := by
  unfold afterOk
  split
  · exact .refl s
  · split
    · rw [checkedData_state]; exact .refl s
    · exact followUpRead_grows s

theorem jtagIdle_grows (s : State) : Grows s (jtagIdle s).2 := by
  obtain ⟨⟨c, hd, -⟩, -⟩ := (jtagIdle_does s).1
  exact hd.grows

theorem jtagShift_grows (q : JSeq) (s : State) : Grows s (jtagShift q s).2 := by
  rw [jtagShift_eq]; exact ⟨[q.call], rfl, by simp⟩

theorem ensureIr_grows (v : BitVec 8) (len : Nat) (s : State) :
    Grows s (writeIr v len s).2 ∧ Grows s (ensureIr v len s).2 := by
  have hw : Grows s (writeIr v len s).2 := by
    unfold writeIr
    cases jtagEncIr v len with
    | error e => exact .refl s
    | ok q =>
      dsimp only
      have h : Grows s (jtagShift q (s.setIr none)).2 := jtagShift_grows q (s.setIr none)
      generalize jtagShift q (s.setIr none) = x at h ⊢
      rcases x with ⟨_ | _, s1⟩
      · exact h
      · dsimp only at h ⊢
        have h2 := h.trans (jtagIdle_grows s1)
        generalize jtagIdle s1 = y at h2 ⊢
        rcases y with ⟨_ | _, s2⟩ <;> exact h2
  refine ⟨hw, ?_⟩
  unfold ensureIr
  split
  · exact .refl s
  · exact hw

theorem shiftDr_grows (bytes : List Byte) (n : Nat) (s : State) : Grows s (shiftDr bytes n s).2 := by
  unfold shiftDr
  cases jtagEncDr s.cfg bytes n with
  | none => exact .refl s
  | some q =>
    dsimp only
    have h : Grows s (jtagShift q s).2 := jtagShift_grows q s
    generalize jtagShift q s = x at h ⊢
    rcases x with ⟨_ | _, s1⟩
    · exact h
    · dsimp only at h ⊢
      have h2 := h.trans (jtagIdle_grows s1)
      generalize jtagIdle s1 = y at h2 ⊢
      rcases y with ⟨_ | _, s2⟩ <;> exact h2

/-! ### Frames -/

theorem swdFrame_alike {s u : State} (h : AlikeTxn s u) (p : Port) (d : Dir) (a : BitVec 4) (v : Word)
    (hn : Numbered s u (swdFrame p d a v s).2) :
    SameRun s u (swdFrame p d a v s) (swdFrame p d a v u) ∧
      AlikeTxn (swdFrame p d a v s).2 (swdFrame p d a v u).2 ∧
      (d = .read → (∃ k, (swdFrame p d a v s).1 = .ok k) →
        SameData (swdFrame p d a v s).2 (swdFrame p d a v u).2) := by
  cases hq : requestFrame s.cfg p d a v with
  | none =>
    have hq' : requestFrame u.cfg p d a v = none := by rw [← h.cfg]; exact hq
    have h1 : swdFrame p d a v s = (.error .assert, s) := by simp [swdFrame, hq]
    have h2 : swdFrame p d a v u = (.error .assert, u) := by simp [swdFrame, hq']
    rw [h1, h2]
    exact ⟨.pure s u _, h, by rintro - ⟨k, hk⟩; cases hk⟩
  | some q =>
    have hq' : requestFrame u.cfg p d a v = some q := by rw [← h.cfg]; exact hq
    have hw : (swdFrame p d a v s).2.wire = s.wire ++ [q.call] := by
      rw [swdFrame_eq hq]
      cases s.answer.sample s.wire.length q.io.length <;> simp
    have hs : s.answer.sample s.wire.length q.io.length = u.answer.sample u.wire.length q.io.length :=
      (hn.answer h.toAlike hw).2
    rw [swdFrame_eq hq, swdFrame_eq hq', ← hs, ← h.cfg]
    cases s.answer.sample s.wire.length q.io.length with
    | none =>
      refine ⟨⟨rfl, [q.call], rfl, rfl⟩, ?_, by rintro - ⟨k, hk⟩; cases hk⟩
      exact ⟨⟨h.cfg, h.ps, by simp [h.env]⟩, h.port, h.dir, h.addr, h.value, h.followup, h.attempt⟩
    | some smp =>
      refine ⟨⟨rfl, [q.call], by simp, by simp⟩, ?_, ?_⟩
      · exact ⟨⟨by simp [h.cfg], by simp [h.ps], by simp [h.env]⟩, by simp [h.port], by simp [h.dir],
          by simp [h.addr], by simp [h.value], by simp [h.followup], by simp [h.attempt]⟩
      · rintro rfl -
        simp [SameData, State.latch, h.cfg]

theorem lineReset_alike {s u : State} (h : Alike s u) (hn : Numbered s u (lineReset s).2) :
    SameRun s u (lineReset s) (lineReset u) ∧ Alike (lineReset s).2 (lineReset u).2 := by
  have ha := (hn.answer h (k := (swdEncLineReset s.cfg).call) (rest := []) (by rw [lineReset_eq]; rfl)).1
  rw [lineReset_eq, lineReset_eq, ← ha, ← h.cfg]
  exact ⟨⟨rfl, [(swdEncLineReset s.cfg).call], rfl, rfl⟩, ⟨h.cfg, h.ps, by simp [h.env]⟩⟩

theorem lineReset_alikeTxn {s u : State} (h : AlikeTxn s u) (hn : Numbered s u (lineReset s).2) :
    AlikeTxn (lineReset s).2 (lineReset u).2 := by
  obtain ⟨-, h1⟩ := lineReset_alike h.toAlike hn
  refine ⟨h1, ?_, ?_, ?_, ?_, ?_, ?_⟩ <;> rw [(lineReset_does s).2.2.1, (lineReset_does u).2.2.1]
  exacts [h.port, h.dir, h.addr, h.value, h.followup, h.attempt]

/-! ### Recovery -/

theorem abortWrite_alike {s u : State} (h : AlikeTxn s u) (w : Word) (hn : Numbered s u (abortWrite w s).2) :
    SameRun s u (abortWrite w s) (abortWrite w u) ∧ AlikeTxn (abortWrite w s).2 (abortWrite w u).2 := by
  have hst : (abortWrite w s).2 = (swdFrame .dp .write s.cfg.addrAbort w s).2 := by
    unfold abortWrite
    rcases swdFrame .dp .write s.cfg.addrAbort w s with ⟨_ | _, _⟩ <;> rfl
  rw [hst] at hn
  obtain ⟨h1, h2, -⟩ := swdFrame_alike h .dp .write s.cfg.addrAbort w hn
  unfold abortWrite
  rw [← h.cfg]
  cases hx : swdFrame .dp .write s.cfg.addrAbort w s with
  | mk r s1 =>
    cases hy : swdFrame .dp .write s.cfg.addrAbort w u with
    | mk r' u1 =>
      rw [hx, hy] at h1 h2
      have : r = r' := h1.result
      subst this
      obtain ⟨calls, hc1, hc2⟩ := h1.calls
      rcases r with e | k
      · exact ⟨⟨rfl, calls, hc1, hc2⟩, h2⟩
      · exact ⟨⟨rfl, calls, hc1, hc2⟩, h2⟩

theorem recoverFault_alike {s u : State} (h : AlikeTxn s u) (hn : Numbered s u (recoverFault s).2) :
    SameRun s u (recoverFault s) (recoverFault u) ∧ AlikeTxn (recoverFault s).2 (recoverFault u).2 := by
  have hg : Grows (swdFrame .dp .read s.cfg.addrCtrlstat 0#32 s).2 (recoverFault s).2 := by
    unfold recoverFault
    rcases swdFrame .dp .read s.cfg.addrCtrlstat 0#32 s with ⟨_ | _, s1⟩
    · exact .refl s1
    · dsimp only
      split
      · exact .refl s1
      split
      · exact .refl s1
      split
      · exact .refl s1
      · exact abortWrite_grows _ s1
  obtain ⟨hn1, hn2⟩ := hn.split (swdFrame_grows ..) hg
  obtain ⟨h1, h2, h3⟩ := swdFrame_alike h .dp .read s.cfg.addrCtrlstat 0#32 hn1
  have hn2 := hn2 _ h1
  unfold recoverFault at hn2 ⊢
  rw [← h.cfg]
  cases hx : swdFrame .dp .read s.cfg.addrCtrlstat 0#32 s with
  | mk r s1 =>
    cases hy : swdFrame .dp .read s.cfg.addrCtrlstat 0#32 u with
    | mk r' u1 =>
      rw [hx, hy] at h1 h2 h3 hn2
      have : r = r' := h1.result
      subst this
      have h2 : AlikeTxn s1 u1 := h2
      rcases r with e | k
      · exact ⟨⟨rfl, h1.calls⟩, h2⟩
      · obtain ⟨hd, hp⟩ := h3 rfl ⟨k, rfl⟩
        have hd : s1.eng.data = u1.eng.data := hd
        have hp : s1.eng.par = u1.eng.par := hp
        have hok : s1.eng.parityOk = u1.eng.parityOk := by unfold Engine.parityOk; rw [hd, hp]
        dsimp only at hn2 ⊢
        rw [← hok, ← hd, ← h2.cfg]
        split
        · exact ⟨⟨rfl, h1.calls⟩, h2⟩
        next hk =>
        rw [if_neg hk] at hn2
        split
        · exact ⟨⟨rfl, h1.calls⟩, h2⟩
        next hp2 =>
        rw [if_neg hp2] at hn2
        split
        · exact ⟨⟨rfl, h1.calls⟩, h2⟩
        next hs =>
        rw [if_neg hs] at hn2
        obtain ⟨h4, h5⟩ := abortWrite_alike h2 (abortWord s1.cfg (stickyOrun s1.cfg s1.eng.data)
          (stickyErr s1.cfg s1.eng.data)) hn2
        exact ⟨h1.trans h4, h5⟩

theorem recoverIfAllowed_alike {s u : State} (h : AlikeTxn s u) (k : AckClass)
    (hn : Numbered s u (recoverIfAllowed k s).2) :
    SameRun s u (recoverIfAllowed k s) (recoverIfAllowed k u) ∧
      AlikeTxn (recoverIfAllowed k s).2 (recoverIfAllowed k u).2 := by
  have hl : s.isLastAttempt = u.isLastAttempt := by unfold State.isLastAttempt; rw [h.attempt]
  unfold recoverIfAllowed at hn ⊢
  rw [← hl, ← h.cfg]
  split
  · next hr =>
    rw [if_pos hr] at hn
    cases k with
    | ok => exact ⟨.pure s u _, h⟩
    | wait =>
      show SameRun s u (recoverWait s) (recoverWait u) ∧ AlikeTxn (recoverWait s).2 (recoverWait u).2
      unfold recoverWait
      rw [← h.cfg]
      exact abortWrite_alike h _ hn
    | fault => exact recoverFault_alike h hn
    | noAck => exact ⟨(lineReset_alike h.toAlike hn).1, lineReset_alikeTxn h hn⟩
  · exact ⟨.pure s u _, h⟩

/-! ### Attempts -/

theorem attemptFrame_alike {s u : State} (h : AlikeTxn s u) (hn : Numbered s u (attemptFrame s).2) :
    SameRun s u (attemptFrame s) (attemptFrame u) ∧ AlikeTxn (attemptFrame s).2 (attemptFrame u).2 ∧
      (s.eng.txn.dir = .read → (∃ k, (attemptFrame s).1 = .ok k) →
        SameData (attemptFrame s).2 (attemptFrame u).2) := by
  have hqq : requestFrame u.cfg u.eng.txn.port u.eng.txn.dir u.eng.txn.addr u.eng.txn.value =
      requestFrame s.cfg s.eng.txn.port s.eng.txn.dir s.eng.txn.addr s.eng.txn.value := by
    rw [h.cfg, h.port, h.dir, h.addr, h.value]
  cases hq : requestFrame s.cfg s.eng.txn.port s.eng.txn.dir s.eng.txn.addr s.eng.txn.value with
  | none =>
    have hf : ∀ s : State, requestFrame s.cfg s.eng.txn.port s.eng.txn.dir s.eng.txn.addr s.eng.txn.value = none →
        attemptFrame s = (.error .assert, s) := by
      intro s hq
      have : sendRequest s = none := by
        simp only [sendRequest, State.setAttempt_cfg, State.setPhase_cfg, State.setAttempt_eng, State.setPhase_eng, hq]
      simp [attemptFrame, this]
    rw [hf s hq, hf u (by rw [hqq]; exact hq)]
    exact ⟨.pure s u _, h, by rintro - ⟨k, hk⟩; cases hk⟩
  | some q =>
    have hw : (attemptFrame s).2.wire = s.wire ++ [q.call] := by
      rw [attemptFrame_eq hq]
      cases s.answer.sample s.wire.length q.io.length <;> simp
    have hs : s.answer.sample s.wire.length q.io.length = u.answer.sample u.wire.length q.io.length :=
      (hn.answer h.toAlike hw).2
    rw [attemptFrame_eq hq, attemptFrame_eq (s := u) (by rw [hqq]; exact hq), ← hs, ← h.cfg, ← h.dir, ← h.attempt]
    cases s.answer.sample s.wire.length q.io.length with
    | none =>
      refine ⟨⟨rfl, [q.call], rfl, rfl⟩, ?_, by rintro - ⟨k, hk⟩; cases hk⟩
      exact ⟨⟨h.cfg, h.ps, by simp [h.env]⟩, h.port, h.dir, h.addr, h.value, h.followup, rfl⟩
    | some smp =>
      refine ⟨⟨rfl, [q.call], by simp, by simp⟩, ?_, ?_⟩
      · exact ⟨⟨by simp [h.cfg], by simp [h.ps], by simp [h.env]⟩, by simp [h.port], by simp [h.dir],
          by simp [h.addr], by simp [h.value], by simp [h.followup], by simp⟩
      · rintro hd -
        simp [SameData, hd, State.latch, h.cfg]

theorem attempts_alike (n : Nat) : ∀ {s u : State}, AlikeTxn s u → Numbered s u (attempts n s).2 →
    SameRun s u (attempts n s) (attempts n u) ∧ AlikeTxn (attempts n s).2 (attempts n u).2 ∧
      (s.eng.txn.dir = .read → (attempts n s).1 = .ok () → SameData (attempts n s).2 (attempts n u).2) := by
  induction n with
  | zero => intro s u h _; exact ⟨.pure s u _, h, by intro _ h; cases h⟩
  | succ n ih =>
    intro s u h hn
    rw [attempts_eq_afterFrame] at hn
    rw [attempts_eq_afterFrame, attempts_eq_afterFrame]
    obtain ⟨hn1, hn2⟩ := hn.split (attemptFrame_grows s) (afterFrame_grows n _)
    obtain ⟨h1, h2, h3⟩ := attemptFrame_alike h hn1
    have htx := (attemptFrame_does s).txn
    have hn2 := hn2 _ h1
    cases hx : attemptFrame s with
    | mk r s1 =>
      cases hy : attemptFrame u with
      | mk r' u1 =>
        rw [hx, hy] at h1 h2 h3 hn2
        rw [hx] at htx
        have htx : s1.eng.txn = s.eng.txn := htx
        have : r = r' := h1.result
        subst this
        have h2 : AlikeTxn s1 u1 := h2
        rcases r with e | k
        · exact ⟨⟨rfl, h1.calls⟩, h2, by intro _ h; cases h⟩
        have h3 := fun hd => h3 hd ⟨k, rfl⟩
        by_cases hk : k = .ok
        · subst hk
          exact ⟨⟨rfl, h1.calls⟩, h2, fun hd _ => h3 hd⟩
        rw [afterFrame_failed n s1 hk] at hn2 ⊢
        rw [afterFrame_failed n u1 hk]
        have hg : Grows (recoverIfAllowed k s1).2 (match recoverIfAllowed k s1 with
            | (.error e, s2) => ((.error e, s2) : Except Exit Unit × State)
            | (.ok _, s2) => if s1.isLastAttempt then (.error (.raise .timeout), s2) else attempts n s2).2 := by
          rcases recoverIfAllowed k s1 with ⟨_ | _, s2⟩
          · exact .refl s2
          · dsimp only
            split
            · exact .refl s2
            · exact attempts_grows n s2
        obtain ⟨hn3, hn4⟩ := hn2.split (recoverIfAllowed_grows k s1) hg
        obtain ⟨h4, h5⟩ := recoverIfAllowed_alike h2 k hn3
        have hn4 := hn4 _ h4
        have htx2 := (recoverIfAllowed_does k s1).keeps.txn
        have hl : s1.isLastAttempt = u1.isLastAttempt := by unfold State.isLastAttempt; rw [h2.attempt]
        rw [← hl]
        cases hz : recoverIfAllowed k s1 with
        | mk r2 s2 =>
          cases hw : recoverIfAllowed k u1 with
          | mk r2' u2 =>
            rw [hz, hw] at h4 h5 hn4
            rw [hz] at htx2
            have htx2 : s2.eng.txn = s1.eng.txn := htx2
            have : r2 = r2' := h4.result
            subst this
            have h5 : AlikeTxn s2 u2 := h5
            have h14 := h1.trans (r := Except.ok k) h4
            rcases r2 with e | _
            · exact ⟨⟨rfl, h14.calls⟩, h5, by intro _ h; cases h⟩
            dsimp only at hn4 ⊢
            split
            · exact ⟨⟨rfl, h14.calls⟩, h5, by intro _ h; cases h⟩
            next hlast =>
            rw [if_neg hlast] at hn4
            obtain ⟨h6, h7, h8⟩ := ih h5 hn4
            refine ⟨SameRun.trans (r := Except.ok ()) h14 h6, h7, ?_⟩
            intro hd hok
            exact h8 (by rw [htx2, htx]; exact hd) hok

/-! ### `dap_access` -/

theorem checkedData_alike {s u : State} (h : AlikeTxn s u) (hd : SameData s u) :
    SameRun s u (checkedData s) (checkedData u) ∧ AlikeTxn (checkedData s).2 (checkedData u).2 := by
  have hok : s.eng.parityOk = u.eng.parityOk := by unfold Engine.parityOk; rw [hd.1, hd.2]
  unfold checkedData
  rw [← hok, ← hd.1]
  split
  · exact ⟨.pure s u _, h⟩
  · exact ⟨.pure s u _, h⟩

/-- Loading Transactions that agree but for the Access Port index. -/
theorem AlikeTxn.load {s u : State} (h : Alike s u) {t t' : Txn} (f : Bool) (hp : t.port = t'.port)
    (hd : t.dir = t'.dir) (ha : t.addr = t'.addr) (hv : t.value = t'.value) :
    AlikeTxn (s.loadTxn t f) (u.loadTxn t' f) :=
  ⟨⟨h.cfg, h.ps, h.env⟩, hp, hd, ha, hv, rfl, rfl⟩

theorem followUpRead_alike {s u : State} (h : AlikeTxn s u) (hn : Numbered s u (followUpRead s).2) :
    SameRun s u (followUpRead s) (followUpRead u) ∧ AlikeTxn (followUpRead s).2 (followUpRead u).2 := by
  have hl : AlikeTxn ((s.setPhase .followUp).loadTxn (followUpTxn s.cfg s.eng.txn) true)
      ((u.setPhase .followUp).loadTxn (followUpTxn u.cfg u.eng.txn) true) :=
    .load (s := s.setPhase .followUp) (u := u.setPhase .followUp) ⟨h.cfg, h.ps, h.env⟩ true rfl rfl
      (by simp [followUpTxn, h.cfg]) rfl
  have hst : (followUpRead s).2 =
      (attempts Config.maxAttempts ((s.setPhase .followUp).loadTxn (followUpTxn s.cfg s.eng.txn) true)).2 := by
    unfold followUpRead
    rcases attempts Config.maxAttempts ((s.setPhase .followUp).loadTxn (followUpTxn s.cfg s.eng.txn) true) with
      ⟨_ | _, s1⟩
    · rfl
    · exact checkedData_state s1
  rw [hst] at hn
  obtain ⟨h1, h2, h3⟩ := attempts_alike Config.maxAttempts hl hn
  unfold followUpRead
  cases hx : attempts Config.maxAttempts ((s.setPhase .followUp).loadTxn (followUpTxn s.cfg s.eng.txn) true) with
  | mk r s1 =>
    cases hy : attempts Config.maxAttempts ((u.setPhase .followUp).loadTxn (followUpTxn u.cfg u.eng.txn) true) with
    | mk r' u1 =>
      rw [hx, hy] at h1 h2 h3
      have : r = r' := h1.result
      subst this
      have h0 : SameRun s u (r, s1) (r, u1) := ⟨rfl, h1.calls⟩
      rcases r with e | _
      · exact ⟨⟨rfl, h1.calls⟩, h2⟩
      · obtain ⟨h4, h5⟩ := checkedData_alike (show AlikeTxn s1 u1 from h2) (h3 rfl rfl)
        exact ⟨h0.trans h4, h5⟩

theorem afterOk_alike {s u : State} (h : AlikeTxn s u) (hd : s.eng.txn.dir = .read → SameData s u)
    (hn : Numbered s u (afterOk s).2) :
    SameRun s u (afterOk s) (afterOk u) ∧ AlikeTxn (afterOk s).2 (afterOk u).2 := by
  unfold afterOk at hn ⊢
  rw [← h.dir, ← h.port]
  cases hdir : s.eng.txn.dir with
  | write => exact ⟨.pure s u _, h⟩
  | read =>
    rw [hdir] at hn
    cases hport : s.eng.txn.port with
    | dp => exact checkedData_alike h (hd hdir)
    | ap =>
      rw [hport] at hn
      exact followUpRead_alike h hn

/-- `dap_access` comes to the same result over the same calls, whatever the engine latches held and whatever the Access
Port index is (R52, R69). -/
theorem dapAccess_alike {s u : State} (h : Alike s u) {t t' : Txn} (hp : t.port = t'.port) (hd : t.dir = t'.dir)
    (ha : t.addr = t'.addr) (hv : t.value = t'.value) (hn : Numbered s u (dapAccess t s).2) :
    SameRun s u (dapAccess t s) (dapAccess t' u) ∧ AlikeTxn (dapAccess t s).2 (dapAccess t' u).2 := by
  have hend : ∀ x y : Except Exit Word × State, SameRun s u x y → AlikeTxn x.2 y.2 →
      SameRun s u (endPhase x) (endPhase y) ∧ AlikeTxn (endPhase x).2 (endPhase y).2 := by
    rintro ⟨r, s1⟩ ⟨r', u1⟩ h1 h2
    have : r = r' := h1.result
    subst this
    rcases r with e | v
    · exact ⟨⟨rfl, h1.calls⟩, ⟨⟨h2.cfg, h2.ps, h2.env⟩, h2.port, h2.dir, h2.addr, h2.value, h2.followup, h2.attempt⟩⟩
    · exact ⟨⟨rfl, h1.calls⟩, ⟨⟨h2.cfg, h2.ps, h2.env⟩, h2.port, h2.dir, h2.addr, h2.value, h2.followup, h2.attempt⟩⟩
  have hendN : ∀ (a b : State) (x : Except Exit Word × State), Numbered a b (endPhase x).2 → Numbered a b x.2 := by
    rintro a b ⟨_ | _, s1⟩ h <;> exact h
  have hg : Grows (attempts Config.maxAttempts (s.loadTxn t false)).2 (dapAccess t s).2 := by
    unfold dapAccess
    rcases attempts Config.maxAttempts (s.loadTxn t false) with ⟨_ | _, s1⟩
    · exact .refl s1
    · have h1 := afterOk_grows s1
      show Grows s1 (endPhase (afterOk s1)).2
      generalize afterOk s1 = x at h1 ⊢
      rcases x with ⟨_ | _, s2⟩ <;> exact h1
  obtain ⟨hn1, hn2⟩ := Numbered.split (s := s.loadTxn t false) (u := u.loadTxn t' false)
    (t := (dapAccess t s).2) hn (attempts_grows _ _) hg
  obtain ⟨h1, h2, h3⟩ := attempts_alike Config.maxAttempts (AlikeTxn.load h false hp hd ha hv) hn1
  have hn2 := hn2 _ h1
  have htx := (attempts_do Config.maxAttempts (s.loadTxn t false) (by simp)).txn
  unfold dapAccess at hn2 ⊢
  cases hx : attempts Config.maxAttempts (s.loadTxn t false) with
  | mk r s1 =>
    cases hy : attempts Config.maxAttempts (u.loadTxn t' false) with
    | mk r' u1 =>
      rw [hx, hy] at h1 h2 h3 hn2
      rw [hx] at htx
      have htx' : s1.eng.txn = t := htx
      have : r = r' := h1.result
      subst this
      have h0 : SameRun s u (r, s1) (r, u1) := ⟨rfl, h1.calls⟩
      have h2 : AlikeTxn s1 u1 := h2
      rcases r with e | _
      · exact hend _ _ ⟨rfl, h1.calls⟩ h2
      · obtain ⟨h4, h5⟩ := afterOk_alike (s := s1) (u := u1) h2 (fun hr => h3 (by rw [htx'] at hr; exact hr) rfl)
          (hendN _ _ _ hn2)
        exact hend _ _ (h0.trans h4) h5

/-! ### The JTAG path -/

theorem jtagShift_alike {s u : State} (h : Alike s u) (q : JSeq) (hn : Numbered s u (jtagShift q s).2) :
    SameRun s u (jtagShift q s) (jtagShift q u) ∧ Alike (jtagShift q s).2 (jtagShift q u).2 := by
  have hs : s.answer.sample s.wire.length q.tms.length = u.answer.sample u.wire.length q.tms.length :=
    (hn.answer h (k := q.call) (rest := []) rfl).2
  rw [jtagShift_eq, jtagShift_eq, ← hs]
  exact ⟨⟨rfl, [q.call], rfl, rfl⟩, ⟨h.cfg, h.ps, by simp [h.env]⟩⟩

theorem Alike.setIr {s u : State} (h : Alike s u) (r : Option (BitVec 8)) : Alike (s.setIr r) (u.setIr r) :=
  ⟨h.cfg, by simp [h.ps], h.env⟩

theorem jtagIdle_alike {s u : State} (h : Alike s u) (hn : Numbered s u (jtagIdle s).2) :
    SameRun s u (jtagIdle s) (jtagIdle u) ∧ Alike (jtagIdle s).2 (jtagIdle u).2 := by
  unfold jtagIdle at hn ⊢
  rw [← h.ps]
  cases hq : jtagEncIdle s.ps.jtagIdleCycles with
  | none => exact ⟨.pure s u _, h⟩
  | some q =>
    rw [hq] at hn
    have hn : Numbered s u (jtagShift q s).2 := by
      dsimp only at hn
      generalize jtagShift q s = x at hn ⊢
      rcases x with ⟨_ | _, _⟩ <;> exact hn
    obtain ⟨h1, h2⟩ := jtagShift_alike h q hn
    dsimp only
    cases hx : jtagShift q s with
    | mk r s1 =>
      cases hy : jtagShift q u with
      | mk r' u1 =>
        rw [hx, hy] at h1 h2
        have : r = r' := h1.result
        subst this
        rcases r with _ | v
        · exact ⟨⟨rfl, h1.calls⟩, h2.setIr none⟩
        · exact ⟨⟨rfl, h1.calls⟩, h2⟩

/-- A shift, and then on `Failed` a change of registers, on `Done` the idle frame and a change of registers. -/
theorem jtagShift_then_alike {β : Type} {s u : State} (h : Alike s u) (q : JSeq) (F : State → State)
    (G : Bits → Except Exit Unit × State → Except Exit β × State)
    (hF : ∀ a b, Alike a b → Alike (F a) (F b)) (hFw : ∀ a, (F a).wire = a.wire)
    (hG : ∀ tdo r a b, Alike a b → (G tdo (r, a)).1 = (G tdo (r, b)).1 ∧ Alike (G tdo (r, a)).2 (G tdo (r, b)).2)
    (hGw : ∀ tdo r a, (G tdo (r, a)).2.wire = a.wire) (run : State → Except Exit β × State)
    (hrun : ∀ s, run s = match jtagShift q s with
      | (none, s1) => (.error (.raise .probeSpecific), F s1)
      | (some tdo, s1) => G tdo (jtagIdle s1))
    (hn : Numbered s u (run s).2) : SameRun s u (run s) (run u) ∧ Alike (run s).2 (run u).2 := by
  have hcongr : ∀ (a b t t' : State), t'.wire = t.wire → Numbered a b t → Numbered a b t' := by
    intro a b t t' ht hab
    unfold Numbered at hab ⊢
    rwa [ht]
  rw [hrun] at hn
  rw [hrun, hrun]
  have hsplit : Numbered s u (jtagShift q s).2 ∧ ∀ u1, SameRun s u ((), (jtagShift q s).2) ((), u1) →
      Numbered (jtagShift q s).2 u1 (jtagIdle (jtagShift q s).2).2 ∨ (jtagShift q s).1 = none := by
    have hg := jtagShift_grows q s
    generalize jtagShift q s = x at hg hn ⊢
    rcases x with ⟨_ | tdo, s1⟩
    · exact ⟨hcongr _ _ _ _ (hFw s1).symm hn, fun _ _ => .inr rfl⟩
    · have hn : Numbered s u (jtagIdle s1).2 := hcongr _ _ _ _ (hGw tdo (jtagIdle s1).1 (jtagIdle s1).2).symm hn
      obtain ⟨h1, h2⟩ := hn.split (x := ((), s1)) hg (jtagIdle_grows s1)
      exact ⟨h1, fun u1 hr => .inl (h2 ((), u1) hr)⟩
  obtain ⟨h1, h2⟩ := jtagShift_alike h q hsplit.1
  have hn2 := hsplit.2 (jtagShift q u).2 ⟨rfl, h1.calls⟩
  cases hx : jtagShift q s with
  | mk r s1 =>
    cases hy : jtagShift q u with
    | mk r' u1 =>
      rw [hx, hy] at h1 h2 hn2
      have : r = r' := h1.result
      subst this
      rcases r with _ | tdo
      · obtain ⟨c, h3, h4⟩ := h1.calls
        exact ⟨⟨rfl, c, (hFw s1).trans h3, (hFw u1).trans h4⟩, hF _ _ h2⟩
      · rcases hn2 with hn2 | hn2
        · obtain ⟨h3, h4⟩ := jtagIdle_alike (s := s1) (u := u1) h2 hn2
          have h0 : SameRun s u (some tdo, s1) (some tdo, u1) := ⟨rfl, h1.calls⟩
          obtain ⟨c, h5, h6⟩ := (h0.trans h3).calls
          have h7 := hG tdo (jtagIdle s1).1 (jtagIdle s1).2 (jtagIdle u1).2 h4
          have h8 : jtagIdle u1 = ((jtagIdle s1).1, (jtagIdle u1).2) := by rw [h3.result]
          have h9 := hGw tdo (jtagIdle s1).1 (jtagIdle u1).2
          dsimp only
          rw [h8]
          exact ⟨⟨h7.1, c, (hGw tdo (jtagIdle s1).1 (jtagIdle s1).2).trans h5, h9.trans h6⟩, h7.2⟩
        · cases hn2

theorem ensureIr_alike {s u : State} (h : Alike s u) (v : BitVec 8) (len : Nat) :
    (Numbered s u (writeIr v len s).2 →
      SameRun s u (writeIr v len s) (writeIr v len u) ∧ Alike (writeIr v len s).2 (writeIr v len u).2) ∧
    (Numbered s u (ensureIr v len s).2 →
      SameRun s u (ensureIr v len s) (ensureIr v len u) ∧ Alike (ensureIr v len s).2 (ensureIr v len u).2) := by
  have hw : Numbered s u (writeIr v len s).2 →
      SameRun s u (writeIr v len s) (writeIr v len u) ∧ Alike (writeIr v len s).2 (writeIr v len u).2 := by
    intro hn
    cases hq : jtagEncIr v len with
    | error e =>
      have hf : ∀ s, writeIr v len s = (.error e, s) := by intro s; unfold writeIr; rw [hq]
      rw [hf, hf]
      exact ⟨.pure s u _, h⟩
    | ok q =>
      let run : State → Except Exit Unit × State := fun s => match jtagShift q s with
        | (none, s1) => (.error (.raise .probeSpecific), s1)
        | (some _, s1) =>
          match jtagIdle s1 with
          | (.error e, s2) => (.error e, s2)
          | (.ok _, s2) => (.ok (), s2.setIr (some v))
      have hf : ∀ s, writeIr v len s = run (s.setIr none) := by intro s; unfold writeIr; rewrite [hq]; rfl
      rw [hf] at hn
      rw [hf, hf]
      obtain ⟨⟨h1, h2⟩, h3⟩ := jtagShift_then_alike (h.setIr none) q id
        (fun _ r => match r with
          | (.error e, s2) => (.error e, s2)
          | (.ok _, s2) => (.ok (), s2.setIr (some v)))
        (fun _ _ h => h) (fun _ => rfl)
        (by rintro _ (e | _) a b h
            · exact ⟨rfl, h⟩
            · exact ⟨rfl, h.setIr _⟩)
        (by rintro _ (_ | _) a <;> rfl) run (fun _ => rfl) hn
      exact ⟨⟨h1, h2⟩, h3⟩
  refine ⟨hw, fun hn => ?_⟩
  unfold ensureIr at hn ⊢
  rw [← h.ps]
  split
  · exact ⟨.pure s u _, h⟩
  · next hne =>
    rw [if_neg hne] at hn
    exact hw hn

theorem shiftDr_alike {s u : State} (h : Alike s u) (bytes : List Byte) (n : Nat)
    (hn : Numbered s u (shiftDr bytes n s).2) :
    SameRun s u (shiftDr bytes n s) (shiftDr bytes n u) ∧ Alike (shiftDr bytes n s).2 (shiftDr bytes n u).2 := by
  cases hq : jtagEncDr s.cfg bytes n with
  | none =>
    have hf : ∀ u : State, s.cfg = u.cfg → shiftDr bytes n u = (.error .assert, u) := by
      intro u hu; unfold shiftDr; rw [← hu, hq]
    rw [hf s rfl, hf u h.cfg]
    exact ⟨.pure s u _, h⟩
  | some q =>
    let run : State → Except Exit (List Byte) × State := fun s => match jtagShift q s with
      | (none, s1) => (.error (.raise .probeSpecific), s1.setIr none)
      | (some tdo, s1) =>
        match jtagIdle s1 with
        | (.error e, s2) => (.error e, s2)
        | (.ok _, s2) => (.ok (capturedBytes tdo n), s2)
    have hf : ∀ u : State, s.cfg = u.cfg → shiftDr bytes n u = run u := by
      intro u hu; unfold shiftDr; rewrite [← hu, hq]; rfl
    rw [hf s rfl] at hn
    rw [hf s rfl, hf u h.cfg]
    exact jtagShift_then_alike h q (fun s1 => s1.setIr none)
      (fun tdo r => match r with
        | (.error e, s2) => (.error e, s2)
        | (.ok _, s2) => (.ok (capturedBytes tdo n), s2))
      (fun _ _ h => h.setIr none) (fun _ => rfl)
      (by rintro _ (e | _) a b h <;> exact ⟨rfl, h⟩) (by rintro _ (_ | _) a <;> rfl) run (fun _ => rfl) hn

theorem jtagAccess_alike {s u : State} (h : Alike s u) (v : BitVec 8) (len : Nat) (bytes : List Byte) (n : Nat)
    (hn : Numbered s u (jtagAccess v len bytes n s).2) :
    SameRun s u (jtagAccess v len bytes n s) (jtagAccess v len bytes n u) ∧
      Alike (jtagAccess v len bytes n s).2 (jtagAccess v len bytes n u).2 := by
  have hg : Grows (ensureIr v len s).2 (jtagAccess v len bytes n s).2 := by
    unfold jtagAccess
    rcases ensureIr v len s with ⟨_ | _, s1⟩
    · exact .refl s1
    · exact shiftDr_grows bytes n s1
  obtain ⟨hn1, hn2⟩ := hn.split (ensureIr_grows v len s).2 hg
  obtain ⟨h1, h2⟩ := (ensureIr_alike h v len).2 hn1
  have hn2 := hn2 _ h1
  unfold jtagAccess at hn2 ⊢
  cases hx : ensureIr v len s with
  | mk r s1 =>
    cases hy : ensureIr v len u with
    | mk r' u1 =>
      rw [hx, hy] at h1 h2 hn2
      have : r = r' := h1.result
      subst this
      have h0 : SameRun s u (r, s1) (r, u1) := ⟨rfl, h1.calls⟩
      rcases r with e | _
      · exact ⟨⟨rfl, h1.calls⟩, h2⟩
      · obtain ⟨h3, h4⟩ := shiftDr_alike (show Alike s1 u1 from h2) bytes n hn2
        exact ⟨h0.trans h3, h4⟩

/-! ### Commands -/

/-- Two runs of a command made the same calls and came to the same outcome and probe state. -/
def SameOutcome (s u t w : State) : Prop :=
  ∃ calls, t.wire = s.wire ++ calls ∧ w.wire = u.wire ++ calls ∧ t.resp = w.resp ∧ t.ps = w.ps ∧ t.env = w.env

theorem SameOutcome.respond {s u : State} (h : Alike s u) (r : Response) :
    SameOutcome s u (s.respond r) (u.respond r) := ⟨[], by simp, by simp, rfl, h.ps, h.env⟩

theorem SameOutcome.conclude {s u : State} {info info' : Info} {r : Except Exit Value} {α : Type} {x y : α × State}
    (h : SameRun s u x y) (g : Alike x.2 y.2) (hi : info = info') :
    SameOutcome s u (x.2.conclude info r) (y.2.conclude info' r) := by
  obtain ⟨c, h1, h2⟩ := h.calls
  subst hi
  rcases r with (k | _) | v <;> exact ⟨c, h1, h2, rfl, g.ps, g.env⟩

theorem SameOutcome.endEngine {s u : State} {op : BitVec 4} {t : Txn} {r : Except Exit Value} {α : Type}
    {x y : α × State} (h : SameRun s u x y) (g : AlikeTxn x.2 y.2) :
    SameOutcome s u (endEngine op t r x.2) (endEngine op t r y.2) := by
  obtain ⟨c, h1, h2⟩ := h.calls
  refine ⟨c, by simp [h1], by simp [h2], ?_, by simp [g.ps], by simp [g.env]⟩
  unfold Machine.endEngine
  rw [g.followup]
  rcases r with (k | _) | v <;> rfl

/-- A numbered run may end in any state with the same trace. -/
theorem Numbered.congr {s u t t' : State} (h : Numbered s u t) (ht : t'.wire = t.wire) : Numbered s u t' := by
  unfold Numbered at h ⊢
  rwa [ht]

theorem dapRead_alike {s u : State} (h : Alike s u) (p : Port) (x : Nat) (a : BitVec 4)
    (hn : Numbered s u (dapRead p x a s)) : SameOutcome s u (dapRead p x a s) (dapRead p x a u) := by
  unfold dapRead at hn ⊢
  rw [← h.ps]
  split
  · exact .respond h _
  next ha =>
  rw [if_neg ha] at hn
  split
  · exact .respond h _
  next hp =>
  rw [if_neg hp] at hn
  obtain ⟨h1, h2⟩ := dapAccess_alike h (t := ⟨p, x, .read, a, 0#32⟩) (t' := ⟨p, x, .read, a, 0#32⟩) rfl rfl rfl rfl
    (hn.congr (by simp))
  dsimp only
  rw [← h1.result]
  exact .endEngine h1 h2

theorem dapWrite_alike {s u : State} (h : Alike s u) (p : Port) (x : Nat) (a : BitVec 4) (v : Word)
    (hn : Numbered s u (dapWrite p x a v s)) : SameOutcome s u (dapWrite p x a v s) (dapWrite p x a v u) := by
  unfold dapWrite at hn ⊢
  rw [← h.ps]
  split
  · exact .respond h _
  next ha =>
  rw [if_neg ha] at hn
  split
  · exact .respond h _
  next hp =>
  rw [if_neg hp] at hn
  obtain ⟨h1, h2⟩ := dapAccess_alike h (t := ⟨p, x, .write, a, v⟩) (t' := ⟨p, x, .write, a, v⟩) rfl rfl rfl rfl
    (hn.congr (by simp))
  dsimp only
  rw [← h1.result]
  exact .endEngine h1 h2

/-- A line reset and its outcome, for `ATTACH` and `LRST`. -/
theorem lineReset_conclude_alike {s u : State} (h : Alike s u) (op : BitVec 4)
    (hn : Numbered s u ((lineReset s).2.conclude (opInfo op) (unitValue (lineReset s).1))) :
    SameOutcome s u ((lineReset s).2.conclude (opInfo op) (unitValue (lineReset s).1))
      ((lineReset u).2.conclude (opInfo op) (unitValue (lineReset u).1)) := by
  obtain ⟨h1, h2⟩ := lineReset_alike h (hn.congr (by simp))
  rw [← h1.result]
  exact .conclude h1 h2 rfl

theorem callThen_alike {s u : State} (h : Alike s u) (op : BitVec 4) (c : Call) (f : State → State)
    (hf : ∀ s u : State, s.ps = u.ps → (f s).ps = (f u).ps) (hw : ∀ s, (f s).wire = s.wire)
    (he : ∀ s, (f s).env = s.env) (hn : Numbered s u (callThen op c s f)) :
    SameOutcome s u (callThen op c s f) (callThen op c u f) := by
  have ha := (hn.answer h (k := c) (rest := []) (by unfold callThen; split <;> simp [State.raise, hw])).1
  unfold callThen
  rw [← ha]
  split
  · exact ⟨[c], rfl, rfl, rfl, h.ps, by simp [State.raise, h.env]⟩
  · refine ⟨[c], ?_, ?_, rfl, hf _ _ h.ps, ?_⟩
    · simp [hw]
    · simp [hw]
    · simp [he, h.env]

theorem SameOutcome.of {s u s1 u1 t w : State} (h : SameOutcome s1 u1 t w) (h1 : s1.wire = s.wire)
    (h2 : u1.wire = u.wire) : SameOutcome s u t w := by
  unfold SameOutcome at *; rwa [h1, h2] at h

theorem giveValue_alike {s u : State} (h : Alike s u) {v w : Option Value} (hv : v = w) :
    SameOutcome s u (s.giveValue v) (u.giveValue w) := by
  subst hv
  rcases v with _ | v
  · exact .respond h _
  · exact .respond h _

theorem giveEncIr_alike {s u : State} (h : Alike s u) (v : BitVec 8) (len : Nat) :
    SameOutcome s u (giveEncIr v len s) (giveEncIr v len u) := by
  unfold giveEncIr
  rcases encIrValue v len with (k | _) | x <;> exact .respond h _

theorem jtagChecked_alike {s u : State} (h : Alike s u) {op : BitVec 4} {c c' : Bool} {n : Nat} {f : State → State}
    (hc : c = c') (hf : Numbered s u (f s) → SameOutcome s u (f s) (f u)) (hn : Numbered s u (jtagChecked op c n s f)) :
    SameOutcome s u (jtagChecked op c n s f) (jtagChecked op c' n u f) := by
  subst hc
  unfold jtagChecked at hn ⊢
  rw [← h.ps]
  split
  · exact .respond h _
  next h1 =>
  rw [if_neg h1] at hn
  split
  · exact .respond h _
  next h2 =>
  rw [if_neg h2] at hn
  split
  · exact .respond h _
  next h3 =>
  rw [if_neg h3] at hn
  exact hf hn

end Sys2Proof.Machine
end

