-- ==== Sys2Proof/Laws/PerInstr.lean ====
section
/-! SUPPORT. A statement about every instruction as syntax, one lemma per constructor: which of the three levels of R80 an
instruction belongs to shows in the form it is presented in. -/

namespace Sys2Proof.Laws.Level

open Sys2Proof

/-- A command is presented as a record with its own opcode and abbreviates nothing (R82); what is called by name is a
pseudo-instruction, which abbreviates a command (R84), or a codec function, which has no opcode (R80). -/
def Statement (i : Instr) : Prop :=
  match encode i with
  | .record r => i.opcode = some r.op ∧ ∀ c, i.expand c = i
  | .named _ => ∀ c, i.expand c = i → i.opcode = none

theorem dapRd (port : Port) (apidx : Nat) (addr : BitVec 4) : Statement (.dapRd port apidx addr) :=
    ⟨rfl, fun _ => rfl⟩

theorem dapWr (port : Port) (apidx : Nat) (addr : BitVec 4) (value : Word) : Statement (.dapWr port apidx addr value) :=
    ⟨rfl, fun _ => rfl⟩

theorem lrst : Statement .lrst := ⟨rfl, fun _ => rfl⟩

theorem protoSel (proto : Protocol) : Statement (.protoSel proto) := ⟨rfl, fun _ => rfl⟩

theorem protoGet : Statement .protoGet := ⟨rfl, fun _ => rfl⟩

theorem speedSet (khz : Nat) : Statement (.speedSet khz) := ⟨rfl, fun _ => rfl⟩

theorem speedGet : Statement .speedGet := ⟨rfl, fun _ => rfl⟩

theorem jidleSet (cycles : Nat) : Statement (.jidleSet cycles) := ⟨rfl, fun _ => rfl⟩

theorem rstAssert : Statement .rstAssert := ⟨rfl, fun _ => rfl⟩

theorem rstDeassert : Statement .rstDeassert := ⟨rfl, fun _ => rfl⟩

theorem attach : Statement .attach := ⟨rfl, fun _ => rfl⟩

theorem jtagWir (irval : BitVec 8) (irlen : Nat) : Statement (.jtagWir irval irlen) := ⟨rfl, fun _ => rfl⟩

theorem jtagRd (irval : BitVec 8) (irlen : Nat) (drbits : Nat) : Statement (.jtagRd irval irlen drbits) :=
    ⟨rfl, fun _ => rfl⟩

theorem jtagWr (irval : BitVec 8) (irlen : Nat) (drbits : Nat) (data : List Byte) : Statement (.jtagWr irval irlen drbits data) :=
    ⟨rfl, fun _ => rfl⟩

theorem reservedE : Statement .reservedE := ⟨rfl, fun _ => rfl⟩

theorem reservedF : Statement .reservedF := ⟨rfl, fun _ => rfl⟩

theorem rdDpidr : Statement .rdDpidr := fun _ h => by cases h

theorem wrAbort (value : Word) : Statement (.wrAbort value) := fun _ h => by cases h

theorem rdCtrlstat : Statement .rdCtrlstat := fun _ h => by cases h

theorem wrCtrlstat (value : Word) : Statement (.wrCtrlstat value) := fun _ h => by cases h

theorem rdRdbuff : Statement .rdRdbuff := fun _ h => by cases h

theorem clrOrun : Statement .clrOrun := fun _ h => by cases h

theorem clrStkerr : Statement .clrStkerr := fun _ h => by cases h

theorem swdHdr (port : Port) (dir : Dir) (addr : BitVec 4) : Statement (.swdHdr port dir addr) := fun _ _ => rfl

theorem swdEncWrite (port : Port) (addr : BitVec 4) (value : Word) (idle : Nat) : Statement (.swdEncWrite port addr value idle) :=
    fun _ _ => rfl

theorem swdEncRead (port : Port) (addr : BitVec 4) : Statement (.swdEncRead port addr) := fun _ _ => rfl

theorem swdDecAck (s : Bits) : Statement (.swdDecAck s) := fun _ _ => rfl

theorem swdDecRead (s : Bits) : Statement (.swdDecRead s) := fun _ _ => rfl

theorem swdDecWrite (io : Bits) : Statement (.swdDecWrite io) := fun _ _ => rfl

theorem swdEncLineReset : Statement .swdEncLineReset := fun _ _ => rfl

theorem swdPar32 (value : Word) : Statement (.swdPar32 value) := fun _ _ => rfl

theorem mkSeq (io : Bits) (dir : Bits) : Statement (.mkSeq io dir) := fun _ _ => rfl

theorem jtagEncIrLen1 (irval : BitVec 8) : Statement (.jtagEncIrLen1 irval) := fun _ _ => rfl

theorem jtagEncIrLen2 (irval : BitVec 8) : Statement (.jtagEncIrLen2 irval) := fun _ _ => rfl

theorem jtagEncIrLen3 (irval : BitVec 8) : Statement (.jtagEncIrLen3 irval) := fun _ _ => rfl

theorem jtagEncIrLen4 (irval : BitVec 8) : Statement (.jtagEncIrLen4 irval) := fun _ _ => rfl

theorem jtagEncIrLen5 (irval : BitVec 8) : Statement (.jtagEncIrLen5 irval) := fun _ _ => rfl

theorem jtagEncIrLen6 (irval : BitVec 8) : Statement (.jtagEncIrLen6 irval) := fun _ _ => rfl

theorem jtagEncIrLen7 (irval : BitVec 8) : Statement (.jtagEncIrLen7 irval) := fun _ _ => rfl

theorem jtagEncIrLen8 (irval : BitVec 8) : Statement (.jtagEncIrLen8 irval) := fun _ _ => rfl

theorem jtagEncIrLen0 (irval : BitVec 8) : Statement (.jtagEncIrLen0 irval) := fun _ _ => rfl

theorem jtagEncIrLong (irval : BitVec 8) (excess : Nat) : Statement (.jtagEncIrLong irval excess) := fun _ _ => rfl

theorem jtagEncDr (bytes : List Byte) (drbits : Nat) : Statement (.jtagEncDr bytes drbits) := fun _ _ => rfl

theorem jtagDecDr (tdo : Bits) (drbits : Nat) : Statement (.jtagDecDr tdo drbits) := fun _ _ => rfl

theorem jtagEncIdle (cycles : Nat) : Statement (.jtagEncIdle cycles) := fun _ _ => rfl

theorem unpackBits (bytes : List Byte) (n : Nat) : Statement (.unpackBits bytes n) := fun _ _ => rfl

theorem packBits (bits : Bits) : Statement (.packBits bits) := fun _ _ => rfl

end Sys2Proof.Laws.Level
end

