-- ==== Sys2Proof/Laws/Phases.lean ====
section
/-! SUPPORT. The phase machine of R172 follows the attempt loop of R173: an attempt is two transitions, its recovery a
third. -/

namespace Sys2Proof.Machine

/-- An attempt, as two transitions of R172. -/
theorem runPhases_attempt (s : State) (m : Nat) :
    runPhases (m + 2) (s.setPhase .request) =
      match attemptFrame s with
      | (.error e, u) => some (endPhase (.error e, u))
      | (.ok _, u) => runPhases m u := by
  have hs : sendRequest (s.setPhase .request) = sendRequest s := rfl
  unfold attemptFrame
  rw [runPhases, show phaseStep (s.setPhase .request) = (match sendRequest s with
    | none => PhaseStep.finish (.error .assert, s.setPhase .request)
    | some s1 => .go s1) from rfl]
  cases hx : sendRequest s with
  | none => rfl
  | some s1 =>
    have hp : s1.eng.phase = .awaitAck := by
      unfold sendRequest at hx
      dsimp only at hx
      split at hx
      · cases hx
      · cases hx; rfl
    dsimp only
    rw [runPhases]
    unfold phaseStep
    rw [hp]
    dsimp only
    rcases takeAck s1 with ⟨e | k, u⟩ <;> rfl

/-- The rows of the failed classes. -/
theorem runPhases_failed {k : AckClass} {u : State} (hk : k ≠ .ok) (hp : u.eng.phase = k.phase) (m : Nat) :
    runPhases (m + 1) u = match failedClassStep k u with
      | .stop r s => some (r, s)
      | .go s => runPhases m s := by
  rw [runPhases]
  unfold phaseStep
  rw [hp]
  cases k with
  | ok => exact absurd rfl hk
  | wait => rfl
  | fault => rfl
  | noAck => rfl

/-- The attempt loop with `n + 1` attempts left, as transitions from `Request`. -/
theorem runPhases_loop (n : Nat) : ∀ (s : State) (m : Nat), s.eng.attempt + (n + 1) = Config.maxAttempts → 3 * n + 2 < m →
    (∃ e u, attempts (n + 1) s = (.error e, u) ∧ runPhases m (s.setPhase .request) = some (endPhase (.error e, u))) ∨
    (∃ u m', attempts (n + 1) s = (.ok (), u) ∧ u.eng.phase = .ok ∧ m ≤ m' + (3 * n + 2) ∧
      runPhases m (s.setPhase .request) = runPhases m' u) := by
  induction n with
  | zero => 
    intro s m hs hm
    obtain ⟨m, rfl⟩ : ∃ m', m = m' + 3 := ⟨m - 3, by omega⟩
    rw [runPhases_attempt, attempts_succ]
    have ha := attemptFrame_does s
    cases hx : attemptFrame s with
    | mk r u => 
      rw [hx] at ha
      rcases r with e | k
      · exact .inl ⟨e, u, rfl, rfl⟩
      · rcases ha.result with ⟨h, -⟩ | ⟨-, hatt, h | ⟨k', h, hph, -⟩⟩
        · cases h
        · cases h
        cases h
        have hatt : u.eng.attempt = s.eng.attempt + 1 := hatt
        by_cases hk : k = .ok
        · subst hk; exact .inr ⟨u, m + 1, rfl, hph, by omega, rfl⟩
        · have hl : u.isLastAttempt = true := by simp [State.isLastAttempt, hatt]; omega
          left
          dsimp only
          rw [runPhases_failed hk hph]
          unfold failedClassStep
          rw [hl]
          cases hy : recoverIfAllowed k u with
          | mk r2 w =>
            rcases r2 with e | _
            · refine ⟨e, w, ?_, rfl⟩
              cases k with
              | ok => exact absurd rfl hk
              | _ => simp only [hy]
            · refine ⟨_, w, ?_, rfl⟩
              cases k with
              | ok => exact absurd rfl hk
              | _ => simp only [hy, hl, if_true]
  | succ n ih =>
    intro s m hs hm
    obtain ⟨m, rfl⟩ : ∃ m', m = m' + 3 := ⟨m - 3, by omega⟩
    rw [runPhases_attempt, attempts_succ]
    have ha := attemptFrame_does s
    cases hx : attemptFrame s with
    | mk r u => 
      rw [hx] at ha
      rcases r with e | k
      · exact .inl ⟨e, u, rfl, rfl⟩
      · rcases ha.result with ⟨h, -⟩ | ⟨-, hatt, h | ⟨k', h, hph, -⟩⟩
        · cases h
        · cases h
        cases h
        have hatt : u.eng.attempt = s.eng.attempt + 1 := hatt
        by_cases hk : k = .ok
        · subst hk; exact .inr ⟨u, m + 1, rfl, hph, by omega, rfl⟩
        · have hl : u.isLastAttempt = false := by simp [State.isLastAttempt, hatt]; omega
          have hk2 := (recoverIfAllowed_does k u).keeps.attempt
          dsimp only
          rw [runPhases_failed hk hph]
          unfold failedClassStep
          rw [hl]
          cases hy : recoverIfAllowed k u with
          | mk r2 w =>
            rw [hy] at hk2
            rcases r2 with e | _
            · left
              refine ⟨e, w, ?_, rfl⟩
              cases k with
              | ok => exact absurd rfl hk
              | _ => simp only [hy]
            · have hw : w.eng.attempt = u.eng.attempt := hk2
              have hloop : ∀ x, (match (Except.ok k, u) with
                | (.error e, s1) => ((.error e, s1) : Except Exit Unit × State)
                | (.ok .ok, s1) => (.ok (), s1)
                | (.ok c, s1) =>
                  match recoverIfAllowed c s1 with
                  | (.error e, s2) => (.error e, s2)
                  | (.ok _, s2) => if s1.isLastAttempt then (.error (.raise .timeout), s2) else attempts (n + 1) s2) = x ↔ attempts (n + 1) w = x := by
                intro x
                cases k with
                | ok => exact absurd rfl hk
                | _ => simp only [hy, hl, Bool.false_eq_true, if_false]
              rcases ih w m (by omega) (by omega) with ⟨e, z, h1, h2⟩ | ⟨z, m', h1, h2, h3, h4⟩
              · exact .inl ⟨e, z, (hloop _).2 h1, h2⟩
              · exact .inr ⟨z, m', (hloop _).2 h1, h2, by omega, h4⟩

/-- Everything `takeAck` can do. -/
theorem takeAck_does (s : State) : (takeAck s).2.cfg = s.cfg ∧ (takeAck s).2.eng.txn = s.eng.txn ∧
    ((∃ e, (takeAck s).1 = .error e) ∨ ∃ k, (takeAck s).1 = .ok k ∧ (takeAck s).2.eng.phase = k.phase) := by
  unfold takeAck State.receive
  cases s.buf.back with
  | none => exact ⟨rfl, rfl, .inl ⟨_, rfl⟩⟩
  | some v => exact ⟨by simp, by simp, .inr ⟨_, rfl, by simp⟩⟩

end Sys2Proof.Machine
end

