-- ==== Sys2Proof/Laws/Scripts.lean ====
section
/-! SUPPORT. What the engine does on scripted answers: one frame, one attempt that fails and is recovered
(`Attempt`), a list of them, and the ends of an attempt loop. -/

namespace Sys2Proof.Machine

theorem State.answer_of_env {s : State} {a : Answer} {rest : List Answer} (h : s.env = a :: rest) : s.answer = a := by
  simp [State.answer, h]

/-- A sampled vector agrees with the answer's bits where the answer lists them. -/
theorem getD_of_sample {a : Answer} {k n i : Nat} {v : Bits} (h : a.sample k n = some v) (hn : i < n)
    (hl : i < a.bits.length) : v.getD i false = a.bits.getD i false := by
  unfold Answer.sample at h
  split at h
  · cases h
  · cases h; simp [List.getD_eq_getElem?_getD, hn, hl]

theorem slice_of_sample {a : Answer} {k n i m : Nat} {v : Bits} (h : a.sample k n = some v) (hn : i + m ≤ n)
    (hl : i + m ≤ a.bits.length) : slice v i m = slice a.bits i m := by
  apply List.ext_getElem?
  intro j
  rw [getElem?_slice, getElem?_slice]
  split
  · have hv : v.length = n := length_of_sample h
    have := getD_of_sample (i := i + j) h (by omega) (by omega)
    rw [List.getD_eq_getElem?_getD, List.getD_eq_getElem?_getD] at this
    have h1 : i + j < v.length := by omega
    have h2 : i + j < a.bits.length := by omega
    simpa [h1, h2] using this
  · rfl

/-- What the engine reads of a sampled vector is what the answer says. -/
theorem latched_of_sample {c : Config} {a : Answer} {k n : Nat} {v : Bits} (h : a.sample k n = some v)
    (hn : readFrameLength c ≤ n) (hl : readFrameLength c ≤ a.bits.length) :
    sampledAck c v = sampledAck c a.bits ∧ sampledData c v = sampledData c a.bits ∧
      sampledPar c v = sampledPar c a.bits := by
  simp only [readFrameLength, readDataAt, Config.nAck, Config.nData, Config.nTrnRd] at hn hl
  refine ⟨?_, ?_, ?_⟩
  · unfold sampledAck
    rw [getD_of_sample h (by omega) (by omega), getD_of_sample h (by omega) (by omega),
      getD_of_sample h (by omega) (by omega)]
  · unfold sampledData readDataAt
    rw [slice_of_sample h (by simp only [Config.nAck, Config.nData]; omega)
      (by simp only [Config.nAck, Config.nData]; omega)]
  · unfold sampledPar readDataAt
    rw [getD_of_sample h (by simp only [Config.nAck, Config.nData]; omega)
      (by simp only [Config.nAck, Config.nData]; omega)]

theorem State.latch_of_sample {s : State} {d : Dir} {a : Answer} {k n : Nat} {v : Bits} (h : a.sample k n = some v)
    (hn : readFrameLength s.cfg ≤ n) (hl : readFrameLength s.cfg ≤ a.bits.length) : s.latch d v = s.latch d a.bits := by
  obtain ⟨h1, h2, h3⟩ := latched_of_sample h hn hl
  cases d <;> simp [State.latch, h1, h2, h3]

/-- A request frame is at least as long as a read frame. -/
theorem requestFrame_length {c : Config} {p : Port} {d : Dir} {a : BitVec 4} {v : Word} {q : Seq}
    (h : requestFrame c p d a v = some q) : readFrameLength c ≤ q.io.length := by
  cases d with
  | read =>
    rw [requestFrame, swdEncRead_eq] at h
    split at h
    · cases h; simp [readFrameLength, readDataAt, ackAt, length_headerBits]; omega
    · cases h
  | write =>
    rw [requestFrame, swdEncWrite_eq] at h
    split at h
    · next hn =>
      cases h
      simp [readFrameLength, readDataAt, ackAt, length_headerBits, Config.nTrnWr, Config.nTrnRd]
      have := hn.1
      simp only [Config.minWriteIdle] at this
      omega
    · cases h

theorem sample_isSome {a : Answer} (h : a.failed = false) (k n : Nat) : ∃ v, a.sample k n = some v := by
  simp [Answer.sample, h]

/-! ### One frame -/

/-- `swd_frame` on an answer of class `k` (R171). -/
theorem swdFrame_script {p : Port} {d : Dir} {ad : BitVec 4} {w : Word} {s : State} {q : Seq} {a : Answer}
    {rest : List Answer} {k : AckClass} (hq : requestFrame s.cfg p d ad w = some q) (he : s.env = a :: rest)
    (hk : a.Gives s.cfg k) :
    swdFrame p d ad w s = (.ok k, ((s.called q.call).latch d a.bits).release) := by
  obtain ⟨v, hv⟩ := sample_isSome hk.1 s.wire.length q.io.length
  have hl := requestFrame_length hq
  rw [swdFrame_eq hq, State.answer_of_env he, hv]
  have h1 : (s.called q.call).latch d v = (s.called q.call).latch d a.bits := State.latch_of_sample hv hl hk.2.1
  have h2 := (latched_of_sample hv hl hk.2.1).1
  dsimp only
  rw [h1, h2, hk.2.2]

/-- `swd_frame` on any answer that is no failure. -/
theorem swdFrame_answered {p : Port} {d : Dir} {ad : BitVec 4} {w : Word} {s : State} {q : Seq} {a : Answer}
    {rest : List Answer} (hq : requestFrame s.cfg p d ad w = some q) (he : s.env = a :: rest)
    (hf : a.failed = false) :
    ∃ k v, swdFrame p d ad w s = (.ok k, ((s.called q.call).latch d v).release) := by
  obtain ⟨v, hv⟩ := sample_isSome hf s.wire.length q.io.length
  rw [swdFrame_eq hq, State.answer_of_env he, hv]
  exact ⟨_, v, rfl⟩

/-- The state after an acknowledged request of class `k` with the answer's bits `bits`. -/
def State.attempted (s : State) (q : Seq) (k : AckClass) (bits : Bits) : State :=
  ((((s.called q.call).setAttempt (s.eng.attempt + 1)).latch s.eng.txn.dir bits).setPhase k.phase).release

theorem attemptFrame_script {s : State} {q : Seq} {a : Answer} {rest : List Answer} {k : AckClass}
    (hq : requestFrame s.cfg s.eng.txn.port s.eng.txn.dir s.eng.txn.addr s.eng.txn.value = some q)
    (he : s.env = a :: rest) (hk : a.Gives s.cfg k) :
    attemptFrame s = (.ok k, s.attempted q k a.bits) := by
  obtain ⟨v, hv⟩ := sample_isSome hk.1 s.wire.length q.io.length
  have hl := requestFrame_length hq
  rw [attemptFrame_eq hq, State.answer_of_env he, hv]
  have h1 : ((s.called q.call).setAttempt (s.eng.attempt + 1)).latch s.eng.txn.dir v =
      ((s.called q.call).setAttempt (s.eng.attempt + 1)).latch s.eng.txn.dir a.bits :=
    State.latch_of_sample hv hl hk.2.1
  have h2 := (latched_of_sample hv hl hk.2.1).1
  dsimp only
  rw [h1, h2, hk.2.2]
  rfl

/-! ### Recovery on a script -/

/-- `u` is `s` after the calls `calls`, with the answers `rest` left: no probe-state register, no input and no outcome has
changed, and of the latches not the Transaction. -/
structure After (s u : State) (calls : List Call) (rest : List Answer) : Prop where
  cfg : u.cfg = s.cfg
  ps : u.ps = s.ps
  host : u.host = s.host
  resp : u.resp = s.resp
  env : u.env = rest
  wire : u.wire = s.wire ++ calls
  txn : u.eng.txn = s.eng.txn
  followup : u.eng.followup = s.eng.followup
  buf : u.buf = .empty ∨ u.buf = s.buf

theorem After.trans {s t u : State} {a b : List Call} {r r' : List Answer} (h : After s t a r') (g : After t u b r) :
    After s u (a ++ b) r :=
  ⟨g.cfg.trans h.cfg, g.ps.trans h.ps, g.host.trans h.host, g.resp.trans h.resp, g.env,
    by rw [g.wire, h.wire, List.append_assoc], g.txn.trans h.txn, g.followup.trans h.followup, by
      rcases g.buf with hb | hb
      · exact .inl hb
      · rw [hb]; exact h.buf⟩

theorem State.attempted_after {s : State} {q : Seq} {k : AckClass} {bits : Bits} {a : Answer} {rest : List Answer}
    (he : s.env = a :: rest) : After s (s.attempted q k bits) [q.call] rest := by
  constructor <;> simp [State.attempted, he]

theorem State.attempted_attempt (s : State) (q : Seq) (k : AckClass) (bits : Bits) :
    (s.attempted q k bits).eng.attempt = s.eng.attempt + 1 := by simp [State.attempted]

theorem frame_after {s : State} {q : Seq} {d : Dir} {bits : Bits} {a : Answer} {rest : List Answer}
    (he : s.env = a :: rest) :
    After s (((s.called q.call).latch d bits).release) [q.call] rest ∧
      (((s.called q.call).latch d bits).release).eng.attempt = s.eng.attempt := by
  refine ⟨?_, by simp⟩
  constructor <;> simp [he]

theorem abortWrite_script {s : State} {w : Word} {b : Answer} {rest : List Answer} {q : Seq}
    (hq : requestFrame s.cfg .dp .write s.cfg.addrAbort w = some q) (he : s.env = b :: rest) (hf : b.failed = false) :
    ∃ u, abortWrite w s = (.ok (), u) ∧ After s u [q.call] rest ∧ u.eng.attempt = s.eng.attempt := by
  obtain ⟨k, v, h⟩ := swdFrame_answered hq he hf
  obtain ⟨h1, h2⟩ := frame_after (q := q) (d := .write) (bits := v) he
  exact ⟨_, by simp [abortWrite, h], h1, h2⟩

theorem abortFrame_exists {c : Config} (hc : c.wf = true) (w : Word) :
    ∃ q, requestFrame c .dp .write c.addrAbort w = some q :=
  requestFrame_isSome hc (offsetAligned_of_extract ((Config.wf_iff c).1 hc).2.2.2.1) _ _ _

theorem ctrlstatFrame_exists {c : Config} (hc : c.wf = true) :
    ∃ q, requestFrame c .dp .read c.addrCtrlstat 0#32 = some q :=
  requestFrame_isSome hc (offsetAligned_of_extract ((Config.wf_iff c).1 hc).2.2.2.2.1) _ _ _

theorem rdbuffFrame_exists {c : Config} (hc : c.wf = true) :
    ∃ q, requestFrame c .dp .read c.addrRdbuff 0#32 = some q :=
  requestFrame_isSome hc (offsetAligned_of_extract ((Config.wf_iff c).1 hc).2.2.2.2.2.1) _ _ _

/-- An attempt loop that meets a recovered attempt: it goes on with one attempt less or, after the last, ends in
`Timeout`. -/
theorem attempts_recovered {s : State} {n : Nat} {q : Seq} {att : Attempt} {rest : List Answer} (hc : s.cfg.wf = true)
    (hq : requestFrame s.cfg s.eng.txn.port s.eng.txn.dir s.eng.txn.addr s.eng.txn.value = some q)
    (hn : s.eng.attempt + (n + 1) = Config.maxAttempts) (hr : n ≠ 0 ∨ s.cfg.recoverOnLastAttempt = true)
    (hv : att.Valid s.cfg) (he : s.env = att.answers ++ rest) :
    ∃ u, attempts (n + 1) s = (if n = 0 then (.error (.raise .timeout), u) else attempts n u) ∧
      After s u (framesToCalls (att.frames s.cfg q)) rest ∧ u.eng.attempt = s.eng.attempt + 1 := by
  have loop : ∀ (k : AckClass) (a : Answer) (r1 : List Answer) (u : State), k ≠ .ok → s.env = a :: r1 →
      a.Gives s.cfg k → recover k (s.attempted q k a.bits) = (.ok (), u) →
      attempts (n + 1) s = (if n = 0 then (.error (.raise .timeout), u) else attempts n u) := by
    intro k a r1 u hk he1 hg hrec
    have hlast : (s.attempted q k a.bits).isLastAttempt = decide (n = 0) := by
      simp only [State.isLastAttempt, State.attempted_attempt, Config.maxAttempts] at hn ⊢
      by_cases h0 : n = 0
      · simp [h0]; omega
      · simp [h0]; omega
    have hall : recoverIfAllowed k (s.attempted q k a.bits) = (.ok (), u) := by
      unfold recoverIfAllowed
      rw [hlast]
      have hcfg : (s.attempted q k a.bits).cfg = s.cfg := by simp [State.attempted]
      rw [hcfg]
      rcases hr with h0 | h0 <;> simp [h0, hrec]
    rw [attempts_succ, attemptFrame_script hq he1 hg]
    cases k with
    | ok => exact absurd rfl hk
    | wait => simp [hall, hlast]
    | fault => simp [hall, hlast]
    | noAck => simp [hall, hlast]
  cases att with
  | wait a b =>
    obtain ⟨hg, hb⟩ := hv
    obtain ⟨qa, hqa⟩ := abortFrame_exists hc (abortWord s.cfg true false)
    have h1 : After s (s.attempted q .wait a.bits) [q.call] (b :: rest) := State.attempted_after he
    obtain ⟨u, hu, h2, h3⟩ := abortWrite_script (s := s.attempted q .wait a.bits) (w := abortWord s.cfg true false)
      (by rw [h1.cfg]; exact hqa) h1.env hb
    refine ⟨u, loop .wait a (b :: rest) u (by simp) he hg ?_, ?_, ?_⟩
    · rw [← hu, ← h1.cfg]; rfl
    · have := h1.trans h2
      simpa [framesToCalls, Attempt.frames, hqa] using this
    · rw [h3, State.attempted_attempt]
  | noAck a b =>
    obtain ⟨hg, hb⟩ := hv
    have h1 : After s (s.attempted q .noAck a.bits) [q.call] (b :: rest) := State.attempted_after he
    have hlr := lineReset_eq (s.attempted q .noAck a.bits)
    rw [State.answer_of_env h1.env, hb] at hlr
    refine ⟨_, loop .noAck a (b :: rest) _ (by simp) he hg hlr, ?_, ?_⟩
    · have h2 : After (s.attempted q .noAck a.bits)
          (((s.attempted q .noAck a.bits).called (swdEncLineReset (s.attempted q .noAck a.bits).cfg).call).release)
          [(swdEncLineReset s.cfg).call] rest := by
        constructor <;> simp [h1.env, h1.cfg]
      simpa [framesToCalls, Attempt.frames] using h1.trans h2
    · simp [State.attempted_attempt]
  | fault a cs b =>
    obtain ⟨hg, hw, hs, hb⟩ := hv
    obtain ⟨qc, hqc⟩ := ctrlstatFrame_exists hc
    obtain ⟨qa, hqa⟩ := abortFrame_exists hc (abortWord s.cfg (stickyOrun s.cfg (sampledData s.cfg cs.bits))
      (stickyErr s.cfg (sampledData s.cfg cs.bits)))
    have h1 : After s (s.attempted q .fault a.bits) [q.call] (cs :: b :: rest) :=
      State.attempted_after he
    have hf := swdFrame_script (s := s.attempted q .fault a.bits) (p := .dp) (d := .read)
      (ad := (s.attempted q .fault a.bits).cfg.addrCtrlstat) (w := 0#32) (q := qc) (k := .ok)
      (by rw [h1.cfg]; exact hqc) h1.env (by rw [h1.cfg]; exact hw.1)
    obtain ⟨h2, h3⟩ := frame_after (q := qc) (d := .read) (bits := cs.bits) h1.env
    have h12 := h1.trans h2
    obtain ⟨u, hu, h4, h5⟩ := abortWrite_script
      (w := abortWord s.cfg (stickyOrun s.cfg (sampledData s.cfg cs.bits))
        (stickyErr s.cfg (sampledData s.cfg cs.bits))) (by rw [h12.cfg]; exact hqa) h12.env hb
    refine ⟨u, loop .fault a (cs :: b :: rest) u (by simp) he hg ?_, ?_, ?_⟩
    · show recoverFault _ = _
      unfold recoverFault
      rw [hf]
      have hcfg : (s.attempted q .fault a.bits).cfg = s.cfg := h1.cfg
      have hdata : (((((s.attempted q .fault a.bits).called qc.call).latch .read cs.bits).release).eng.data) =
          sampledData s.cfg cs.bits := by simp [State.latch, hcfg]
      have hpar : (((((s.attempted q .fault a.bits).called qc.call).latch .read cs.bits).release).eng.parityOk) =
          true := by
        simp [State.latch, Engine.parityOk, hcfg, hw.2.2]
      have hcfg2 : ((((s.attempted q .fault a.bits).called qc.call).latch .read cs.bits).release).cfg = s.cfg :=
        h12.cfg
      dsimp only
      rw [hpar, hdata, hcfg2]
      have hset : ¬ (stickyOrun s.cfg (sampledData s.cfg cs.bits) = false ∧
          stickyErr s.cfg (sampledData s.cfg cs.bits) = false) := by
        rcases hs with h | h <;> simp [h]
      simp only [ne_eq, not_true_eq_false, if_false, Bool.true_eq_false, hset]
      exact hu
    · simpa [framesToCalls, Attempt.frames, hqa, hqc] using h12.trans h4
    · rw [h5, h3, State.attempted_attempt]

/-- A list of recovered attempts, with attempts left after them. -/
theorem attempts_all_recovered {c : Config} {q : Seq} {tail : List Answer} (as : List Attempt) :
    ∀ (s : State) (n : Nat), s.cfg = c → c.wf = true →
      requestFrame c s.eng.txn.port s.eng.txn.dir s.eng.txn.addr s.eng.txn.value = some q →
      s.eng.attempt + n = Config.maxAttempts → as.length < n → (∀ k ∈ as, k.Valid c) →
      s.env = as.flatMap Attempt.answers ++ tail →
      ∃ u, attempts n s = attempts (n - as.length) u ∧
        After s u (framesToCalls (as.flatMap (Attempt.frames c q))) tail ∧
        u.eng.attempt = s.eng.attempt + as.length := by
  induction as with
  | nil =>
    intro s n hc hwf hq hn hl hv he
    exact ⟨s, rfl, ⟨rfl, rfl, rfl, rfl, by simpa using he, by simp [framesToCalls], rfl, rfl, .inr rfl⟩, rfl⟩
  | cons att as ih =>
    intro s n hc hwf hq hn hl hv he
    obtain ⟨m, rfl⟩ : ∃ m, n = m + 1 := ⟨n - 1, by simp at hl; omega⟩
    simp only [List.length_cons] at hl
    have hm : m ≠ 0 := by omega
    subst hc
    obtain ⟨u, h1, h2, h3⟩ := attempts_recovered (att := att) (rest := as.flatMap Attempt.answers ++ tail) hwf hq hn
      (.inl hm) (hv _ (by simp)) (by rw [he]; simp)
    rw [if_neg hm] at h1
    obtain ⟨w, h4, h5, h6⟩ := ih u m h2.cfg hwf (by rw [h2.txn]; exact hq) (by rw [h3]; omega) (by omega)
      (fun k hk => hv k (by simp [hk])) h2.env
    refine ⟨w, ?_, ?_, ?_⟩
    · rw [h1, h4]
      congr 1
      simp
    · have := h2.trans h5
      simpa [framesToCalls] using this
    · rw [h6, h3, List.length_cons]; omega

/-- As many recovered attempts as the loop has: `Timeout`, and no further request (R182). -/
theorem attempts_exhausted {c : Config} {q : Seq} {tail : List Answer} (as : List Attempt) (s : State) (n : Nat)
    (hc : s.cfg = c) (hwf : c.wf = true)
    (hq : requestFrame c s.eng.txn.port s.eng.txn.dir s.eng.txn.addr s.eng.txn.value = some q)
    (hn : s.eng.attempt + n = Config.maxAttempts) (hl : as.length = n) (hn0 : n ≠ 0)
    (hr : c.recoverOnLastAttempt = true) (hv : ∀ k ∈ as, k.Valid c)
    (he : s.env = as.flatMap Attempt.answers ++ tail) :
    ∃ u, attempts n s = (.error (.raise .timeout), u) ∧
      After s u (framesToCalls (as.flatMap (Attempt.frames c q))) tail := by
  have hne : as ≠ [] := by rintro rfl; exact hn0 hl.symm
  obtain ⟨init, last, rfl⟩ : ∃ init last, as = init ++ [last] :=
    ⟨as.dropLast, as.getLast hne, (List.dropLast_append_getLast hne).symm⟩
  simp only [List.length_append, List.length_cons, List.length_nil] at hl
  obtain ⟨u, h1, h2, h3⟩ := attempts_all_recovered (tail := last.answers ++ tail) init s n hc hwf hq hn (by omega)
    (fun k hk => hv k (by simp [hk])) (by rw [he]; simp)
  have h4 : n - init.length = 0 + 1 := by omega
  rw [h4] at h1
  subst hc
  obtain ⟨w, h5, h6, -⟩ := attempts_recovered (s := u) (n := 0) (att := last) (rest := tail) (by rw [h2.cfg]; exact hwf)
    (by rw [h2.cfg, h2.txn]; exact hq) (by rw [h3]; omega) (.inr (by rw [h2.cfg]; exact hr))
    (by rw [h2.cfg]; exact hv _ (by simp)) h2.env
  refine ⟨w, by rw [h1, h5]; rfl, ?_⟩
  rw [h2.cfg] at h6
  have := h2.trans h6
  simpa [framesToCalls] using this

/-- A request acknowledged `Ok` ends the loop. -/
theorem attempts_ok {s : State} {n : Nat} {q : Seq} {a : Answer} {rest : List Answer}
    (hq : requestFrame s.cfg s.eng.txn.port s.eng.txn.dir s.eng.txn.addr s.eng.txn.value = some q)
    (he : s.env = a :: rest) (hk : a.Gives s.cfg .ok) : attempts (n + 1) s = (.ok (), s.attempted q .ok a.bits) := by
  rw [attempts_succ, attemptFrame_script hq he hk]

/-! ### A whole attempt loop, from the latches loaded -/

/-- What `After` says from freshly loaded latches. -/
theorem After.loaded {s u : State} {t : Txn} {f : Bool} {calls : List Call} {rest : List Answer}
    (h : After (s.loadTxn t f) u calls rest) :
    u.cfg = s.cfg ∧ u.ps = s.ps ∧ u.env = rest ∧ u.wire = s.wire ++ calls ∧ u.eng.txn = t ∧ u.eng.followup = f :=
  ⟨h.cfg, h.ps, h.env, h.wire, h.txn, h.followup⟩

/-- Up to four recovered attempts and then an acknowledgement `Ok`: the loop returns, with the latches of that answer. -/
theorem attempts_recovered_ok {s : State} {t : Txn} {f : Bool} {q : Seq} {as : List Attempt} {a : Answer} {rest : List Answer} (hc : s.cfg.wf = true)
    (hq : requestFrame s.cfg t.port t.dir t.addr t.value = some q) (hl : as.length ≤ 4)
    (hv : ∀ k ∈ as, k.Valid s.cfg) (hg : a.Gives s.cfg .ok)
    (he : s.env = as.flatMap Attempt.answers ++ a :: rest) :
    ∃ u, attempts Config.maxAttempts (s.loadTxn t f) = (.ok (), u) ∧
      After (s.loadTxn t f) u (framesToCalls (as.flatMap (Attempt.frames s.cfg q)) ++ [q.call]) rest ∧ u.host = s.host ∧
      (t.dir = .read → u.eng.data = sampledData s.cfg a.bits ∧ u.eng.par = sampledPar s.cfg a.bits) := by
  obtain ⟨u, h1, h2, h3⟩ := attempts_all_recovered (c := s.cfg) (q := q) (tail := a :: rest) as (s.loadTxn t f) Config.maxAttempts rfl hc hq rfl (by simp [Config.maxAttempts]; omega) hv he
  obtain ⟨m, hm⟩ : ∃ m, Config.maxAttempts - as.length = m + 1 := ⟨4 - as.length, by simp [Config.maxAttempts]; omega⟩
  have h4 := attempts_ok (s := u) (n := m) (q := q) (a := a) (rest := rest) (by rw [h2.txn, h2.cfg]; exact hq) h2.env (by rw [h2.cfg]; exact hg)
  refine ⟨_, by rw [h1, hm, h4], h2.trans (State.attempted_after h2.env), by simp [State.attempted, h2.host], ?_⟩
  intro hd
  have : u.eng.txn.dir = .read := by rw [h2.txn]; exact hd
  have hcfg : u.cfg = s.cfg := h2.cfg
  simp [State.attempted, this, State.latch, hcfg]

/-! ### A Fault that cannot be recovered -/

/-- `recover_fault` on an answer to its CTRL/STAT read that it cannot act on: that read is its one call (R179, R180). -/
theorem recoverFault_unrecoverable {s : State} {c : Seq} {cs : Answer} {rest : List Answer} {kind : ErrKind}
    (hcq : requestFrame s.cfg .dp .read s.cfg.addrCtrlstat 0#32 = some c) (he : s.env = cs :: rest)
    (hk : cs.Unrecoverable s.cfg kind) :
    ∃ u, recoverFault s = (.error (.raise kind), u) ∧ After s u [c.call] rest := by
  unfold recoverFault
  rcases hk with ⟨⟨k, hk, hck⟩, rfl⟩ | ⟨⟨w', p, hck, hpar⟩, rfl⟩ | ⟨⟨w', hck, hs1, hs2⟩, rfl⟩
  · have := swdFrame_script (s := s) (p := .dp) (d := .read) (ad := s.cfg.addrCtrlstat) (w := 0#32)
      (q := c) (k := k) hcq he hck
    rw [this]
    simp only [ne_eq, hk, not_false_eq_true, if_true]
    exact ⟨_, rfl, (frame_after he).1⟩
  · have := swdFrame_script (s := s) (p := .dp) (d := .read) (ad := s.cfg.addrCtrlstat) (w := 0#32)
      (q := c) (k := .ok) hcq he hck.1
    rw [this]
    have hp2 : (((s.called c.call).latch .read cs.bits).release).eng.parityOk = false := by
      simp [State.latch, Engine.parityOk, hck.2.1, hck.2.2, hpar]
    dsimp only
    rw [hp2]
    simp only [ne_eq, not_true_eq_false, if_true, if_false]
    exact ⟨_, rfl, (frame_after he).1⟩
  · have := swdFrame_script (s := s) (p := .dp) (d := .read) (ad := s.cfg.addrCtrlstat) (w := 0#32)
      (q := c) (k := .ok) hcq he hck.1
    rw [this]
    have hp2 : (((s.called c.call).latch .read cs.bits).release).eng.parityOk = true := by
      simp [State.latch, Engine.parityOk, hck.2.1, hck.2.2]
    have hp3 : (((s.called c.call).latch .read cs.bits).release).eng.data = w' := by
      simp [State.latch, hck.2.1]
    have hp4 : (((s.called c.call).latch .read cs.bits).release).cfg = s.cfg := by
      simp
    dsimp only
    rw [hp2, hp3, hp4]
    simp only [ne_eq, not_true_eq_false, if_true, if_false, hs1, hs2, and_self, Bool.true_eq_false]
    exact ⟨_, rfl, (frame_after he).1⟩

/-- Recovered attempts and then such a `Fault`, with a recovery allowed: the loop ends with the error (R173, R179). -/
theorem attempts_unrecoverable {s : State} {t : Txn} {f : Bool} {q c : Seq} {as : List Attempt} {a cs : Answer}
    {rest : List Answer} {kind : ErrKind} (hc : s.cfg.wf = true)
    (hq : requestFrame s.cfg t.port t.dir t.addr t.value = some q)
    (hcq : requestFrame s.cfg .dp .read s.cfg.addrCtrlstat 0#32 = some c)
    (hl : as.length < 4 ∨ as.length = 4 ∧ s.cfg.recoverOnLastAttempt = true)
    (hv : ∀ k ∈ as, k.Valid s.cfg) (hg : a.Gives s.cfg .fault) (hk : cs.Unrecoverable s.cfg kind)
    (he : s.env = as.flatMap Attempt.answers ++ a :: cs :: rest) :
    ∃ u, attempts Config.maxAttempts (s.loadTxn t f) = (.error (.raise kind), u) ∧
      After (s.loadTxn t f) u (framesToCalls (as.flatMap (Attempt.frames s.cfg q)) ++ [q.call] ++ [c.call]) rest := by
  obtain ⟨u, h1, h2, h3⟩ := attempts_all_recovered (c := s.cfg) (q := q) (tail := a :: cs :: rest) as (s.loadTxn t f)
    Config.maxAttempts rfl hc hq rfl (by simp [Config.maxAttempts]; omega) hv he
  obtain ⟨m, hm⟩ : ∃ m, Config.maxAttempts - as.length = m + 1 :=
    ⟨4 - as.length, by simp [Config.maxAttempts]; omega⟩
  rw [hm, attempts_succ, attemptFrame_script (q := q) (k := .fault) (by rw [h2.txn, h2.cfg]; exact hq) h2.env
    (by rw [h2.cfg]; exact hg)] at h1
  have h4 := h2.trans (State.attempted_after (q := q) (k := .fault) (bits := a.bits) h2.env)
  have hcfg : (u.attempted q .fault a.bits).cfg = s.cfg := h4.cfg
  obtain ⟨z, hz, hz2⟩ := recoverFault_unrecoverable (by rw [hcfg]; exact hcq) h4.env (by rw [hcfg]; exact hk)
  have hrec : recoverIfAllowed .fault (u.attempted q .fault a.bits) = (.error (.raise kind), z) := by
    unfold recoverIfAllowed
    rw [if_pos]
    · exact hz
    · rcases hl with h | ⟨h, h'⟩
      · left; simp [State.isLastAttempt, State.attempted_attempt, h3, Config.maxAttempts]; omega
      · right; rw [hcfg]; exact h'
  exact ⟨z, by rw [h1]; simp only [hrec], h4.trans hz2⟩

/-! ### JTAG procedures on scripted answers -/

/-- `jtag_idle` with its frame, if any, answered (R222). -/
theorem jtagIdle_script {s : State} {script rest : List Answer} (he : s.env = script ++ rest) (ha : AllAnswered script (idleCalls s.ps.jtagIdleCycles)) :
    jtagIdle s = (.ok (), { s with env := rest, wire := s.wire ++ idleCalls s.ps.jtagIdleCycles, buf := if s.ps.jtagIdleCycles = 0 then s.buf else .empty }) := by
  unfold jtagIdle
  by_cases h0 : s.ps.jtagIdleCycles = 0
  · have : jtagEncIdle s.ps.jtagIdleCycles = none := by rw [h0]; rfl
    rw [this]
    obtain ⟨h1, -⟩ := ha
    rw [h0, idleCalls, if_pos rfl] at h1
    have : script = [] := List.length_eq_zero_iff.1 h1
    subst this
    simp only [List.nil_append] at he
    simp [h0, idleCalls, ← he]
  · have hn : 1 ≤ s.ps.jtagIdleCycles := by omega
    have : jtagEncIdle s.ps.jtagIdleCycles = some ⟨rep false s.ps.jtagIdleCycles, rep false s.ps.jtagIdleCycles⟩ := by
      simp [jtagEncIdle, hn]
    rw [this]
    obtain ⟨h1, h2⟩ := ha
    rw [idleCalls, if_neg h0] at h1
    obtain ⟨a, rfl⟩ := List.length_eq_one_iff.1 h1
    have hf : a.failed = false := h2 a (by simp)
    have hans : s.answer = a := State.answer_of_env (rest := rest) (by simpa using he)
    obtain ⟨v, hv⟩ := sample_isSome hf s.wire.length (rep false s.ps.jtagIdleCycles).length
    dsimp only
    rw [jtagShift_eq, hans, hv]
    simp [h0, idleCalls, State.called, State.release, JSeq.call, he]

/-- `write_ir` with its frames answered (R221). -/
theorem writeIr_script {s : State} {v : BitVec 8} {len : Nat} {script rest : List Answer} (hq : jtagEncIr v len = .ok (irFrame v len)) (he : s.env = script ++ rest) (ha : AllAnswered script ((irFrame v len).call :: idleCalls s.ps.jtagIdleCycles)) :
    writeIr v len s = (.ok (), { s with ps := { s.ps with currentIrRegister := some v }, env := rest, wire := s.wire ++ (irFrame v len).call :: idleCalls s.ps.jtagIdleCycles, buf := .empty }) := by
  obtain ⟨h1, h2⟩ := ha
  cases script with
  | nil => simp at h1
  | cons a script =>
    have hf : a.failed = false := h2 a (by simp)
    have hans : (s.setIr none).answer = a := State.answer_of_env (rest := script ++ rest) (by simpa using he)
    obtain ⟨w, hw⟩ := sample_isSome hf (s.setIr none).wire.length (irFrame v len).tms.length
    unfold writeIr
    rw [hq]
    dsimp only
    rw [jtagShift_eq, hans, hw]
    dsimp only
    rw [jtagIdle_script (s := ((s.setIr none).called (irFrame v len).call).release) (script := script) (rest := rest) (by simp [he]) ⟨by simpa using h1, fun x hx => h2 x (by simp [hx])⟩]
    simp [State.setIr]
    by_cases h : s.ps.jtagIdleCycles = 0 <;> first | exact if_pos h | exact if_neg h

/-- `ensure_ir` with its frames, if any, answered (R221). -/
theorem ensureIr_script {s : State} {v : BitVec 8} {len : Nat} {script rest : List Answer} (hq : jtagEncIr v len = .ok (irFrame v len)) (he : s.env = script ++ rest) (ha : AllAnswered script (irCalls s.ps.currentIrRegister s.ps.jtagIdleCycles v len)) :
    ∃ b, ensureIr v len s = (.ok (), { s with ps := { s.ps with currentIrRegister := some v }, env := rest, wire := s.wire ++ irCalls s.ps.currentIrRegister s.ps.jtagIdleCycles v len, buf := b }) := by
  unfold ensureIr
  by_cases h : s.ps.currentIrRegister = some v
  · rw [if_pos h]
    rw [irCalls, if_pos h] at ha ⊢
    have : script = [] := List.length_eq_zero_iff.1 ha.1
    subst this
    refine ⟨s.buf, ?_⟩
    simp only [List.nil_append] at he
    rw [← he]
    simp [← h]
  · rw [if_neg h]
    rw [irCalls, if_neg h] at ha ⊢
    exact ⟨_, writeIr_script hq he ha⟩

end Sys2Proof.Machine
end

