-- ==== Sys2Proof/Laws/Tap.lean ====
section
/-! SUPPORT. The TAP controller over a joined TMS vector, and over a run of zeros in a state that stays. -/

namespace Sys2Proof.Machine

theorem TapState.after_append (t : TapState) (a b : Bits) : TapState.after t (a ++ b) = TapState.after (TapState.after t a) b := by
  induction a generalizing t with
  | nil => rfl
  | cons x a ih => exact ih _

theorem TapState.walk_append (t : TapState) (a b : Bits) : TapState.walk t (a ++ b) = TapState.walk t a ++ TapState.walk (TapState.after t a) b := by
  induction a generalizing t with
  | nil => rfl
  | cons x a ih => simp [TapState.walk, TapState.after, ih]

theorem TapState.after_stay (t : TapState) (h : t.clock false = t) (n : Nat) : TapState.after t (rep false n) = t := by
  induction n with
  | zero => rfl
  | succ n ih => rw [rep, List.replicate_succ, TapState.after, h]; exact ih

theorem TapState.walk_stay (t : TapState) (h : t.clock false = t) (n : Nat) : TapState.walk t (rep false n) = List.replicate n t := by
  induction n with
  | zero => rfl
  | succ n ih => rw [rep, List.replicate_succ, TapState.walk, h, List.replicate_succ]; exact congrArg _ ih

end Sys2Proof.Machine
end

