-- ==== Sys2Proof/Tests/Slice0.lean ====
section
/-! SUPPORT. The model's own tests. Expected values come from the vectors of spec/95_test_vectors.md (named by section and
scenario) or are written out by hand from the rule named; none is the model's own answer. Then, for every statement of
Certificates/Slice0/Obligations.lean that has hypotheses, a concrete input that meets them. -/

namespace Sys2Proof.Tests

open Sys2Proof Sys2Proof.Machine

set_option Elab.async false

/-! ### Helpers -/

/-- A bit vector printed first bit on the wire at the left (R5). -/
def bitsOf (s : String) : Bits := s.toList.map (· == '1')

/-- An answer that samples exactly these bits. -/
def sampled (s : String) : Answer := ⟨false, bitsOf s⟩

/-- An answer with three acknowledgement bits and no data (section 2.8). -/
def ackAnswer (ack : String) : Answer := ⟨false, rep false 9 ++ bitsOf ack ++ rep false 43⟩

/-- An answer `OK` with a word, by its bytes least significant bit first, and a parity bit (section 2.8). -/
def wordAnswer (data : String) (par : Bool) : Answer :=
  ⟨false, rep false 9 ++ [true, false, false] ++ bitsOf data ++ [par, false]⟩

/-- The answer `Failed`. -/
def failure : Answer := ⟨true, []⟩

/-- `(Swd, 4000, 0, NONE)` with a script (section 2.11). -/
def swdState (env : List Answer) : State := { State.reset with ps := ⟨.swd, 4000, 0, none⟩, env := env }

/-- `(Jtag, 4000, idle, ir)` with a script. -/
def jtagState (idle : Nat) (ir : Option (BitVec 8)) (env : List Answer) : State :=
  { State.reset with ps := ⟨.jtag, 4000, idle, ir⟩, env := env }

/-- What the outside sees of one instruction: its outcome, its calls, the probe state after it. -/
def outcome (i : Instr) (s : State) : Option (Option Response × List Call × ProbeState) :=
  match exec i s with
  | .next t => some (t.resp, t.wire, t.ps)
  | .fault _ => none
  | .refused _ => none

/-- The engine latches after one instruction. -/
def latches (i : Instr) (s : State) : Option Engine :=
  match exec i s with
  | .next t => some t.eng
  | .fault _ => none
  | .refused _ => none

def dirW : Bits := bitsOf "1111111100000011111111111111111111111111111111111111111"
def dirR : Bits := bitsOf "1111111100000000000000000000000000000000000000"

/-- A read frame of the catalogue of section 2.8. -/
def rd (s : String) : Call := .swdIo (bitsOf s) dirR

/-- A write frame of the catalogue of section 2.8. -/
def wr (s : String) : Call := .swdIo (bitsOf s) dirW

/-- A JTAG frame (section 2.9). -/
def jt (tms tdi : String) : Call := .jtagIo (bitsOf tms) (bitsOf tdi)

def lineResetBits : String := "11111111111111111111111111111111111111111111111111011110011110011100000000"
def LRESET : Call := .swdIo (bitsOf lineResetBits) (rep true 74)
def RD_DPIDR : Call := rd "1010010100000000000000000000000000000000000000"
def RD_CTRLSTAT : Call := rd "1011000100000000000000000000000000000000000000"
def RD_RDBUFF : Call := rd "1011110100000000000000000000000000000000000000"
def RD_AP0 : Call := rd "1110000100000000000000000000000000000000000000"
def RD_APC : Call := rd "1111100100000000000000000000000000000000000000"
def WR_ABORT_10 : Call := wr "1000000100000000001000000000000000000000000000100000000"
def WR_ABORT_04 : Call := wr "1000000100000000100000000000000000000000000000100000000"
def WR_ABORT_14 : Call := wr "1000000100000000101000000000000000000000000000000000000"
def WR_AP0_V : Call := wr "1100010100000001001010000000000000000011000100000000000"
def WR_AP4_V : Call := wr "1101000100000011110111011111011011010101111011000000000"
def WR_DP8_1 : Call := wr "1000110100000010000000000000000000000000000000100000000"

def WAIT : Answer := ackAnswer "010"
def FAULT : Answer := ackAnswer "001"
def NOACK : Answer := ackAnswer "111"
def OK : Answer := ackAnswer "100"

/-- 0x2BA01477, 0x12345678 and 0x00000022, bit 0 first (section 2.4). -/
def data2BA01477 : String := "11101110001010000000010111010100"
def data12345678 : String := "00011110011010100010110001001000"
def data22 : String := "01000100000000000000000000000000"
def data20 : String := "00000100000000000000000000000000"
def data2 : String := "01000000000000000000000000000000"

/-! ### Well-formed instructions: an ill-formed term for each check -/

theorem test_wf_refuses :
    [Instr.dapRd .dp 0 0x6#4, .dapWr .ap 0 0x1#4 0#32, .jtagWir 0x20#8 5, .jtagWir 0#8 0, .jtagRd 0x01#8 9 0,
      .jtagRd 0x20#8 5 32, .jtagWr 0x01#8 5 10 [0xB5#8], .jtagWr 0x01#8 0 8 [0#8], .reservedE, .reservedF,
      .swdHdr .dp .read 0x3#4, .swdEncWrite .ap 0x4#4 0#32 7, .swdEncWrite .ap 0x5#4 0#32 8, .swdEncRead .dp 0x2#4,
      .swdDecAck (rep false 11), .swdDecRead (rep false 45), .swdDecRead (rep false 47), .swdDecWrite (rep false 46),
      .mkSeq [true, false, true] [true, true], .jtagEncIrLen1 2#8, .jtagEncIrLen2 4#8, .jtagEncIrLen3 8#8,
      .jtagEncIrLen4 16#8, .jtagEncIrLen5 32#8, .jtagEncIrLen6 64#8, .jtagEncIrLen7 128#8, .jtagEncIrLen0 0#8,
      .jtagEncDr [] 0,
      .jtagEncDr [0#8] 9, .jtagDecDr (rep false 5) 0, .jtagDecDr (rep false 14) 10, .jtagEncIdle 0,
      .unpackBits [0#8, 0#8] 8].all (fun i => !i.wf .default) = true := by decide

theorem test_wf_refuses_by_configuration :
    Instr.wf { Config.default with addrAbort := 0x1#4 } (.wrAbort 0#32) = false ∧
    Instr.wf { Config.default with addrAbort := 0x1#4 } .clrOrun = false ∧
    Instr.wf { Config.default with addrAbort := 0x1#4 } .clrStkerr = false ∧
    Instr.wf { Config.default with addrDpidr := 0x2#4 } .rdDpidr = false ∧
    Instr.wf { Config.default with addrCtrlstat := 0x5#4 } .rdCtrlstat = false ∧
    Instr.wf { Config.default with addrCtrlstat := 0x5#4 } (.wrCtrlstat 0#32) = false ∧
    Instr.wf { Config.default with addrRdbuff := 0xD#4 } .rdRdbuff = false ∧
    Instr.wf { Config.default with maxDrBits := some 8 } (.jtagRd 1#8 5 9) = false ∧
    Instr.wf { Config.default with maxDrBits := some 8 } (.jtagEncDr [0#8, 0#8] 9) = false := by decide

theorem test_wf_admits :
    [Instr.dapRd .ap 255 0xC#4, .dapWr .dp 0 0x0#4 0#32, .jtagWir 0xFF#8 8, .jtagWir 0xFF#8 9, .jtagRd 0x1F#8 5 1,
      .jtagWr 0x01#8 5 10 [0xB5#8, 0x02#8], .swdEncWrite .ap 0x4#4 0#32 8, .swdDecAck (rep false 12),
      .swdDecRead (rep false 46), .swdDecWrite (rep false 47), .mkSeq [] [], .jtagEncIrLen8 0xFF#8, .jtagEncIrLong 0xFF#8 0,
      .jtagDecDr (rep false 6) 1, .jtagEncIdle 1, .unpackBits [] 0].all (fun i => i.wf .default) = true := by decide

/-- Operands wider than the configuration's fields. -/
theorem test_fits_refuses :
    [Instr.dapRd .ap 256 0x0#4, .dapWr .ap 256 0x0#4 0#32, .speedSet 0x100000000, .jidleSet 256].all
      (fun i => !i.fits .default) = true ∧
    Instr.fits { Config.default with idleBits := 4 } (.jidleSet 16) = false := by decide

/-- Configurations outside the constraints of R4, one for each check. -/
theorem test_config_wf_refuses :
    [{ Config.default with engineWriteIdle := 7 }, { Config.default with nResetHigh := 49 },
      { Config.default with addrDpidr := 0x1#4 }, { Config.default with addrAbort := 0x2#4 },
      { Config.default with addrCtrlstat := 0x3#4 }, { Config.default with addrRdbuff := 0xD#4 },
      { Config.default with bitStkerrclr := 32 }, { Config.default with bitOrunerrclr := 32 },
      { Config.default with bitStickyorun := 32 }, { Config.default with bitStickyerr := 32 },
      { Config.default with speedBits := 8, speedRules := [], resetSpeedKhz := 256 },
      { Config.default with speedBits := 13 }].all (fun c => !c.wf) = true ∧
    Config.default.wf = true := by decide

/-! ### Decoding -/

/-- Records with the fields of R82 (the records of the programs of part 3 among them). -/
theorem test_decode_records :
    decode .default (.record { op := 0x0#4, port := 1#1, apidx := 7, addr := 0xC#4 }) = .dapRd .ap 7 0xC#4 ∧
    decode .default (.record { op := 0x1#4, port := 1#1, addr := 0x4#4, value := 0xDEADBEEF#32 }) =
      .dapWr .ap 0 0x4#4 0xDEADBEEF#32 ∧
    decode .default (.record { op := 0x2#4 }) = .lrst ∧
    decode .default (.record { op := 0x3#4, proto := 0#1 }) = .protoSel .swd ∧
    decode .default (.record { op := 0x4#4 }) = .protoGet ∧
    decode .default (.record { op := 0x5#4, khz := 4000 }) = .speedSet 4000 ∧
    decode .default (.record { op := 0x6#4 }) = .speedGet ∧
    decode .default (.record { op := 0x7#4, cycles := 2 }) = .jidleSet 2 ∧
    decode .default (.record { op := 0x8#4 }) = .rstAssert ∧
    decode .default (.record { op := 0x9#4 }) = .rstDeassert ∧
    decode .default (.record { op := 0xA#4 }) = .attach ∧
    decode .default (.record { op := 0xB#4, irval := 0x10#8, irlen := 5 }) = .jtagWir 0x10#8 5 ∧
    decode .default (.record { op := 0xC#4, irval := 0x01#8, irlen := 5, drbits := 32 }) = .jtagRd 0x01#8 5 32 ∧
    decode .default (.record { op := 0xD#4, irval := 0x11#8, irlen := 5, drbits := 10, data := [0xB5#8, 0x02#8] }) =
      .jtagWr 0x11#8 5 10 [0xB5#8, 0x02#8] ∧
    decode .default (.record { op := 0xE#4 }) = .reservedE ∧
    decode .default (.record { op := 0xF#4 }) = .reservedF := by decide

/-- Lines of R83 and R84, one for each textual mnemonic. -/
theorem test_assemble_commands :
    assemble .default "dap.rd ap[0], 0xC".toList = .ok (.dapRd .ap 0 0xC#4) ∧
    assemble .default "dap.wr dp, 0x8, 0x00000000".toList = .ok (.dapWr .dp 0 0x8#4 0#32) ∧
    assemble .default "lrst".toList = .ok .lrst ∧
    assemble .default "proto.sel jtag".toList = .ok (.protoSel .jtag) ∧
    assemble .default "proto.get".toList = .ok .protoGet ∧
    assemble .default "speed.set 4000".toList = .ok (.speedSet 4000) ∧
    assemble .default "speed.get".toList = .ok .speedGet ∧
    assemble .default "jidle.set 5".toList = .ok (.jidleSet 5) := by decide +kernel

theorem test_assemble_commands_2 :
    assemble .default "rst.assert".toList = .ok .rstAssert ∧
    assemble .default "rst.deassert".toList = .ok .rstDeassert ∧
    assemble .default "attach".toList = .ok .attach ∧
    assemble .default "jtag.wir 0x10, 5".toList = .ok (.jtagWir 0x10#8 5) ∧
    assemble .default "jtag.rd 0x01, 5, 32".toList = .ok (.jtagRd 0x01#8 5 32) ∧
    assemble .default "jtag.wr 0x11, 5, 10, [B5 02]".toList = .ok (.jtagWr 0x11#8 5 10 [0xB5#8, 0x02#8]) := by decide +kernel

theorem test_assemble_pseudo :
    assemble .default "rd.dpidr".toList = .ok .rdDpidr ∧
    assemble .default "wr.abort 0x1E".toList = .ok (.wrAbort 0x1E#32) ∧
    assemble .default "rd.ctrlstat".toList = .ok .rdCtrlstat ∧
    assemble .default "wr.ctrlstat 0x50000001".toList = .ok (.wrCtrlstat 0x50000001#32) ∧
    assemble .default "rd.rdbuff".toList = .ok .rdRdbuff ∧
    assemble .default "clr.orun".toList = .ok .clrOrun ∧
    assemble .default "clr.stkerr".toList = .ok .clrStkerr := by decide +kernel

/-- Lines that name no instruction, with the name of what is wrong. -/
theorem test_assemble_refuses :
    assemble .default "dap.rd dp".toList = .error (.operands .dapRd) ∧
    assemble .default "jidle.set 256".toList = .error (.operands .jidleSet) ∧
    assemble .default "speed.set".toList = .error (.operands .speedSet) ∧
    assemble .default "speed.set 4294967296".toList = .error (.operands .speedSet) ∧
    assemble .default "dap.rd ap[256], 0x4".toList = .error (.operands .dapRd) ∧
    assemble .default "nop".toList = .error .text := by decide +kernel

/-- A width of R4 that is not the default one: a wider index, a narrower speed. -/
theorem test_assemble_widths :
    assemble { Config.default with apidxBits := 16 } "dap.rd ap[256], 0x4".toList = .ok (.dapRd .ap 256 0x4#4) ∧
    assemble { Config.default with speedBits := 8 } "speed.set 256".toList = .error (.operands .speedSet) ∧
    decode { Config.default with speedBits := 16 } (.record { op := 0x5#4, khz := 0x10FA0 }) = .speedSet 4000 := by
  decide +kernel

/-- Codec functions by their names and operands (R80, R120 to R128). -/
theorem test_decode_swd_codec :
    decode .default (.named (.swdHdr .dp .read 0x4#4)) = .swdHdr .dp .read 0x4#4 ∧
    decode .default (.named (.swdEncWrite .ap 0x4#4 0xDEADBEEF#32 9)) = .swdEncWrite .ap 0x4#4 0xDEADBEEF#32 9 ∧
    decode .default (.named (.swdEncRead .dp 0xC#4)) = .swdEncRead .dp 0xC#4 ∧
    decode .default (.named (.swdDecAck (rep true 12))) = .swdDecAck (rep true 12) ∧
    decode .default (.named (.swdDecRead (rep true 46))) = .swdDecRead (rep true 46) ∧
    decode .default (.named (.swdDecWrite (rep true 47))) = .swdDecWrite (rep true 47) ∧
    decode .default (.named .swdEncLineReset) = .swdEncLineReset ∧
    decode .default (.named (.swdPar32 7#32)) = .swdPar32 7#32 ∧
    decode .default (.named (.mkSeq [true] [false])) = .mkSeq [true] [false] := by decide

/-- The same for R150 to R154: `jtag_enc_ir` at every length. -/
theorem test_decode_jtag_codec :
    decode .default (.named (.jtagEncIr 1#8 1)) = .jtagEncIrLen1 1#8 ∧
    decode .default (.named (.jtagEncIr 2#8 2)) = .jtagEncIrLen2 2#8 ∧
    decode .default (.named (.jtagEncIr 3#8 3)) = .jtagEncIrLen3 3#8 ∧
    decode .default (.named (.jtagEncIr 4#8 4)) = .jtagEncIrLen4 4#8 ∧
    decode .default (.named (.jtagEncIr 5#8 5)) = .jtagEncIrLen5 5#8 ∧
    decode .default (.named (.jtagEncIr 6#8 6)) = .jtagEncIrLen6 6#8 ∧
    decode .default (.named (.jtagEncIr 7#8 7)) = .jtagEncIrLen7 7#8 ∧
    decode .default (.named (.jtagEncIr 8#8 8)) = .jtagEncIrLen8 8#8 ∧
    decode .default (.named (.jtagEncIr 1#8 0)) = .jtagEncIrLen0 1#8 ∧
    decode .default (.named (.jtagEncIr 1#8 11)) = .jtagEncIrLong 1#8 2 ∧
    decode .default (.named (.jtagEncDr [0xFF#8, 0x01#8] 9)) = .jtagEncDr [0xFF#8, 0x01#8] 9 ∧
    decode .default (.named (.jtagDecDr (rep true 6) 1)) = .jtagDecDr (rep true 6) 1 ∧
    decode .default (.named (.jtagEncIdle 2)) = .jtagEncIdle 2 ∧
    decode .default (.named (.unpackBits [0xB5#8] 8)) = .unpackBits [0xB5#8] 8 ∧
    decode .default (.named (.packBits [true])) = .packBits [true] := by decide

/-- Bit patterns of the opcode table: the first bit on the wire is the number's highest bit (section 2.1 row AP Write 0x4,
section 2.4 row RDBUFF, section 2.3 row 2, section 2.6, section 2.10 row 1). -/
theorem test_decode_patterns :
    decodeTableWord 8 0x9 = some .rstDeassert ∧ decodeTableWord 8 0xF = some .reservedF ∧
    decodeTableWord 8 0b11010001 = some (.swdHdr .ap .write 0x4#4) ∧
    decodeTableWord 8 0b11010101 = none ∧
    decodeTableWord 48 0b1011110100000000000000000000000000000000000000 = some (.swdEncRead .dp 0xC#4) ∧
    decodeTableWord 56 0b1000000100000000100000000000000000000000000000100000000 =
      some (.swdEncWrite .dp 0x0#4 0x00000004#32 8) ∧
    decodeTableWord 80 0b11111111111111111111111111111111111111111111111111011110011110011100000000 =
      some .swdEncLineReset ∧
    decodeTableWord 32 0xDEADBEEF = some (.swdPar32 0xDEADBEEF#32) ∧
    decodeTableWord 40 0b0000001111001101010001011000100100000 =
      some (.jtagEncDr [0x78#8, 0x56#8, 0x34#8, 0x12#8] 32) := by decide +kernel

/-- Rows without a fixed bit take the patterns of their length that no row with fixed bits has; the instruction-register
frames of section 2.9 (log 6). -/
theorem test_decode_patterns_2 :
    decodeTableWord 16 0b000000000110 = some (.swdDecAck (bitsOf "000000000110")) ∧
    decodeTableWord 48 0b0000000001001110111000101000000001011101010010 =
      some (.swdDecRead (bitsOf "0000000001001110111000101000000001011101010010")) ∧
    decodeTableWord 48 (2 ^ 46) = some (.swdDecWrite (true :: rep false 46)) ∧
    decodeTableWord 40 0b1110000000000000000000000000000000011 =
      some (.jtagDecDr (bitsOf "1110000000000000000000000000000000011") 32) ∧
    decodeTableWord 11 0b00000000100 = some (.jtagEncIrLen5 0x10#8) ∧
    decodeTableWord 10 0b0000010100 = some (.jtagEncIrLen4 0xA#8) ∧
    decodeTableWord 8 0b0000100 = some .protoGet ∧ decodeTableWord 7 0b0000100 = some (.jtagEncIrLen1 1#8) ∧
    decodeTableWord 16 0b00001111111100 = some (.jtagEncIrLen8 0xFF#8) ∧ decodeTableWord 56 1 = none := by decide +kernel

/-- A pattern placed by `withFetchWord` is what the next step runs, from reset. -/
theorem test_withFetchWord :
    step (State.reset.withFetchWord 8 0x7) = exec (.jidleSet 0) State.reset ∧
    step (State.reset.withFetchWord 8 0x81) = exec (.swdHdr .dp .write 0x0#4) State.reset ∧
    step State.reset = .next State.reset := ⟨by rfl, by rfl, by rfl⟩

/-- The reset of the block through a step (R270, R271). -/
theorem test_reset :
    step { jtagState 7 (some 0x10#8) [failure] with wire := [LRESET], host := [.reset] } =
      .next { State.reset with env := [failure], wire := [LRESET] } := by rfl

/-! ### Commands -/

/-- E4: the value of an Access Port read is that of the RDBUFF read. -/
theorem test_dapRd_E4 :
    outcome (.dapRd .ap 0 0xC#4)
      (swdState [wordAnswer "10001000100010001000100010001000" true, wordAnswer data12345678 true]) =
    some (some (.ok (.word 0x12345678#32)), [RD_APC, RD_RDBUFF], (swdState []).ps) := by decide +kernel

/-- E12: the follow-up has attempts of its own. -/
theorem test_dapRd_E12 :
    outcome (.dapRd .ap 0 0x0#4)
      (swdState [WAIT, OK, OK, WAIT, OK, wordAnswer "10110000000011110111111101010011" false]) =
    some (some (.ok (.word 0xCAFEF00D#32)), [RD_AP0, WR_ABORT_10, RD_AP0, RD_RDBUFF, WR_ABORT_10, RD_RDBUFF],
      (swdState []).ps) := by decide +kernel

/-- E2: five failed attempts, no sixth request. -/
theorem test_dapWr_E2 :
    outcome (.dapWr .ap 0 0x4#4 0xDEADBEEF#32) (swdState [WAIT, OK, WAIT, OK, WAIT, OK, WAIT, OK, WAIT, OK]) =
    some (some (.err .timeout ⟨some 0x1#4, some ⟨.ap, 0, 0x4#4, .main⟩⟩),
      [WR_AP4_V, WR_ABORT_10, WR_AP4_V, WR_ABORT_10, WR_AP4_V, WR_ABORT_10, WR_AP4_V, WR_ABORT_10, WR_AP4_V,
        WR_ABORT_10], (swdState []).ps) := by decide +kernel

/-- E7: a fault with both sticky flags. -/
theorem test_dapWr_E7 :
    outcome (.dapWr .ap 0 0x0#4 0x23000052#32) (swdState [FAULT, wordAnswer data22 false, OK, OK]) =
    some (some (.ok .unit), [WR_AP0_V, RD_CTRLSTAT, WR_ABORT_14, WR_AP0_V], (swdState []).ps) := by decide +kernel

/-- Section 2.11, the rows of `lrst`. -/
theorem test_lrst :
    outcome .lrst (swdState [OK]) = some (some (.ok .unit), [LRESET], (swdState []).ps) ∧
    outcome .lrst (jtagState 0 none []) =
      some (some (.err .unsupportedProtocol ⟨some 0x2#4, none⟩), [], (jtagState 0 none []).ps) := by decide +kernel

/-- Section 2.11, rows 2 and 3: reselecting invalidates the cache, and so does a failure. -/
theorem test_protoSel :
    outcome (.protoSel .jtag) (jtagState 0 (some 0x10#8) [OK]) =
      some (some (.ok .unit), [.tpSelect .jtag], ⟨.jtag, 4000, 0, none⟩) ∧
    outcome (.protoSel .swd) (jtagState 0 (some 0x10#8) [failure]) =
      some (some (.err .probeSpecific ⟨some 0x3#4, none⟩), [.tpSelect .swd], ⟨.jtag, 4000, 0, none⟩) := by decide +kernel

/-- Section 2.11, row 4. -/
theorem test_protoSel_unsupported :
    outcome (.protoSel .jtag) { swdState [] with cfg := { Config.default with supportsJtag := false } } =
      some (some (.err .unsupportedProtocol ⟨some 0x3#4, none⟩), [], (swdState []).ps) := by decide +kernel

theorem test_protoGet : outcome .protoGet (swdState []) = some (some (.ok (.proto .swd)), [], (swdState []).ps) := by
  decide +kernel

/-- Section 2.11: above the range the transport takes another speed, 0 it does not support. -/
theorem test_speedSet :
    outcome (.speedSet 50000) (swdState [OK]) =
      some (some (.ok (.speed 10000)), [.tpSetSpeed 50000], ⟨.swd, 10000, 0, none⟩) ∧
    outcome (.speedSet 0) (swdState [OK]) =
      some (some (.err .unsupportedSpeed ⟨some 0x5#4, none⟩), [.tpSetSpeed 0], (swdState []).ps) := by decide +kernel

theorem test_speedGet : outcome .speedGet (swdState []) = some (some (.ok (.speed 4000)), [], (swdState []).ps) := by
  decide +kernel

theorem test_jidleSet :
    outcome (.jidleSet 5) (swdState []) = some (some (.ok .unit), [], ⟨.swd, 4000, 5, none⟩) := by decide +kernel

theorem test_rstAssert :
    outcome .rstAssert (jtagState 0 (some 0x11#8) [OK]) =
      some (some (.ok .unit), [.tpReset .asserted], ⟨.jtag, 4000, 0, none⟩) := by decide +kernel

theorem test_rstDeassert :
    outcome .rstDeassert (jtagState 0 (some 0x11#8) [failure]) =
      some (some (.err .probeSpecific ⟨some 0x9#4, none⟩), [.tpReset .released], ⟨.jtag, 4000, 0, none⟩) := by
  decide +kernel

theorem test_attach :
    outcome .attach (swdState [NOACK]) = some (some (.ok .unit), [LRESET], (swdState []).ps) ∧
    outcome .attach (jtagState 0 (some 0x11#8) []) = some (some (.ok .unit), [], ⟨.jtag, 4000, 0, none⟩) := by
  decide +kernel

/-- Section 2.11: two idle cycles follow; a failure leaves the cache empty. -/
theorem test_jtagWir :
    outcome (.jtagWir 0x10#8 5) (jtagState 2 none [sampled "00000000000", sampled "00"]) =
      some (some (.ok .unit), [jt "11000000110" "00000000100", jt "00" "00"], ⟨.jtag, 4000, 2, some 0x10#8⟩) ∧
    outcome (.jtagWir 0x11#8 5) (jtagState 0 (some 0x10#8) [failure]) =
      some (some (.err .probeSpecific ⟨some 0xB#4, none⟩), [jt "11000000110" "00001000100"],
        ⟨.jtag, 4000, 0, none⟩) := by decide +kernel

/-- Section 2.11: the instruction-register write is skipped. -/
theorem test_jtagRd :
    outcome (.jtagRd 0x01#8 5 32) (jtagState 0 (some 0x01#8) [sampled "0001110111000100000000001011101001000"]) =
      some (some (.ok (.bytes [0x77#8, 0x04#8, 0xA0#8, 0x4B#8])),
        [jt "1000000000000000000000000000000000110" "0000000000000000000000000000000000000"],
        ⟨.jtag, 4000, 0, some 0x01#8⟩) := by decide +kernel

/-- Section 2.12: the order of the checks. -/
theorem test_jtagRd_order :
    outcome (.jtagRd 0x01#8 9 0) (jtagState 0 none []) = some (some .assert, [], (jtagState 0 none []).ps) ∧
    outcome (.jtagRd 0x01#8 9 32) (swdState []) =
      some (some (.err .notImplemented ⟨some 0xC#4, none⟩), [], (swdState []).ps) ∧
    outcome (.jtagRd 0x01#8 9 32) (jtagState 0 (some 0x01#8) []) =
      some (some (.err .notImplemented ⟨some 0xC#4, none⟩), [], (jtagState 0 (some 0x01#8) []).ps) := by decide +kernel

/-- Section 2.11: the write and the register captured. -/
theorem test_jtagWr :
    outcome (.jtagWr 0x11#8 5 10 [0xB5#8, 0x02#8])
      (jtagState 0 none [sampled "00000000000", sampled "111101101001111"]) =
      some (some (.ok (.bytes [0x2D#8, 0x03#8])),
        [jt "11000000110" "00001000100", jt "100000000000110" "000101011010100"],
        ⟨.jtag, 4000, 0, some 0x11#8⟩) := by decide +kernel

theorem test_jtagWr_data_length :
    outcome (.jtagWr 0x01#8 5 10 [0xB5#8]) (jtagState 0 none []) =
      some (some .assert, [], (jtagState 0 none []).ps) := by decide +kernel

theorem test_reserved :
    outcome .reservedE (swdState []) = some (some .assert, [], (swdState []).ps) ∧
    outcome .reservedF (jtagState 0 none []) = some (some .assert, [], (jtagState 0 none []).ps) := by decide +kernel

/-! ### Pseudo-instructions -/

/-- E15: mixed classes. -/
theorem test_rdDpidr_E15 :
    outcome .rdDpidr
      (swdState [WAIT, OK, NOACK, sampled "", FAULT, wordAnswer data2 true, OK, wordAnswer data2BA01477 false]) =
    some (some (.ok (.word 0x2BA01477#32)),
      [RD_DPIDR, WR_ABORT_10, RD_DPIDR, LRESET, RD_DPIDR, RD_CTRLSTAT, WR_ABORT_10, RD_DPIDR], (swdState []).ps) := by
  decide +kernel

/-- E10: a parity error is not retried; the latches hold what was sampled, and the count is 0 again (R30, R257). -/
theorem test_rdDpidr_E10 :
    outcome .rdDpidr (swdState [wordAnswer data2BA01477 true]) =
      some (some (.err .incorrectParity ⟨some 0x0#4, some ⟨.dp, 0, 0x0#4, .main⟩⟩), [RD_DPIDR], (swdState []).ps) ∧
    latches .rdDpidr (swdState [wordAnswer data2BA01477 true]) =
      some ⟨.idle, 0, ⟨.dp, 0, .read, 0x0#4, 0#32⟩, false, ⟨true, false, false⟩, 0x2BA01477#32, true⟩ := by
  decide +kernel

theorem test_wrAbort :
    outcome (.wrAbort 0x00000014#32) (swdState [OK]) = some (some (.ok .unit), [WR_ABORT_14], (swdState []).ps) := by
  decide +kernel

/-- E1. -/
theorem test_rdCtrlstat_E1 :
    outcome .rdCtrlstat
      (swdState [WAIT, OK, WAIT, OK, sampled "0000000001000000001000000000000000000000111110"]) =
    some (some (.ok (.word 0xF0000040#32)), [RD_CTRLSTAT, WR_ABORT_10, RD_CTRLSTAT, WR_ABORT_10, RD_CTRLSTAT],
      (swdState []).ps) := by decide +kernel

/-- E9: the read of a recovery is single-shot. -/
theorem test_rdCtrlstat_E9 :
    outcome .rdCtrlstat (swdState [FAULT, WAIT]) =
      some (some (.err .faultResponse ⟨some 0x0#4, some ⟨.dp, 0, 0x4#4, .main⟩⟩), [RD_CTRLSTAT, RD_CTRLSTAT],
        (swdState []).ps) := by decide +kernel

/-- Program A, command 5. -/
theorem test_wrCtrlstat :
    outcome (.wrCtrlstat 0x50000001#32) (swdState [OK]) =
      some (some (.ok .unit), [wr "1001010100000010000000000000000000000000001010100000000"], (swdState []).ps) := by
  decide +kernel

theorem test_rdRdbuff :
    outcome .rdRdbuff (swdState [wordAnswer data12345678 true]) =
      some (some (.ok (.word 0x12345678#32)), [RD_RDBUFF], (swdState []).ps) := by decide +kernel

theorem test_clrOrun :
    outcome .clrOrun (swdState [OK]) = some (some (.ok .unit), [WR_ABORT_10], (swdState []).ps) := by decide +kernel

/-- E17: the protocol gate, for a pseudo-instruction. -/
theorem test_clrStkerr :
    outcome .clrStkerr (swdState [OK]) = some (some (.ok .unit), [WR_ABORT_04], (swdState []).ps) ∧
    outcome .clrStkerr (jtagState 0 none []) =
      some (some (.err .unsupportedProtocol ⟨some 0x1#4, some ⟨.dp, 0, 0x0#4, .main⟩⟩), [],
        (jtagState 0 none []).ps) := by decide +kernel

/-! ### Codec functions -/

/-- What a codec function gives in the state after reset. -/
def gives (i : Instr) : Option (Option Response) := (outcome i State.reset).map (·.1)

theorem test_swdHdr :
    gives (.swdHdr .dp .read 0x4#4) = some (some (.ok (.bits (bitsOf "10110001")))) ∧
    gives (.swdHdr .ap .write 0xC#4) = some (some (.ok (.bits (bitsOf "11011101")))) ∧
    gives (.swdHdr .ap .write 0x2#4) = some (some .assert) := by decide +kernel

/-- Program D, calls 3 and 5, and the row `n = 9` of section 2.3. -/
theorem test_swdEncWrite :
    gives (.swdEncWrite .ap 0x4#4 0xDEADBEEF#32 8) =
      some (some (.ok (.swdSeq (bitsOf "1101000100000011110111011111011011010101111011000000000") dirW))) ∧
    gives (.swdEncWrite .dp 0x8#4 0x00000001#32 9) =
      some (some (.ok (.swdSeq (bitsOf "10001101000000100000000000000000000000000000001000000000") (dirW ++ [true])))) ∧
    gives (.swdEncWrite .ap 0x4#4 0xDEADBEEF#32 7) = some (some .assert) := by decide +kernel

theorem test_swdEncRead :
    gives (.swdEncRead .dp 0x4#4) =
      some (some (.ok (.swdSeq (bitsOf "1011000100000000000000000000000000000000000000") dirR))) := by decide +kernel

/-- Section 2.5 and the last two rows of section 2.4. -/
theorem test_swdDecAck :
    gives (.swdDecAck (bitsOf "000000000110")) = some (some (.ok (.ackClass .wait))) ∧
    gives (.swdDecAck (bitsOf "000000000101")) = some (some (.ok (.ackClass .fault))) ∧
    gives (.swdDecAck (rep true 46)) = some (some (.ok (.ackClass .noAck))) ∧
    gives (.swdDecAck (rep false 46)) = some (some (.ok (.ackClass .noAck))) := by decide +kernel

/-- Section 2.4, rows 2 and 9. -/
theorem test_swdDecRead :
    gives (.swdDecRead (bitsOf "0000000001001110111000101000000001011101010010")) =
      some (some (.ok (.sampledWord 0x2BA01477#32 true false))) ∧
    gives (.swdDecRead (bitsOf "0000000001000000000000000000000000000000000110")) =
      some (some (.ok (.sampledWord 0x80000000#32 true true))) := by decide +kernel

/-- Section 2.3, rows 4 and 7. -/
theorem test_swdDecWrite :
    gives (.swdDecWrite (bitsOf "1101000100000011110111011111011011010101111011000000000")) =
      some (some (.ok (.drivenWord 0xDEADBEEF#32 false))) ∧
    gives (.swdDecWrite (bitsOf "1001010100000010000000000000000000000000001010100000000")) =
      some (some (.ok (.drivenWord 0x50000001#32 true))) := by decide +kernel

theorem test_swdEncLineReset :
    gives .swdEncLineReset = some (some (.ok (.swdSeq (bitsOf lineResetBits) (rep true 74)))) := by decide +kernel

/-- Section 2.2. -/
theorem test_swdPar32 :
    gives (.swdPar32 0x12345678#32) = some (some (.ok (.bit true))) ∧
    gives (.swdPar32 0xCAFEF00D#32) = some (some (.ok (.bit false))) := by decide +kernel

/-- Section 2.7. -/
theorem test_mkSeq :
    gives (.mkSeq [true, false, true] [true, true, false]) =
      some (some (.ok (.swdSeq [true, false, true] [true, true, false]))) ∧
    gives (.mkSeq [true, false, true] [true, true]) = some (some .assert) ∧
    gives (.mkSeq [] []) = some (some (.ok (.swdSeq [] []))) := by decide +kernel

/-- Section 2.9, and R96 written out at the lengths it has no row for. -/
theorem test_jtagEncIr :
    gives (.jtagEncIrLen1 0x1#8) = some (some (.ok (.jtagSeq (bitsOf "1100110") (bitsOf "0000100")))) ∧
    gives (.jtagEncIrLen2 0x2#8) = some (some (.ok (.jtagSeq (bitsOf "11000110") (bitsOf "00000100")))) ∧
    gives (.jtagEncIrLen3 0x3#8) = some (some (.ok (.jtagSeq (bitsOf "110000110") (bitsOf "000011000")))) ∧
    gives (.jtagEncIrLen4 0xA#8) = some (some (.ok (.jtagSeq (bitsOf "1100000110") (bitsOf "0000010100")))) ∧
    gives (.jtagEncIrLen5 0x11#8) = some (some (.ok (.jtagSeq (bitsOf "11000000110") (bitsOf "00001000100")))) ∧
    gives (.jtagEncIrLen5 0x20#8) = some (some .assert) := by decide +kernel

/-- The corner cases of section 2.9. -/
theorem test_jtagEncIr_corners :
    gives (.jtagEncIrLen0 0x10#8) = some (some .assert) ∧
    gives (.jtagEncIrLong 0x01#8 0) = some (some (.err .notImplemented ⟨none, none⟩)) := by decide +kernel

theorem test_jtagEncIr_long :
    gives (.jtagEncIrLen6 0x21#8) = some (some (.ok (.jtagSeq (bitsOf "110000000110") (bitsOf "000010000100")))) ∧
    gives (.jtagEncIrLen7 0x07#8) = some (some (.ok (.jtagSeq (bitsOf "1100000000110") (bitsOf "0000111000000")))) ∧
    gives (.jtagEncIrLen8 0xA5#8) =
      some (some (.ok (.jtagSeq (bitsOf "11000000000110") (bitsOf "00001010010100")))) := by decide +kernel

/-- Section 2.10: the high bits of a partial last byte are ignored; one bit goes with the exit. -/
theorem test_jtagEncDr :
    gives (.jtagEncDr [0xB5#8, 0xFE#8] 10) =
      some (some (.ok (.jtagSeq (bitsOf "100000000000110") (bitsOf "000101011010100")))) ∧
    gives (.jtagEncDr [0x01#8] 1) = some (some (.ok (.jtagSeq (bitsOf "100110") (bitsOf "000100")))) ∧
    gives (.jtagEncDr [] 0) = some (some .assert) := by decide +kernel

theorem test_jtagDecDr :
    gives (.jtagDecDr (bitsOf "111101101001111") 10) = some (some (.ok (.bytes [0x2D#8, 0x03#8]))) ∧
    gives (.jtagDecDr (bitsOf "000100") 1) = some (some (.ok (.bytes [0x01#8]))) := by decide +kernel

theorem test_jtagEncIdle :
    gives (.jtagEncIdle 2) = some (some (.ok (.jtagSeq [false, false] [false, false]))) ∧
    gives (.jtagEncIdle 0) = some (some .assert) := by decide +kernel

theorem test_unpackBits :
    gives (.unpackBits [0xB5#8, 0x02#8] 10) = some (some (.ok (.bits (bitsOf "1010110101")))) ∧
    gives (.unpackBits [0xB5#8] 10) = some (some .assert) := by decide +kernel

theorem test_packBits : gives (.packBits (bitsOf "1010110101")) = some (some (.ok (.bytes [0xB5#8, 0x02#8]))) := by
  decide +kernel

/-! ### Witnesses: inputs that meet the hypotheses of the statements -/

/-- StepRunsDecodedInstruction. -/
theorem witness_step_runs :
    ((swdState []).present (.record { op := 0x4#4 })).eng.phase = .idle ∧
    ((swdState []).present (.record { op := 0x4#4 })).host = [.port (.record { op := 0x4#4 })] ∧
    decode (swdState []).cfg (.record { op := 0x4#4 }) = .protoGet := by decide

/-- StepWaitsOrStops, clause by clause; the fourth at the one state that faults. -/
theorem witness_step_waits : State.reset.host = [] ∧
    ((State.reset.setPhase .request).present (.record { op := 4#4 })).eng.phase ≠ .idle ∧
    ((State.reset.setPhase .request).present (.record { op := 4#4 })).host = [.port (.record { op := 4#4 })] ∧
    { State.reset with host := [.reset] }.host = [Input.reset] ∧
    step ((State.reset.setPhase .request).present (.record { op := 4#4 })) = .fault .portClosed :=
  ⟨by decide, by decide, by decide, by decide, rfl⟩

/-- DecodeOfEncode: operands at the last value each width admits. -/
theorem witness_fits : Instr.fits .default (.dapRd .ap 255 0xC#4) = true ∧
    Instr.fits .default (.dapWr .ap 255 0xC#4 0#32) = true ∧
    Instr.fits .default (.speedSet 0xFFFFFFFF) = true ∧ Instr.fits .default (.jidleSet 255) = true := by decide

/-- RecordsDecodeByOpcode: every one of its sixteen hypotheses is met by some record. -/
theorem witness_records : (List.range 16).all (fun n => ({ op := BitVec.ofNat 4 n } : Record).op.toNat == n) = true := by
  decide

/-- HeaderFieldsInWireOrder, SixteenHeaders: a header exists, at the last row. -/
theorem witness_headers : swdHdr .ap .read 0xC#4 = some (bitsOf "11111001") := by decide

/-- AcknowledgementClasses: the shortest vector. -/
theorem witness_ack : Config.default.nTrnAck = 1 ∧ 12 ≤ (rep false 12).length := by decide

/-- WriteFrameLayout, WriteDataRoundTrip: the shortest frame. -/
theorem witness_write_frame : Config.default.nTrnAck = 1 ∧ (0xC#4).extractLsb' 0 2 = 0#2 ∧ 8 ≤ 8 ∧
    (swdEncWrite .default .ap 0xC#4 0xFFFFFFFF#32 8).isSome = true ∧ (swdHdr .ap .write 0xC#4).isSome = true := by
  decide +kernel

/-- ReadFrameLayout, ReadDataDecoding. -/
theorem witness_read_frame : Config.default.nTrnAck = 1 ∧ (swdEncRead .default .dp 0xC#4).isSome = true ∧
    (swdHdr .dp .read 0xC#4).isSome = true ∧ (rep true 12).length = 12 := by decide +kernel

/-- DataParityLaws: the highest bit. -/
theorem witness_parity : 31 < 32 := by decide

/-- InstructionRegisterFrame: each clause at a boundary. -/
theorem witness_ir_frame : 8 < 9 ∧ (1 ≤ 8 ∧ 8 ≤ 8 ∧ (0xFF#8).toNat < 2 ^ 8) ∧
    (1 ≤ 5 ∧ 5 ≤ 8 ∧ 2 ^ 5 ≤ (0x20#8).toNat) ∧ (1 ≤ 1 ∧ 1 ≤ 8 ∧ (0x1#8).toNat < 2 ^ 1) := by decide

/-- DataRegisterFrameAndCapture, PackAndUnpack: a register of one bit and one of a partial last byte; the bound
`MAX_DR_BITS` met exactly and passed by one. -/
theorem witness_dr_frame :
    (∀ m, { Config.default with maxDrBits := some 9 }.maxDrBits = some m → 9 ≤ m) ∧ 1 ≤ 9 ∧
    [0xFF#8, 0x01#8].length = (9 + 7) / 8 ∧ [0x01#8].length = (1 + 7) / 8 ∧ (rep true 6).length = 1 + 5 ∧
    ([] : List Byte).length ≠ (1 + 7) / 8 ∧
    { Config.default with maxDrBits := some 8 }.maxDrBits = some 8 ∧ 8 < 9 := by
  refine ⟨?_, by decide⟩
  intro m h
  cases h
  decide

/-- JtagFramesReturnToIdle: frames of each kind, of one bit. -/
theorem witness_jtag_frames : jtagEncIr 0x1#8 1 = .ok ⟨bitsOf "1100110", bitsOf "0000100"⟩ ∧
    jtagEncDr .default [0x01#8] 1 = some ⟨bitsOf "100110", bitsOf "000100"⟩ ∧
    jtagEncIdle 1 = some ⟨[false], [false]⟩ := by decide

/-- SwdCodecFunctionsComplete: the domains at their boundaries, inside and outside. -/
theorem witness_swd_codec : (0xC#4).extractLsb' 0 2 = 0#2 ∧ (0x1#4).extractLsb' 0 2 ≠ 0#2 ∧
    (0x2#4).extractLsb' 0 2 ≠ 0#2 ∧ 7 < 8 ∧
    11 + State.reset.cfg.nTrnAck ≤ (rep false 12).length ∧ (rep false 11).length < 11 + State.reset.cfg.nTrnAck ∧
    (rep false 46).length = 45 + State.reset.cfg.nTrnAck ∧ (rep false 45).length ≠ 45 + State.reset.cfg.nTrnAck ∧
    46 + State.reset.cfg.nTrnAck ≤ (rep false 47).length ∧ (rep false 46).length < 46 + State.reset.cfg.nTrnAck ∧
    [true].length = [false].length ∧ [true].length ≠ ([] : Bits).length := by decide

/-- JtagCodecFunctionsComplete; of `jtag_enc_ir` the last length of each clause. -/
theorem witness_jtag_codec : 8 < 9 ∧ (1 ≤ 1 ∧ 1 ≤ 8 ∧ (0x1#8).toNat < 2 ^ 1 ∧ 2 ^ 1 ≤ (0x2#8).toNat) ∧
    (1 ≤ 8 ∧ 8 ≤ 8 ∧ (0xFF#8).toNat < 2 ^ 8) ∧ State.reset.cfg.maxDrBits = none ∧
    [0x01#8].length = (8 + 7) / 8 ∧ [0x01#8].length ≠ (9 + 7) / 8 ∧ (rep true 14).length = 9 + 5 ∧
    (rep true 5).length = 0 + 5 ∧ (rep true 5).length ≠ 1 + 5 ∧
    { swdState [] with cfg := { Config.default with maxDrBits := some 8 } }.cfg.maxDrBits = some 8 ∧ 8 < 9 := by decide

/-- SixCausesOfAssert, clause by clause. -/
theorem witness_six_causes : (0x1#4).getLsbD 0 = true ∧ (0x2#4).getLsbD 1 = true ∧
    (8 ≤ 8 ∧ 2 ^ 7 ≤ (0x80#8).toNat) ∧ [0xB5#8].length ≠ (10 + 7) / 8 ∧ [0xB5#8].length ≠ (0 + 7) / 8 := by decide

/-- AssertExactlyOutsideTheContract: the configuration, and both sides. -/
theorem witness_assert : (swdState []).cfg.wf = true ∧ Instr.wf (swdState []).cfg (.dapRd .dp 0 0x6#4) = false ∧
    Instr.wf (swdState []).cfg (.dapRd .dp 0 0x4#4) = true := by decide

/-- LongInstructionRegisterNotImplemented, UnsupportedProtocolCauses. -/
theorem witness_gates : 8 < 9 ∧ (swdState []).cfg.maxDrBits = none ∧ 1 ≤ 1 ∧ [0x01#8].length = (1 + 7) / 8 ∧
    supports { Config.default with supportsJtag := false } .jtag = false ∧
    (jtagState 0 none []).ps.selectedProtocol = .jtag ∧ (swdState []).ps.selectedProtocol = .swd ∧
    (0xC#4).extractLsb' 0 2 = 0#2 ∧ (1 ≤ 8 ∧ 8 ≤ 8 ∧ (0xFF#8).toNat < 2 ^ 8) := by decide

/-- ProtocolSelect, SpeedSet, ResetLineCommands, AttachAndLineReset: an answer of each kind, and a speed of each kind. -/
theorem witness_probe_commands : (swdState [OK]).answer.failed = false ∧ (swdState [failure]).answer.failed = true ∧
    supports (swdState []).cfg .jtag = true ∧ supports { Config.default with supportsJtag := false } .jtag = false ∧
    speedAccept .default 10001 = some 10000 ∧
    speedAccept .default 1 = some 1 ∧ speedAccept .default 0 = none ∧
    (swdState []).ps.selectedProtocol = .swd ∧ (jtagState 0 none []).ps.selectedProtocol = .jtag := by decide

/-- WriteAcknowledgedAtOnce, DebugPortReadAcknowledgedAtOnce, AccessPortReadFetchesReadBuffer, PseudoInstructionsComplete:
answers of class `Ok` with right and with wrong parity. -/
theorem witness_acknowledged : Config.default.wf = true ∧ OK.Gives .default .ok ∧
    (wordAnswer data12345678 true).GivesWord .default 0x12345678#32 true ∧ swdPar32 0x12345678#32 = true ∧
    (wordAnswer data12345678 false).GivesWord .default 0x12345678#32 false ∧
    (swdState [OK, wordAnswer data12345678 true]).env = [OK, wordAnswer data12345678 true] := by decide +kernel

theorem valid_wait : (Attempt.wait WAIT OK).Valid .default := by
  show WAIT.Gives .default .wait ∧ OK.failed = false
  decide +kernel

theorem valid_noAck : (Attempt.noAck NOACK OK).Valid .default := by
  show NOACK.Gives .default .noAck ∧ OK.failed = false
  decide +kernel

theorem valid_fault : (Attempt.fault FAULT (wordAnswer data22 false) OK).Valid .default := by
  show FAULT.Gives .default .fault ∧
    (wordAnswer data22 false).GivesWord .default (sampledData .default (wordAnswer data22 false).bits)
      (swdPar32 (sampledData .default (wordAnswer data22 false).bits)) ∧
    (stickyOrun .default (sampledData .default (wordAnswer data22 false).bits) = true ∨
      stickyErr .default (sampledData .default (wordAnswer data22 false).bits) = true) ∧ OK.failed = false
  decide +kernel

/-- Four attempts of the three classes. -/
def fourAttempts : List Attempt :=
  [.wait WAIT OK, .noAck NOACK OK, .fault FAULT (wordAnswer data22 false) OK, .wait WAIT OK]

theorem valid_fourAttempts : ∀ k ∈ fourAttempts, k.Valid .default := by
  intro k hk
  simp only [fourAttempts, List.mem_cons, List.not_mem_nil, or_false] at hk
  rcases hk with rfl | rfl | rfl | rfl
  · exact valid_wait
  · exact valid_noAck
  · exact valid_fault
  · exact valid_wait

theorem valid_fiveAttempts : ∀ k ∈ fourAttempts ++ [Attempt.noAck NOACK OK], k.Valid .default := by
  intro k hk
  rcases List.mem_append.1 hk with hk | hk
  · exact valid_fourAttempts k hk
  · simp only [List.mem_cons, List.not_mem_nil, or_false] at hk
    exact hk ▸ valid_noAck

/-- RecoveredAttemptsThenOk: the longest list, a script for it, both kinds of last answer. -/
theorem witness_recovered : (swdState []).ps.selectedProtocol = .swd ∧ fourAttempts.length ≤ 4 ∧
    OK.Gives .default .ok ∧ (wordAnswer data12345678 true).GivesWord .default 0x12345678#32 true ∧
    (swdState (fourAttempts.flatMap Attempt.answers ++ OK :: [])).env =
      fourAttempts.flatMap Attempt.answers ++ OK :: [] := by decide +kernel

/-- FollowUpHasAttemptsOfItsOwn: each clause. -/
theorem witness_followUp : fourAttempts.length ≤ 4 ∧ (fourAttempts ++ [Attempt.noAck NOACK OK]).length = 5 ∧
    Config.default.recoverOnLastAttempt = true ∧ (wordAnswer data12345678 false).GivesWord .default 0x12345678#32 false := by
  decide +kernel

/-- FiveFailedAttemptsTimeOut: each clause. -/
theorem witness_five : (fourAttempts ++ [Attempt.noAck NOACK OK]).length = 5 ∧ Config.default.recoverOnLastAttempt = true ∧
    fourAttempts.length = 4 ∧ { Config.default with recoverOnLastAttempt := false }.recoverOnLastAttempt = false ∧
    { Config.default with recoverOnLastAttempt := false }.wf = true ∧
    WAIT.Gives { Config.default with recoverOnLastAttempt := false } .wait := by decide +kernel

/-- UnrecoverableFaultEndsTheOperation: each of its three causes. -/
theorem witness_causes : WAIT.Unrecoverable .default .faultResponse ∧
    (wordAnswer data22 true).Unrecoverable .default .incorrectParity ∧
    (wordAnswer (String.ofList (List.replicate 32 '0')) false).Unrecoverable .default .faultResponse :=
  ⟨.inl ⟨⟨.wait, by decide, by decide +kernel⟩, rfl⟩,
    .inr (.inl ⟨⟨0x22#32, true, by decide +kernel, by decide +kernel⟩, rfl⟩),
    .inr (.inr ⟨⟨0#32, by decide +kernel, by decide, by decide⟩, rfl⟩)⟩

/-- UnrecoverableFaultEndsTheOperation: a script of each clause, with the most attempts before it. -/
theorem witness_unrecoverable : FAULT.Gives .default .fault ∧ OK.Gives .default .ok ∧ fourAttempts.length = 4 ∧
    Config.default.recoverOnLastAttempt = true ∧
    (swdState (fourAttempts.flatMap Attempt.answers ++ FAULT :: WAIT :: [])).env =
      fourAttempts.flatMap Attempt.answers ++ FAULT :: WAIT :: [] ∧
    (swdState (fourAttempts.flatMap Attempt.answers ++
        OK :: (fourAttempts.flatMap Attempt.answers ++ FAULT :: WAIT :: []))).env =
      fourAttempts.flatMap Attempt.answers ++
        OK :: (fourAttempts.flatMap Attempt.answers ++ FAULT :: WAIT :: []) := by decide +kernel

/-- A `Fault` of the RDBUFF read whose CTRL/STAT read is answered `Wait` (R176, R180, R190). -/
theorem test_followUp_fault :
    outcome (.dapRd .ap 2 0xC#4) (swdState [OK, FAULT, WAIT]) =
      some (some (.err .faultResponse ⟨some 0x0#4, some ⟨.ap, 2, 0xC#4, .followUp⟩⟩), [RD_APC, RD_RDBUFF, RD_CTRLSTAT],
        (swdState []).ps) := by decide +kernel

/-- AbortWords: the bit positions differ; a CTRL/STAT word with one flag, with the other, with both. -/
theorem witness_abort : Config.default.bitOrunerrclr ≠ Config.default.bitStkerrclr ∧
    (wordAnswer data22 false).GivesWord .default 0x22#32 (swdPar32 0x22#32) ∧
    stickyOrun .default 0x22#32 = true ∧ stickyErr .default 0x22#32 = true ∧
    (wordAnswer data2 true).GivesWord .default 0x2#32 (swdPar32 0x2#32) ∧
    stickyOrun .default 0x2#32 = true ∧ stickyErr .default 0x2#32 = false ∧
    (wordAnswer data20 true).GivesWord .default 0x20#32 (swdPar32 0x20#32) ∧
    stickyOrun .default 0x20#32 = false ∧ stickyErr .default 0x20#32 = true ∧
    (swdState [wordAnswer data2 true, OK]).env = [wordAnswer data2 true, OK] := by decide +kernel

/-- EngineSendsOnlyItsFrames, CallBounds. -/
theorem witness_engine : Instr.txn? .default (.dapRd .ap 3 0xC#4) = some ⟨.ap, 3, .read, 0xC#4, 0#32⟩ ∧
    (0xC#4).extractLsb' 0 2 = 0#2 ∧
    Instr.txn? .default .clrStkerr = some ⟨.dp, 0, .write, 0x0#4, 0x00000004#32⟩ := by decide

/-- CallBounds: E13, the bound of 28 calls is reached. -/
theorem witness_callBound :
    (outcome (.dapRd .ap 0 0x0#4) (swdState
      (List.flatten (List.replicate 4 [FAULT, wordAnswer data22 false, OK]) ++ [OK] ++
        List.flatten (List.replicate 5 [FAULT, wordAnswer data22 false, OK])))).map
      (fun r => (r.1, r.2.1.length)) =
    some (some (.err .timeout ⟨some 0x0#4, some ⟨.ap, 0, 0x0#4, .followUp⟩⟩), 28) := by decide +kernel

/-- PhasesAgreeWithLoop, PhaseTransitionsAreTheTable. -/
theorem witness_phases : 31 ≤ 31 ∧ (startPhases ⟨.ap, 0, .read, 0xC#4, 0#32⟩ (swdState [])).eng.phase.running = true ∧
    (startPhases ⟨.ap, 0, .read, 0xC#4, 0#32⟩ (swdState [])).cfg.wf = true ∧
    (startPhases ⟨.ap, 0, .read, 0xC#4, 0#32⟩ (swdState [])).eng.txn.addr.extractLsb' 0 2 = 0#2 := by decide

/-- TransportFailureEndsTheCommand, KindsAreRaisedByTheirCommands, ErrorsNameTheirCommand, WaitAndNoAckNeverSurface (E16): a
failure at the second call. -/
theorem witness_failure :
    outcome .rdDpidr (swdState [WAIT, failure]) =
      some (some (.err .probeSpecific ⟨some 0x0#4, some ⟨.dp, 0, 0x0#4, .main⟩⟩), [RD_DPIDR, WR_ABORT_10],
        (swdState []).ps) := by decide +kernel

/-- ErrorsNameTheirCommand (E11): an error at stage `FollowUp`. -/
theorem witness_followUp_error :
    outcome (.dapRd .ap 9 0x0#4) (swdState [OK, wordAnswer data12345678 false]) =
      some (some (.err .incorrectParity ⟨some 0x0#4, some ⟨.ap, 9, 0x0#4, .followUp⟩⟩), [RD_AP0, RD_RDBUFF],
        (swdState []).ps) := by decide +kernel

/-- ProbeStateChangesOnlyByItsCommands, EachRegisterHasItsWriter: instructions that change each register and the latches. -/
theorem witness_writers :
    outcome (.protoSel .jtag) (swdState [OK]) =
      some (some (.ok .unit), [.tpSelect .jtag], ⟨.jtag, 4000, 0, none⟩) ∧
    outcome (.speedSet 1) (swdState [OK]) =
      some (some (.ok (.speed 1)), [.tpSetSpeed 1], ⟨.swd, 1, 0, none⟩) ∧
    outcome (.jidleSet 255) (swdState []) = some (some (.ok .unit), [], ⟨.swd, 4000, 255, none⟩) ∧
    outcome .rstAssert (jtagState 0 (some 0x11#8) [OK]) =
      some (some (.ok .unit), [.tpReset .asserted], ⟨.jtag, 4000, 0, none⟩) ∧
    latches .clrOrun (swdState [OK]) ≠ some (swdState []).eng := by decide +kernel

/-- CacheRule: a value set, a value lost to a failure of the idle frame, a value kept by an error without a call. -/
theorem witness_cache :
    outcome (.jtagRd 0x01#8 5 1) (jtagState 1 none [sampled "00000000000", sampled "0", sampled "000100", failure]) =
      some (some (.err .probeSpecific ⟨some 0xC#4, none⟩), [jt "11000000110" "00001000000", jt "0" "0", jt "100110" "000000",
        jt "0" "0"], ⟨.jtag, 4000, 1, none⟩) ∧
    outcome (.jtagRd 0x01#8 9 1) (jtagState 1 (some 0x11#8) []) =
      some (some (.err .notImplemented ⟨some 0xC#4, none⟩), [], ⟨.jtag, 4000, 1, some 0x11#8⟩) := by decide +kernel

/-- SameAnswersSameTrace: two states that differ in every engine latch and in the trace, of one length. -/
theorem witness_same : (swdState [OK]).cfg = { swdState [OK] with eng := ⟨.done, 3, ⟨.ap, 1, .write, 4#4, 5#32⟩, true,
      ⟨true, true, true⟩, 7#32, true⟩ }.cfg ∧
    (swdState [OK]).wire.length = { swdState [OK] with resp := some .assert }.wire.length ∧
    { swdState [] with wire := [LRESET] }.wire.length = { swdState [] with wire := [RD_AP0] }.wire.length := by decide

/-- SameAnswersSameTrace: traces of two lengths, and a script of one whole answer for a command that makes one call. -/
theorem witness_same_scripted :
    (swdState [OK]).wire.length ≠ { swdState [OK] with wire := [LRESET] }.wire.length ∧
    (∃ t calls, exec (.clrOrun) (swdState [OK]) = .next t ∧ t.wire = (swdState [OK]).wire ++ calls ∧
      Scripted (swdState [OK]).env calls) := by
  refine ⟨by decide, _, [WR_ABORT_10], rfl, by decide +kernel, by decide, ?_⟩
  intro j a k ha hk
  cases j with
  | zero => cases ha; cases hk; exact .inr (by decide)
  | succ j => cases ha

/-- WriteInstructionRegister, DataRegisterAccess: with and without idle cycles, cached and not. -/
theorem witness_jtag_scripts :
    AllAnswered [OK, OK] ((irFrame 0x10#8 5).call :: idleCalls 2) ∧ AllAnswered [OK] ((irFrame 0x10#8 5).call :: idleCalls 0) ∧
    AllAnswered [] (irCalls (some 0x10#8) 2 0x10#8 5) ∧ AllAnswered [OK, OK] (irCalls (some 0x11#8) 2 0x10#8 5) ∧
    AllAnswered [OK] (idleCalls 255) ∧ OK.failed = false ∧ 1 + 5 ≤ OK.bits.length := by
  refine ⟨⟨by decide, by decide⟩, ⟨by decide, by decide⟩, ⟨by decide, by decide⟩, ⟨by decide, by decide⟩,
    ⟨by decide, by decide⟩, by decide, by decide⟩

/-- StepKeepsTheInvariant, ResetMeetsTheInvariant: a state with the invariant and a step from it. -/
theorem witness_inv : Config.default.wf = true ∧
    ((swdState []).present (.record { op := 0x4#4 })).Inv ∧
    step ((swdState []).present (.record { op := 0x4#4 })) =
      .next { swdState [] with resp := some (.ok (.proto .swd)) } :=
  ⟨by decide, ⟨by decide, rfl, rfl, rfl, fun _ => rfl, by decide, by decide, by decide, fun c hc => absurd hc (by simp [swdState, State.present, State.reset, State.resetWith])⟩, rfl⟩

/-- ResetValues. -/
theorem witness_reset : { jtagState 7 (some 0x10#8) [] with host := [.reset] }.host = [Input.reset] := by decide

/-- PseudoInstructionsAbbreviate. -/
theorem witness_default : (swdState []).cfg = .default := by decide

end Sys2Proof.Tests
end

section
/-! What the command port does with an input presented next: it takes the input off the queue, and the phase of the
engine says whether the presented thing runs (R81, R273). -/

namespace Sys2Proof.Proofs.Port

open Sys2Proof Sys2Proof.Machine

@[simp] theorem accept_of_host_cons {s : State} {i : Input} {rest : List Input} (hHost : s.host = i :: rest) :
    s.accept = some (i, { s with host := rest }) := by
  simp [State.accept, hHost]

/-- A step on a presented thing, the port open or closed. -/
theorem step_of_port {s : State} {p : Presented} {rest : List Input} (hHost : s.host = .port p :: rest) :
    step s = if s.eng.phase = .idle then exec (decode s.cfg p) { s with host := rest } else .fault .portClosed := by
  simp [step, accept_of_host_cons hHost]

/-- Settles O1: the port, open in `Idle`, hands the input's decoding to `exec` on the state without that input. -/
theorem stepRunsDecodedInstruction : Obligations.StepRunsDecodedInstruction := by
  intro s p rest hIdle hHost
  rw [step_of_port hHost, if_pos hIdle]

end Sys2Proof.Proofs.Port
end

section
/-! What the answer of `exec` says of the next state, for any instruction: `ExecDoes` of Laws/Commands.lean read off an
equation, and what it says of the trace in one piece. -/

namespace Sys2Proof.Proofs.Exec

open Sys2Proof Sys2Proof.Machine

theorem execDoes_of_next {i : Instr} {s t : State} (hExec : exec i s = .next t) : ExecDoes i s t := by
  obtain ⟨u, hu, hDoes⟩ := exec_does i s
  rw [hExec] at hu
  cases hu
  exact hDoes

/-- The inputs, the parameters and the trace after an instruction. -/
theorem trace_of_execDoes {i : Instr} {s t : State} (h : ExecDoes i s t) :
    ∃ calls, t.cfg = s.cfg ∧ t.host = s.host ∧ t.wire = s.wire ++ calls ∧ t.env = s.env.drop calls.length ∧
      ∀ k ∈ calls, k.Legal s.cfg := by
  obtain ⟨calls, _, hDoes, -⟩ := h.does
  exact ⟨calls, hDoes.cfg, hDoes.host, hDoes.wire, hDoes.env, hDoes.legal⟩

end Sys2Proof.Proofs.Exec
end

section
/-! The operands the port takes fit the widths of the configuration (R81, assumption log 5). -/

namespace Sys2Proof.Proofs.Fits

open Sys2Proof Sys2Proof.Machine

@[simp] theorem fieldBits_lt (bits n : Nat) : fieldBits bits n < 2 ^ bits := Nat.mod_lt _ (Nat.two_pow_pos bits)

theorem fits_decodeRecord (c : Config) (r : Record) : (decodeRecord c r).fits c = true := by
  unfold decodeRecord
  split <;> simp [Instr.fits]

theorem fits_encIrOf (c : Config) (v : BitVec 8) (len : Nat) : (encIrOf v len).fits c = true := by
  unfold encIrOf
  split <;> rfl

theorem fits_decode (c : Config) (p : Presented) : (decode c p).fits c = true := by
  cases p with
  | record r => exact fits_decodeRecord c r
  | named n =>
    cases n with
    | jtagEncIr v len => exact fits_encIrOf c v len
    | _ => rfl

/-- The index of the Transaction of an instruction that fits; a pseudo-instruction has index 0 (R84). -/
theorem txn_apidx_lt {c : Config} {i : Instr} {t : Txn} (hFits : i.fits c = true) (hTxn : i.txn? c = some t) :
    t.apidx < 2 ^ c.apidxBits := by
  cases i with
  | dapRd p x a => cases hTxn; simpa [Instr.fits] using hFits
  | dapWr p x a v => cases hTxn; simpa [Instr.fits] using hFits
  | _ => cases hTxn <;> exact Nat.two_pow_pos _

end Sys2Proof.Proofs.Fits
end

section
/-! The invariant of states between commands (R22, R23, R28, R31, R32, R224, R253): the reset comes to it, every
instruction that fits keeps it, hence every step does. -/

namespace Sys2Proof.Proofs.Invariant

open Sys2Proof Sys2Proof.Machine Sys2Proof.Proofs

/-- A step that takes the reset, in any phase (R270). -/
theorem step_of_reset {s : State} {rest : List Input} (hHost : s.host = .reset :: rest) :
    step s = .next { s with host := rest }.blockReset := by
  simp [step, Port.accept_of_host_cons hHost]

theorem step_of_no_input {s : State} (hHost : s.host = []) : step s = .next s := by
  simp [step, State.accept, hHost]

/-- The reset of the block comes to the invariant from any state whose calls so far are legal, whatever ran. -/
theorem inv_blockReset {s : State} (hWf : s.cfg.wf = true) (hCalls : ∀ k ∈ s.wire, k.Legal s.cfg) :
    s.blockReset.Inv where
  config := hWf
  idle := rfl
  attempt := rfl
  buffers := rfl
  cache _ := rfl
  speed := by
    obtain ⟨-, -, -, -, -, -, -, -, -, -, hSpeed, -⟩ := (Config.wf_iff s.cfg).1 hWf
    exact hSpeed
  idleCycles := Nat.two_pow_pos _
  index := Nat.two_pow_pos _
  calls := hCalls

/-- No field the invariant speaks of is the queue of inputs. -/
theorem inv_withHost {s : State} (h : s.Inv) (rest : List Input) : { s with host := rest }.Inv :=
  ⟨h.config, h.idle, h.attempt, h.buffers, h.cache, h.speed, h.idleCycles, h.index, h.calls⟩

/-- An instruction that leaves `Swd` selected leaves no cached value: a value is cached in `Jtag` alone, and selecting
a protocol invalidates the cache (R224). -/
theorem cache_none_of_exec {i : Instr} {s t : State} (hDoes : ExecDoes i s t)
    (hInv : s.ps.selectedProtocol = .swd → s.ps.currentIrRegister = none) (hSwd : t.ps.selectedProtocol = .swd) :
    t.ps.currentIrRegister = none := by
  rcases hDoes.protocol with hSame | ⟨hNone, -⟩
  · have hSwd' : s.ps.selectedProtocol = .swd := hSame ▸ hSwd
    rcases hDoes.cache with hKept | hNone | ⟨hJtag, -⟩
    · exact hKept.trans (hInv hSwd')
    · exact hNone
    · rw [hSwd'] at hJtag; cases hJtag
  · exact hNone

theorem exec_keeps_inv {i : Instr} {s t : State} (hInv : s.Inv) (hFits : i.fits s.cfg = true)
    (hExec : exec i s = .next t) : t.Inv := by
  have hDoes := Exec.execDoes_of_next hExec
  obtain ⟨calls, hCfg, -, hWire, -, hLegal⟩ := Exec.trace_of_execDoes hDoes
  constructor
  case config => rw [hCfg]; exact hInv.config
  case idle => exact hDoes.phase hInv.idle
  case attempt => exact hDoes.attempt hInv.attempt
  case buffers => exact hDoes.buf hInv.buffers
  case cache => exact cache_none_of_exec hDoes hInv.cache
  case speed =>
    rw [hCfg]
    rcases hDoes.speed with hSame | ⟨k, rfl, hAccept⟩
    · rw [hSame]; exact hInv.speed
    · exact speedAccept_lt hInv.config (of_decide_eq_true hFits) hAccept
  case idleCycles =>
    rw [hCfg]
    rcases hDoes.idleCycles with hSame | hSet
    · rw [hSame]; exact hInv.idleCycles
    · rw [hSet] at hFits; exact of_decide_eq_true hFits
  case index =>
    rw [hCfg]
    rcases hDoes.index with hSame | ⟨x, hTxn, hIndex⟩
    · rw [hSame]; exact hInv.index
    · rw [hIndex]; exact Fits.txn_apidx_lt hFits hTxn
  case calls =>
    rw [hWire, hCfg]
    exact List.forall_mem_append.2 ⟨hInv.calls, hLegal⟩

/-- Settles O58, along the three things a step can do: wait, take the reset, run what is presented. -/
theorem stepKeepsTheInvariant : Obligations.StepKeepsTheInvariant := by
  intro s t hInv hStep
  cases hHost : s.host with
  | nil =>
    rw [step_of_no_input hHost] at hStep
    cases hStep
    exact hInv
  | cons input rest =>
    cases input with
    | reset =>
      rw [step_of_reset hHost] at hStep
      cases hStep
      exact inv_blockReset hInv.config hInv.calls
    | port p =>
      rw [Port.step_of_port hHost, if_pos hInv.idle] at hStep
      exact exec_keeps_inv (inv_withHost hInv rest) (Fits.fits_decode s.cfg p) hStep

theorem blockReset_resetWith (c : Config) : (State.resetWith c).blockReset = State.resetWith c := rfl

/-- Settles O59: the state after power-on is the one a reset gives, with no call made. -/
theorem resetMeetsTheInvariant : Obligations.ResetMeetsTheInvariant := by
  intro c hWf
  rw [← blockReset_resetWith c]
  exact inv_blockReset hWf (fun _ hMem => absurd hMem List.not_mem_nil)

/-- Settles O60: a step that takes the reset comes to `State.blockReset`, which has the values of R40 by definition. -/
theorem resetValues : Obligations.ResetValues := by
  constructor
  · intro s rest hHost
    exact ⟨_, step_of_reset hHost, rfl, rfl, rfl, rfl, rfl, rfl, rfl, rfl, rfl⟩
  · exact blockReset_resetWith

end Sys2Proof.Proofs.Invariant
end

section
/-! An engine command as its operation: the outcome of a check that fails, or the end of `dap_access` (R183, R184). Its
calls are those of `dap_access`, and it leaves the probe state alone (R25, R170). -/

namespace Sys2Proof.Proofs.EngineCommand

open Sys2Proof Sys2Proof.Machine

/-- How an engine command ends: refused or stopped by its checks, or with its operation done. -/
def Ends (t : Txn) (s u : State) : Prop :=
  (∃ r, u = s.respond r) ∨ ∃ op r, u = endEngine op t r (dapAccess t s).2

theorem ends_dapRead (p : Port) (x : Nat) (a : BitVec 4) (s : State) :
    Ends ⟨p, x, .read, a, 0#32⟩ s (dapRead p x a s) := by
  unfold dapRead
  split
  · exact .inl ⟨_, rfl⟩
  split
  · exact .inl ⟨_, rfl⟩
  · exact .inr ⟨_, _, rfl⟩

theorem ends_dapWrite (p : Port) (x : Nat) (a : BitVec 4) (v : Word) (s : State) :
    Ends ⟨p, x, .write, a, v⟩ s (dapWrite p x a v s) := by
  unfold dapWrite
  split
  · exact .inl ⟨_, rfl⟩
  split
  · exact .inl ⟨_, rfl⟩
  · exact .inr ⟨_, _, rfl⟩

/-- An instruction with a Transaction is the engine command of it (R84). -/
theorem exec_ends {i : Instr} {s : State} {t : Txn} (hTxn : i.txn? s.cfg = some t) :
    ∃ u, exec i s = .next u ∧ Ends t s u := by
  rcases engine_cases hTxn with ⟨p, x, a, rfl, -, -, hExec⟩ | ⟨p, x, a, v, rfl, -, -, hExec⟩
  · exact ⟨_, hExec s rfl, ends_dapRead p x a s⟩
  · exact ⟨_, hExec s rfl, ends_dapWrite p x a v s⟩

theorem Ends.ps {t : Txn} {s u : State} (h : Ends t s u) : u.ps = s.ps := by
  rcases h with ⟨r, rfl⟩ | ⟨op, r, rfl⟩
  · rfl
  · rw [endEngine_ps, (dapAccess_does t s).ps]

theorem Ends.calls {t : Txn} {s u : State} (h : Ends t s u) :
    ∃ calls, u.wire = s.wire ++ calls ∧ ∀ k ∈ calls, EngineCall s.cfg t k := by
  rcases h with ⟨r, rfl⟩ | ⟨op, r, rfl⟩
  · exact ⟨[], by simp⟩
  · obtain ⟨calls, hDoes, -⟩ := (dapAccess_does t s).does
    exact ⟨calls, by rw [endEngine_wire, hDoes.wire], hDoes.legal⟩

/-- Settles O40: the calls of an engine command are those of its `dap_access`, none where a check stops it. -/
theorem engineSendsOnlyItsFrames : Obligations.EngineSendsOnlyItsFrames := by
  intro i s t hTxn
  obtain ⟨u, hExec, hEnds⟩ := exec_ends hTxn
  obtain ⟨calls, hWire, hCalls⟩ := hEnds.calls
  exact ⟨u, calls, hExec, hWire, hCalls⟩

end Sys2Proof.Proofs.EngineCommand
end

section
/-! A codec function called by itself gives an outcome and changes nothing else (R130, R155). -/

namespace Sys2Proof.Proofs.CodecFunction

open Sys2Proof Sys2Proof.Machine

theorem giveValue_eq_respond (s : State) (v : Option Value) : ∃ r, s.giveValue v = s.respond r := by
  cases v with
  | none => exact ⟨_, rfl⟩
  | some v => exact ⟨_, rfl⟩

theorem giveEncIr_eq_respond (v : BitVec 8) (len : Nat) (s : State) : ∃ r, giveEncIr v len s = s.respond r := by
  unfold giveEncIr
  rcases encIrValue v len with (k | _) | value
  · exact ⟨_, rfl⟩
  · exact ⟨_, rfl⟩
  · exact ⟨_, rfl⟩

/-- What has no opcode is a codec function (R80). -/
theorem exec_eq_respond {i : Instr} (hCodec : i.opcode = none) (s : State) : ∃ r, exec i s = .next (s.respond r) := by
  have hNext {u : State} (h : ∃ r, u = s.respond r) :
      ∃ r, Host.Outcome.next (φ := Fault) (ρ := Refusal) u = .next (s.respond r) := h.imp fun _ => congrArg _
  cases i with
  | jtagEncIrLen1 v => exact hNext (giveEncIr_eq_respond v 1 s)
  | jtagEncIrLen2 v => exact hNext (giveEncIr_eq_respond v 2 s)
  | jtagEncIrLen3 v => exact hNext (giveEncIr_eq_respond v 3 s)
  | jtagEncIrLen4 v => exact hNext (giveEncIr_eq_respond v 4 s)
  | jtagEncIrLen5 v => exact hNext (giveEncIr_eq_respond v 5 s)
  | jtagEncIrLen6 v => exact hNext (giveEncIr_eq_respond v 6 s)
  | jtagEncIrLen7 v => exact hNext (giveEncIr_eq_respond v 7 s)
  | jtagEncIrLen8 v => exact hNext (giveEncIr_eq_respond v 8 s)
  | jtagEncIrLen0 v => exact hNext (giveEncIr_eq_respond v 0 s)
  | jtagEncIrLong v excess => exact hNext (giveEncIr_eq_respond v (excess + 9) s)
  | swdHdr | swdEncWrite | swdEncRead | swdDecAck | swdDecRead | swdDecWrite | swdEncLineReset | swdPar32 | mkSeq
  | jtagEncDr | jtagDecDr | jtagEncIdle | unpackBits | packBits => exact hNext (giveValue_eq_respond s _)
  | _ => cases hCodec

end Sys2Proof.Proofs.CodecFunction
end

section
/-! Who writes which register (R21 to R25, R28 to R30, R224). -/

namespace Sys2Proof.Proofs.Writers

open Sys2Proof Sys2Proof.Machine Sys2Proof.Proofs

theorem lrst_keeps_ps {s t : State} (hExec : exec .lrst s = .next t) : t.ps = s.ps := by
  have hEq := Host.Outcome.next.inj hExec
  subst hEq
  split
  · rfl
  · obtain ⟨-, hPs, -⟩ := lineReset_does s
    rw [State.conclude_ps, hPs]

theorem codec_keeps_ps {i : Instr} {s t : State} (hCodec : i.opcode = none) (hExec : exec i s = .next t) :
    t.ps = s.ps := by
  obtain ⟨r, hRespond⟩ := CodecFunction.exec_eq_respond hCodec s
  rw [hRespond] at hExec
  cases hExec
  rfl

theorem engine_keeps_ps {i : Instr} {s t : State} {x : Txn} (hTxn : i.txn? s.cfg = some x)
    (hExec : exec i s = .next t) : t.ps = s.ps := by
  obtain ⟨u, hu, hEnds⟩ := EngineCommand.exec_ends hTxn
  rw [hu] at hExec
  cases hExec
  exact hEnds.ps

/-- Settles O49, by the three levels of R80: an engine command or its abbreviation leaves the probe state alone, a codec
function too; of the commands of 43_probe_state.md so do `LRST`, those that read only and the reserved opcodes. -/
theorem probeStateChangesOnlyByItsCommands : Obligations.ProbeStateChangesOnlyByItsCommands := by
  intro i s t hExec hChanged
  cases i with
  | protoSel | speedSet | jidleSet | rstAssert | rstDeassert | attach | jtagWir | jtagRd | jtagWr => simp
  | lrst => exact absurd (lrst_keeps_ps hExec) hChanged
  | protoGet | speedGet | reservedE | reservedF => cases hExec; exact absurd rfl hChanged
  | dapRd | dapWr | rdDpidr | wrAbort | rdCtrlstat | wrCtrlstat | rdRdbuff | clrOrun | clrStkerr =>
    exact absurd (engine_keeps_ps rfl hExec) hChanged
  | _ => exact absurd (codec_keeps_ps rfl hExec) hChanged

theorem speedSet_keeps_cache {k : Nat} {s t : State} (hExec : exec (.speedSet k) s = .next t) :
    t.ps.currentIrRegister = s.ps.currentIrRegister := by
  cases hExec
  split <;> rfl

theorem jidleSet_keeps_cache {n : Nat} {s t : State} (hExec : exec (.jidleSet n) s = .next t) :
    t.ps.currentIrRegister = s.ps.currentIrRegister := by
  cases hExec
  rfl

/-- Of the commands that change a probe-state register, setting the speed and the idle count change another one. -/
theorem writer_of_cache_changed {i : Instr} {s t : State} (hExec : exec i s = .next t)
    (hChanged : t.ps.currentIrRegister ≠ s.ps.currentIrRegister) :
    (∃ p, i = .protoSel p) ∨ i = .rstAssert ∨ i = .rstDeassert ∨ i = .attach ∨ (∃ v l, i = .jtagWir v l) ∨
      (∃ v l n, i = .jtagRd v l n) ∨ ∃ v l n d, i = .jtagWr v l n d := by
  rcases probeStateChangesOnlyByItsCommands i s t hExec (fun h => hChanged (congrArg _ h)) with
    hSel | ⟨k, rfl⟩ | ⟨n, rfl⟩ | hOther
  · exact .inl hSel
  · exact absurd (speedSet_keeps_cache hExec) hChanged
  · exact absurd (jidleSet_keeps_cache hExec) hChanged
  · exact .inr hOther

/-- Settles O50: four of the five clauses are those of `ExecDoes`, read as what a change of a register says. -/
theorem eachRegisterHasItsWriter : Obligations.EachRegisterHasItsWriter := by
  intro i s t hExec
  have hDoes := Exec.execDoes_of_next hExec
  refine ⟨fun hChanged => ?_, fun hChanged => ?_, fun hChanged => ?_, writer_of_cache_changed hExec, fun hChanged => ?_⟩
  · obtain ⟨-, hSel⟩ := hDoes.protocol.resolve_left hChanged
    exact hSel
  · exact hDoes.speed.resolve_left hChanged
  · exact hDoes.idleCycles.resolve_left hChanged
  · exact Option.ne_none_iff_exists'.1 fun hNone => hChanged (hDoes.eng hNone)

end Sys2Proof.Proofs.Writers
end

section
/-! Every call the block may make has two vectors of one length (R93, R105, R128). -/

namespace Sys2Proof.Proofs.FrameLengths

open Sys2Proof Sys2Proof.Machine

theorem length_swdEncLineReset (c : Config) : (swdEncLineReset c).io.length = (swdEncLineReset c).dir.length := by
  simp [swdEncLineReset]

theorem length_requestFrame {c : Config} {p : Port} {d : Dir} {a : BitVec 4} {v : Word} {q : Seq}
    (hFrame : requestFrame c p d a v = some q) : q.io.length = q.dir.length := by
  cases d with
  | read =>
    rw [requestFrame, swdEncRead_eq] at hFrame
    split at hFrame
    · cases hFrame; simp [length_headerBits]
    · cases hFrame
  | write =>
    rw [requestFrame, swdEncWrite_eq] at hFrame
    split at hFrame
    · cases hFrame; simp [length_headerBits]; omega
    · cases hFrame

theorem length_jtagEncIr {v : BitVec 8} {len : Nat} {q : JSeq} (hFrame : jtagEncIr v len = .ok q) :
    q.tms.length = q.tdi.length := by
  cases len with
  | zero => cases hFrame
  | succ n =>
    unfold jtagEncIr at hFrame
    split at hFrame
    · cases hFrame
    · cases hFrame; simp [irFrame]

theorem length_jtagEncDr {c : Config} {bytes : List Byte} {n : Nat} {q : JSeq}
    (hFrame : jtagEncDr c bytes n = some q) : q.tms.length = q.tdi.length := by
  obtain ⟨hContract, -, rfl⟩ := (jtagEncDr_eq_some_iff c bytes n q).1 hFrame
  obtain ⟨hPos, -⟩ := (drContract_iff c n).1 hContract
  simp [drFrame]
  omega

theorem length_jtagEncIdle {n : Nat} {q : JSeq} (hFrame : jtagEncIdle n = some q) : q.tms.length = q.tdi.length := by
  unfold jtagEncIdle at hFrame
  split at hFrame
  · cases hFrame; rfl
  · cases hFrame

theorem sameLength_of_legal {c : Config} {k : Call} (hLegal : k.Legal c) : k.sameLength = true := by
  cases k with
  | swdIo io dir =>
    refine beq_iff_eq.2 ?_
    rcases hLegal with hReset | ⟨p, d, a, v, hFrame⟩
    · have := length_swdEncLineReset c
      rwa [← hReset] at this
    · exact length_requestFrame hFrame
  | jtagIo tms tdi =>
    refine beq_iff_eq.2 ?_
    rcases hLegal with ⟨v, len, hFrame⟩ | ⟨bytes, n, hFrame⟩ | ⟨n, hFrame⟩
    · exact length_jtagEncIr hFrame
    · exact length_jtagEncDr hFrame
    · exact length_jtagEncIdle hFrame
  | tpSelect p => rfl
  | tpSetSpeed k => rfl
  | tpReset level => rfl

/-- Settles O52: `exec` answers what `ExecDoes` says, and the calls it makes are legal. -/
theorem everyInstructionEndsWithAnOutcome : Obligations.EveryInstructionEndsWithAnOutcome := by
  intro i s
  obtain ⟨t, hExec, hDoes⟩ := exec_does i s
  obtain ⟨r, hResp⟩ := hDoes.responds
  obtain ⟨calls, hCfg, hHost, hWire, hEnv, hLegal⟩ := Exec.trace_of_execDoes hDoes
  exact ⟨t, r, calls, hExec, hResp, hDoes.phase, hDoes.attempt, hCfg, hHost, hWire, hEnv,
    fun k hMem => sameLength_of_legal (hLegal k hMem)⟩

end Sys2Proof.Proofs.FrameLengths
end

section
/-! The ABORT words of the engine (R34, R103) and the recovery of class `Fault` that picks one (R35, R179). -/

namespace Sys2Proof.Proofs.Abort

open Sys2Proof Sys2Proof.Machine

theorem getLsbD_abortWord (c : Config) (orun serr : Bool) (i : Nat) :
    (abortWord c orun serr).getLsbD i =
      ((orun && (decide (c.bitOrunerrclr < 32) && decide (c.bitOrunerrclr = i))) ||
        (serr && (decide (c.bitStkerrclr < 32) && decide (c.bitStkerrclr = i)))) := by
  have hOne (n : Nat) : (1#32 <<< n).getLsbD i = (decide (n < 32) && decide (n = i)) := BitVec.getLsbD_twoPow n i
  cases orun <;> cases serr <;> simp [abortWord, hOne]

/-- With bits of its own for each flag, the word holds the two flags and nothing else (R34). -/
theorem abortWord_bits {c : Config} (orun serr : Bool) (hWf : c.wf = true) (hNe : c.bitOrunerrclr ≠ c.bitStkerrclr) :
    (abortWord c orun serr).getLsbD c.bitOrunerrclr = orun ∧ (abortWord c orun serr).getLsbD c.bitStkerrclr = serr ∧
    ∀ i, i < 32 → i ≠ c.bitOrunerrclr → i ≠ c.bitStkerrclr → (abortWord c orun serr).getLsbD i = false := by
  obtain ⟨-, -, -, -, -, -, hStk, hOrun, -⟩ := (Config.wf_iff c).1 hWf
  refine ⟨?_, ?_, fun i _ hi hj => ?_⟩
  · rw [getLsbD_abortWord]; simp [hOrun, hNe.symm]
  · rw [getLsbD_abortWord]; simp [hStk, hNe]
  · rw [getLsbD_abortWord]; simp [hi.symm, hj.symm]

/-- The ABORT write of a recovery, whatever it is answered: it fails with its transport call and its acknowledgement
is not looked at (R180). -/
theorem abortWrite_answered {s : State} {w : Word} {b : Answer} {rest : List Answer} {q : Seq}
    (hFrame : requestFrame s.cfg .dp .write s.cfg.addrAbort w = some q) (hEnv : s.env = b :: rest) :
    ∃ u, abortWrite w s = (if b.failed then .error (.raise .probeSpecific) else .ok (), u) ∧
      After s u [q.call] rest := by
  cases hFailed : b.failed with
  | false =>
    obtain ⟨u, hWrite, hAfter, -⟩ := abortWrite_script hFrame hEnv hFailed
    exact ⟨u, hWrite, hAfter⟩
  | true =>
    have hNone := (sample_eq_none_iff b s.wire.length q.io.length).2 hFailed
    refine ⟨(s.called q.call).release, ?_, ?_⟩
    · rw [abortWrite, swdFrame_eq hFrame, State.answer_of_env hEnv, hNone]
      rfl
    · constructor <;> simp [hEnv]

/-- A CTRL/STAT word of right parity with a flag set: the recovery goes on with the ABORT write of its two flags, in
the state that has latched the word (R179). -/
theorem recoverFault_of_sticky {s : State} {c : Seq} {cs : Answer} {rest : List Answer} {w : Word}
    (hFrame : requestFrame s.cfg .dp .read s.cfg.addrCtrlstat 0#32 = some c) (hEnv : s.env = cs :: rest)
    (hWord : cs.GivesWord s.cfg w (swdPar32 w)) (hSet : stickyOrun s.cfg w = true ∨ stickyErr s.cfg w = true) :
    recoverFault s = abortWrite (abortWord s.cfg (stickyOrun s.cfg w) (stickyErr s.cfg w))
      ((s.called c.call).latch .read cs.bits).release := by
  obtain ⟨hOk, hData, hPar⟩ := hWord
  have hParity : ((s.called c.call).latch .read cs.bits).eng.parityOk = true := by
    simp [Engine.parityOk, hData, hPar]
  have hFlags : ¬ (stickyOrun s.cfg w = false ∧ stickyErr s.cfg w = false) := by
    rintro ⟨hOrun, hErr⟩
    simp [hOrun, hErr] at hSet
  rw [recoverFault, swdFrame_script hFrame hEnv hOk]
  simp [hParity, hData, hFlags]

/-- Settles O39: the fixed words by evaluation, the bits of a word in general, and the two calls of the recovery. -/
theorem abortWords : Obligations.AbortWords := by
  refine ⟨by decide, by decide, by decide, by decide, by decide, by decide, fun _ => ⟨rfl, rfl⟩,
    fun _ _ => ⟨rfl, rfl⟩, fun c orun serr hWf hNe => abortWord_bits orun serr hWf hNe, ?_⟩
  intro s cs b rest w hWf hEnv hWord hSet
  obtain ⟨c, hRead⟩ := ctrlstatFrame_exists hWf
  obtain ⟨q, hWrite⟩ := abortFrame_exists hWf (abortWord s.cfg (stickyOrun s.cfg w) (stickyErr s.cfg w))
  obtain ⟨hLatched, -⟩ := frame_after (q := c) (d := .read) (bits := cs.bits) hEnv
  obtain ⟨t, hAbort, hAborted⟩ := abortWrite_answered (by rw [hLatched.cfg]; exact hWrite) hLatched.env
  have hAfter := hLatched.trans hAborted
  exact ⟨c, q, t, hRead, hWrite, (recoverFault_of_sticky hRead hEnv hWord hSet).trans hAbort, hAfter.wire, hAfter.env,
    hAfter.ps⟩

end Sys2Proof.Proofs.Abort
end

section
/-! Two runs of one instruction from states that differ only in what no procedure reads: the engine latches, the buffers,
the inputs still to come, the response port, and the trace but for its length (R69, R28 to R31). -/

namespace Sys2Proof.Proofs.SameRuns

open Sys2Proof Sys2Proof.Machine

/-- What `i` does from `s`, numbered as from `u`, it does from `u`. -/
def SameFrom (i : Instr) (s u : State) : Prop :=
  ∀ t, exec i s = .next t → Numbered s u t → ∃ w, exec i u = .next w ∧ SameOutcome s u t w

theorem sameFrom_of_next {i : Instr} {s u t w : State} (hs : exec i s = .next t) (hu : exec i u = .next w)
    (hSame : Numbered s u t → SameOutcome s u t w) : SameFrom i s u := by
  intro t' ht' hNum
  rw [hs] at ht'
  cases ht'
  exact ⟨w, hu, hSame hNum⟩

/-- An engine command and its abbreviations (R84): the same Transaction in both runs, the configuration being one. -/
theorem engine_sameFrom {i : Instr} {s u : State} {x : Txn} (h : Alike s u) (hTxn : i.txn? s.cfg = some x) :
    SameFrom i s u := by
  rcases engine_cases hTxn with ⟨p, x, a, -, -, -, hExec⟩ | ⟨p, x, a, v, -, -, -, hExec⟩
  · exact sameFrom_of_next (hExec s rfl) (hExec u h.cfg.symm) (dapRead_alike h p x a)
  · exact sameFrom_of_next (hExec s rfl) (hExec u h.cfg.symm) (dapWrite_alike h p x a v)

theorem lrst_sameFrom {s u : State} (h : Alike s u) : SameFrom .lrst s u := by
  refine sameFrom_of_next rfl rfl fun hNum => ?_
  rw [← h.ps]
  split
  · exact .respond h _
  next hSwd =>
  rw [if_neg hSwd] at hNum
  exact lineReset_conclude_alike h 0x2#4 hNum

/-- A transport call after the cache has been set to `NONE` (R210, R215, R216). -/
theorem callThen_setIr_alike {s u : State} (h : Alike s u) (op : BitVec 4) (c : Call) (f : State → State)
    (hPs : ∀ s u : State, s.ps = u.ps → (f s).ps = (f u).ps) (hWire : ∀ s, (f s).wire = s.wire)
    (hEnv : ∀ s, (f s).env = s.env) (hNum : Numbered s u (callThen op c (s.setIr none) f)) :
    SameOutcome s u (callThen op c (s.setIr none) f) (callThen op c (u.setIr none) f) :=
  (callThen_alike (h.setIr none) op c f hPs hWire hEnv hNum).of rfl rfl

theorem protoSel_sameFrom {s u : State} (h : Alike s u) (p : Protocol) : SameFrom (.protoSel p) s u := by
  refine sameFrom_of_next rfl rfl fun hNum => ?_
  rw [← h.cfg]
  split
  · exact .respond h _
  next hSupported =>
  rw [if_neg hSupported] at hNum
  exact callThen_setIr_alike h 0x3#4 _ _ (fun _ _ hPs => by simp [hPs]) (fun _ => rfl) (fun _ => rfl) hNum

theorem attach_sameFrom {s u : State} (h : Alike s u) : SameFrom .attach s u := by
  have hSame {t w : State} (hs : SameOutcome (s.setIr none) (u.setIr none) t w) : SameOutcome s u t w := hs.of rfl rfl
  refine sameFrom_of_next rfl rfl fun hNum => ?_
  simp only [State.setIr_ps, ← h.ps] at hNum ⊢
  cases hProto : s.ps.selectedProtocol with
  | swd =>
    rw [hProto] at hNum
    exact hSame (lineReset_conclude_alike (h.setIr none) 0xA#4 hNum)
  | jtag => exact hSame (.respond (h.setIr none) _)

theorem speedSet_sameFrom {s u : State} (h : Alike s u) (k : Nat) : SameFrom (.speedSet k) s u := by
  intro t hExec hNum
  have hWire : t.wire = s.wire ++ [.tpSetSpeed k] := by
    cases hExec
    split <;> rfl
  have hAnswer : s.speedAnswer k = u.speedAnswer k := by
    unfold State.speedAnswer
    rw [(hNum.answer h hWire).1, h.cfg]
  cases hExec
  refine ⟨_, rfl, ?_⟩
  rw [← hAnswer]
  have hEnv : s.env.tail = u.env.tail := congrArg _ h.env
  split
  · exact ⟨[.tpSetSpeed k], rfl, rfl, rfl, h.ps, hEnv⟩
  · exact ⟨[.tpSetSpeed k], rfl, rfl, rfl, h.ps, hEnv⟩
  · exact ⟨[.tpSetSpeed k], rfl, rfl, rfl, by simp [h.ps], hEnv⟩

theorem jidleSet_sameFrom {s u : State} (h : Alike s u) (n : Nat) : SameFrom (.jidleSet n) s u :=
  sameFrom_of_next rfl rfl fun _ => ⟨[], by simp, by simp, rfl, by simp [h.ps], h.env⟩

/-- The outcome of a command whose procedure came to one result in both runs. -/
theorem conclude_result_alike {α : Type} {s u : State} {x y : α × State} (hRun : SameRun s u x y)
    (hAlike : Alike x.2 y.2) (info : Info) (value : α → Except Exit Value) :
    SameOutcome s u (x.2.conclude info (value x.1)) (y.2.conclude info (value y.1)) := by
  rw [← hRun.result]
  exact .conclude hRun hAlike rfl

theorem jtagWir_sameFrom {s u : State} (h : Alike s u) (v : BitVec 8) (len : Nat) :
    SameFrom (.jtagWir v len) s u := by
  refine sameFrom_of_next rfl rfl (jtagChecked_alike h rfl fun hNum => ?_)
  obtain ⟨hRun, hAlike⟩ := (ensureIr_alike h v len).1 (hNum.congr (by simp))
  exact conclude_result_alike hRun hAlike _ unitValue

/-- The end of the two data-register commands (R219, R220). -/
theorem jtagAccess_conclude_alike {s u : State} (h : Alike s u) (op : BitVec 4) (v : BitVec 8) (len : Nat)
    (bytes : List Byte) (n : Nat)
    (hNum : Numbered s u
      ((jtagAccess v len bytes n s).2.conclude (opInfo op) (bytesValue (jtagAccess v len bytes n s).1))) :
    SameOutcome s u ((jtagAccess v len bytes n s).2.conclude (opInfo op) (bytesValue (jtagAccess v len bytes n s).1))
      ((jtagAccess v len bytes n u).2.conclude (opInfo op) (bytesValue (jtagAccess v len bytes n u).1)) := by
  obtain ⟨hRun, hAlike⟩ := jtagAccess_alike h v len bytes n (hNum.congr (by simp))
  exact conclude_result_alike hRun hAlike _ bytesValue

theorem jtagRd_sameFrom {s u : State} (h : Alike s u) (v : BitVec 8) (len n : Nat) :
    SameFrom (.jtagRd v len n) s u :=
  sameFrom_of_next rfl rfl
    (jtagChecked_alike h (by rw [h.cfg]) (jtagAccess_conclude_alike h 0xC#4 v len (zeroBytes n) n))

theorem jtagWr_sameFrom {s u : State} (h : Alike s u) (v : BitVec 8) (len n : Nat) (data : List Byte) :
    SameFrom (.jtagWr v len n data) s u :=
  sameFrom_of_next rfl rfl
    (jtagChecked_alike h (by rw [h.cfg]) (jtagAccess_conclude_alike h 0xD#4 v len data n))

/-- A codec function reads the configuration and nothing else of the state (R130, R155). -/
theorem codec_sameFrom {i : Instr} {s u : State} (h : Alike s u) (hCodec : i.opcode = none) :
    SameFrom i s u := by
  have hIr (v : BitVec 8) (len : Nat) {i : Instr} (hi : ∀ s, exec i s = .next (giveEncIr v len s)) : SameFrom i s u :=
    sameFrom_of_next (hi s) (hi u) fun _ => giveEncIr_alike h v len
  cases i with
  | jtagEncIrLen1 v => exact hIr v 1 fun _ => rfl
  | jtagEncIrLen2 v => exact hIr v 2 fun _ => rfl
  | jtagEncIrLen3 v => exact hIr v 3 fun _ => rfl
  | jtagEncIrLen4 v => exact hIr v 4 fun _ => rfl
  | jtagEncIrLen5 v => exact hIr v 5 fun _ => rfl
  | jtagEncIrLen6 v => exact hIr v 6 fun _ => rfl
  | jtagEncIrLen7 v => exact hIr v 7 fun _ => rfl
  | jtagEncIrLen8 v => exact hIr v 8 fun _ => rfl
  | jtagEncIrLen0 v => exact hIr v 0 fun _ => rfl
  | jtagEncIrLong v excess => exact hIr v (excess + 9) fun _ => rfl
  | swdHdr | swdPar32 | mkSeq | jtagDecDr | jtagEncIdle | unpackBits | packBits =>
    exact sameFrom_of_next rfl rfl fun _ => giveValue_alike h rfl
  | swdEncWrite | swdEncRead | swdDecAck | swdDecRead | swdDecWrite | swdEncLineReset | jtagEncDr =>
    exact sameFrom_of_next rfl rfl fun _ => giveValue_alike h (by rw [h.cfg])
  | _ => cases hCodec

theorem exec_sameFrom {s u : State} (h : Alike s u) (i : Instr) : SameFrom i s u := by
  cases i with
  | dapRd | dapWr | rdDpidr | wrAbort | rdCtrlstat | wrCtrlstat | rdRdbuff | clrOrun | clrStkerr =>
    exact engine_sameFrom h rfl
  | lrst => exact lrst_sameFrom h
  | protoSel p => exact protoSel_sameFrom h p
  | protoGet => exact sameFrom_of_next rfl rfl fun _ => h.ps ▸ .respond h _
  | speedGet => exact sameFrom_of_next rfl rfl fun _ => h.ps ▸ .respond h _
  | speedSet k => exact speedSet_sameFrom h k
  | jidleSet n => exact jidleSet_sameFrom h n
  | rstAssert | rstDeassert =>
    exact sameFrom_of_next rfl rfl (callThen_setIr_alike h _ _ id (fun _ _ => id) (fun _ => rfl) (fun _ => rfl))
  | attach => exact attach_sameFrom h
  | jtagWir v len => exact jtagWir_sameFrom h v len
  | jtagRd v len n => exact jtagRd_sameFrom h v len n
  | jtagWr v len n data => exact jtagWr_sameFrom h v len n data
  | reservedE | reservedF => exact sameFrom_of_next rfl rfl fun _ => .respond h .assert
  | _ => exact codec_sameFrom h rfl

/-- Settles O53: what the statement says of the traces is that the run is numbered alike from both states, and every
instruction does from alike states the same. -/
theorem sameAnswersSameTrace : Obligations.SameAnswersSameTrace := by
  intro i s u hCfg hPs hEnv hTraces
  obtain ⟨t, hExec, -⟩ := exec_does i s
  have hNum : Numbered s u t := by
    refine hTraces.imp_right ?_
    rintro ⟨t', calls, hExec', hWire, hScript⟩
    rw [hExec] at hExec'
    cases hExec'
    exact ⟨calls, hWire, hScript⟩
  obtain ⟨w, hExec', calls, hSame⟩ := exec_sameFrom ⟨hCfg, hPs, hEnv⟩ i t hExec hNum
  exact ⟨t, w, calls, hExec, hExec', hSame⟩

end Sys2Proof.Proofs.SameRuns
end

section
/-! Two runs of one engine command from one state that differ in the Access Port index alone (R52). -/

namespace Sys2Proof.Proofs.AccessPortIndex

open Sys2Proof Sys2Proof.Machine

/-- The same calls, answers left, probe state and outcome, but for the index an error names: `x` in `t`, `y` in `u`. -/
structure SameButIndex (port : Port) (addr : BitVec 4) (x y : Nat) (t u : State) : Prop where
  wire : t.wire = u.wire
  env : t.env = u.env
  ps : t.ps = u.ps
  resp : t.resp = u.resp ∨ ∃ k op stage, t.resp = some (.err k ⟨op, some ⟨port, x, addr, stage⟩⟩) ∧
    u.resp = some (.err k ⟨op, some ⟨port, y, addr, stage⟩⟩)

theorem sameButIndex_refl (port : Port) (addr : BitVec 4) (x y : Nat) (t : State) : SameButIndex port addr x y t t :=
  ⟨rfl, rfl, rfl, .inl rfl⟩

/-- The protocol gate names the index (R189, R223). -/
theorem raise_sameButIndex (port : Port) (addr : BitVec 4) (x y : Nat) (s : State) (k : ErrKind) (op : BitVec 4)
    (stage : Stage) : SameButIndex port addr x y (s.raise k (dapInfo op port x addr stage))
      (s.raise k (dapInfo op port y addr stage)) :=
  ⟨rfl, rfl, rfl, .inr ⟨k, some op, stage, rfl, rfl⟩⟩

/-- Of an operation's result only an error shows the Transaction, and that shows the stage both runs are in. -/
theorem endEngine_sameButIndex {port : Port} {addr : BitVec 4} {x y : Nat} {dir : Dir} {v : Word} {op : BitVec 4}
    {r : Except Exit Value} {t u : State} (hWire : t.wire = u.wire) (hAlike : AlikeTxn t u) :
    SameButIndex port addr x y (endEngine op ⟨port, x, dir, addr, v⟩ r t) (endEngine op ⟨port, y, dir, addr, v⟩ r u) := by
  refine ⟨by simp [hWire], by simp [hAlike.env], by simp [hAlike.ps], ?_⟩
  unfold endEngine
  rw [← hAlike.followup]
  rcases r with (k | _) | value
  · exact .inr ⟨k, some op, _, rfl, rfl⟩
  · exact .inl rfl
  · exact .inl rfl

/-- The engine's operation and its end: the result, the calls and the latches the end reads do not show the index. -/
theorem dapAccess_sameButIndex (port : Port) (x y : Nat) (dir : Dir) (addr : BitVec 4) (v : Word) (op : BitVec 4)
    (value : Except Exit Word → Except Exit Value) (s : State) :
    SameButIndex port addr x y
      (endEngine op ⟨port, x, dir, addr, v⟩ (value (dapAccess ⟨port, x, dir, addr, v⟩ s).1)
        (dapAccess ⟨port, x, dir, addr, v⟩ s).2)
      (endEngine op ⟨port, y, dir, addr, v⟩ (value (dapAccess ⟨port, y, dir, addr, v⟩ s).1)
        (dapAccess ⟨port, y, dir, addr, v⟩ s).2) := by
  obtain ⟨hRun, hAlike⟩ := dapAccess_alike (s := s) (u := s) ⟨rfl, rfl, rfl⟩ (t := ⟨port, x, dir, addr, v⟩)
    (t' := ⟨port, y, dir, addr, v⟩) rfl rfl rfl rfl (.inl rfl)
  obtain ⟨calls, hx, hy⟩ := hRun.calls
  rw [← hRun.result]
  exact endEngine_sameButIndex (hx.trans hy.symm) hAlike

theorem dapRead_sameButIndex (port : Port) (x y : Nat) (addr : BitVec 4) (s : State) :
    SameButIndex port addr x y (dapRead port x addr s) (dapRead port y addr s) := by
  unfold dapRead
  split
  · exact sameButIndex_refl ..
  split
  · exact raise_sameButIndex ..
  · exact dapAccess_sameButIndex ..

theorem dapWrite_sameButIndex (port : Port) (x y : Nat) (addr : BitVec 4) (v : Word) (s : State) :
    SameButIndex port addr x y (dapWrite port x addr v s) (dapWrite port y addr v s) := by
  unfold dapWrite
  split
  · exact sameButIndex_refl ..
  split
  · exact raise_sameButIndex ..
  · exact dapAccess_sameButIndex ..

/-- Settles O54: a read and a write each run the same operation under both indices. -/
theorem accessPortIndexIsNeverSent : Obligations.AccessPortIndexIsNeverSent := by
  intro s port x y addr v i j hInstr
  rcases hInstr with ⟨rfl, rfl⟩ | ⟨rfl, rfl⟩
  · obtain ⟨hWire, hEnv, hPs, hResp⟩ := dapRead_sameButIndex port x y addr s
    exact ⟨_, _, rfl, rfl, hWire, hEnv, hPs, hResp⟩
  · obtain ⟨hWire, hEnv, hPs, hResp⟩ := dapWrite_sameButIndex port x y addr v s
    exact ⟨_, _, rfl, rfl, hWire, hEnv, hPs, hResp⟩

end Sys2Proof.Proofs.AccessPortIndex
end

section
/-! The command port's encodings: every instruction read back from the record or the call it is presented as (R80 to
R84), and what each opcode of a record selects (R82, R85). -/

namespace Sys2Proof.Proofs.Encoding

open Sys2Proof Sys2Proof.Machine Sys2Proof.Proofs

@[simp] theorem portOfBit_bitOfPort (p : Port) : portOfBit (bitOfPort p) = p := by cases p <;> rfl

@[simp] theorem protoOfBit_bitOfProto (p : Protocol) : protoOfBit (bitOfProto p) = p := by cases p <;> rfl

/-- A value that fits its field is all of the field's bits (assumption log 5). -/
theorem fieldBits_of_lt {bits n : Nat} (hLt : n < 2 ^ bits) : fieldBits bits n = n := Nat.mod_eq_of_lt hLt

/-- The operands with a bit encoding or a field of a parameter's width are read back by the lemmas above; the others
stand in the record or the call as they are. -/
theorem decode_encode {c : Config} {i : Instr} (hFits : i.fits c = true) : decode c (encode i) = i := by
  cases i with
  | dapRd p x a =>
    change Instr.dapRd (portOfBit (bitOfPort p)) (fieldBits c.apidxBits x) a = _
    rw [portOfBit_bitOfPort, fieldBits_of_lt (of_decide_eq_true hFits)]
  | dapWr p x a v =>
    change Instr.dapWr (portOfBit (bitOfPort p)) (fieldBits c.apidxBits x) a v = _
    rw [portOfBit_bitOfPort, fieldBits_of_lt (of_decide_eq_true hFits)]
  | protoSel p => exact congrArg Instr.protoSel (protoOfBit_bitOfProto p)
  | speedSet k => exact congrArg Instr.speedSet (fieldBits_of_lt (of_decide_eq_true hFits))
  | jidleSet n => exact congrArg Instr.jidleSet (fieldBits_of_lt (of_decide_eq_true hFits))
  | _ => rfl

/-- Settles O4: the decoder undoes the encoder, and what it answers fits by `fits_decode`. -/
theorem decodeOfEncode : Obligations.DecodeOfEncode := ⟨fun _ _ => decode_encode, Fits.fits_decode⟩

theorem portOfBit_eq (b : BitVec 1) : portOfBit b = if b = 1#1 then .ap else .dp := by
  revert b; decide

theorem protoOfBit_eq (b : BitVec 1) : protoOfBit b = if b = 1#1 then .jtag else .swd := by
  revert b; decide

/-- Once its opcode is known, a record decodes as the record with that opcode written in it. -/
theorem decode_record_of_op {c : Config} {r : Record} {op : BitVec 4} {i : Instr}
    (hRow : decodeRecord c { r with op := op } = i) (hOp : r.op = op) : decode c (.record r) = i := by
  subst hOp
  exact hRow

/-- Settles O5: each row of R82 is an arm of `decodeRecord`. -/
theorem recordsDecodeByOpcode : Obligations.RecordsDecodeByOpcode := by
  intro c r
  rw [← portOfBit_eq, ← protoOfBit_eq]
  exact ⟨decode_record_of_op rfl, decode_record_of_op rfl, decode_record_of_op rfl, decode_record_of_op rfl,
    decode_record_of_op rfl, decode_record_of_op rfl, decode_record_of_op rfl, decode_record_of_op rfl,
    decode_record_of_op rfl, decode_record_of_op rfl, decode_record_of_op rfl, decode_record_of_op rfl,
    decode_record_of_op rfl, decode_record_of_op rfl, decode_record_of_op rfl, decode_record_of_op rfl⟩

/-- Settles O3, by evaluating the decoder and the two readers on the words written out. -/
theorem wordsDecodeToTheirInstructions : Obligations.WordsDecodeToTheirInstructions := by
  unfold Obligations.WordsDecodeToTheirInstructions
  decide +kernel

end Sys2Proof.Proofs.Encoding
end

section
/-! The request header: the eight bits in wire order and their parity (R57, R86, R87, R88, R102). -/

namespace Sys2Proof.Proofs.Header

open Sys2Proof Sys2Proof.Machine

theorem isSome_swdHdr (p : Port) (d : Dir) (a : BitVec 4) :
    (swdHdr p d a).isSome = (a.extractLsb' 0 2 == 0#2) := by
  change _ = alignedOffset a
  rw [swdHdr, ← offsetAligned_eq_alignedOffset]
  cases offsetAligned a <;> rfl

theorem swdHdr_eq_some_iff {p : Port} {d : Dir} {a : BitVec 4} {h : Bits} :
    swdHdr p d a = some h ↔ offsetAligned a = true ∧ headerBits p d a = h := by
  simp [swdHdr]

theorem portBit_eq (p : Port) : portBit p = decide (p = .ap) := by cases p <;> rfl

theorem dirBit_eq (d : Dir) : dirBit d = decide (d = .read) := by cases d <;> rfl

theorem headerParity_eq_xorFold (apndp rnw a2 a3 : Bool) :
    headerParity apndp rnw a2 a3 = xorFold [apndp, rnw, a2, a3] := by
  simp [headerParity, xorFold]

/-- Bits with their own parity after them hold an even number of ones (R87). -/
theorem count_append_xorFold (w : Bits) : (w ++ [xorFold w]).count true % 2 = 0 := by
  have hFold : xorFold (w ++ [xorFold w]) = false := by simp [xorFold]
  rw [xorFold_eq_odd_count] at hFold
  simpa using hFold

/-- Settles O6: the bits are those of `headerBits`, whose parity bit is the fold of the four bits before it. -/
theorem headerFieldsInWireOrder : Obligations.HeaderFieldsInWireOrder := by
  intro p d a
  refine ⟨isSome_swdHdr p d a, fun h hHdr => ?_⟩
  obtain ⟨-, rfl⟩ := swdHdr_eq_some_iff.1 hHdr
  rw [← portBit_eq, ← dirBit_eq]
  have hOdd := xorFold_eq_odd_count [portBit p, dirBit d, a.getLsbD 2, a.getLsbD 3]
  have hEven := count_append_xorFold [portBit p, dirBit d, a.getLsbD 2, a.getLsbD 3]
  rw [← headerParity_eq_xorFold] at hOdd hEven
  exact ⟨rfl, rfl, rfl, rfl, rfl, rfl, rfl, rfl, rfl, congrArg some hOdd, hEven⟩

theorem offset_of_aligned {a : BitVec 4} (hAligned : offsetAligned a = true) :
    a = 0x0#4 ∨ a = 0x4#4 ∨ a = 0x8#4 ∨ a = 0xC#4 := by
  revert a; decide

/-- Settles O7: the table by evaluation; two ports, two directions and four aligned offsets give no other byte. -/
theorem sixteenHeaders : Obligations.SixteenHeaders := by
  refine ⟨by decide, fun p d a h hHdr => ?_⟩
  obtain ⟨hAligned, rfl⟩ := swdHdr_eq_some_iff.1 hHdr
  rcases offset_of_aligned hAligned with rfl | rfl | rfl | rfl <;> cases p <;> cases d <;> decide

end Sys2Proof.Proofs.Header
end

section
/-! The vectors around the header: acknowledgement, write frame, line reset (R89, R90, R94, R122, R124, R127). -/

namespace Sys2Proof.Proofs.SwdFrames

open Sys2Proof Sys2Proof.Machine Sys2Proof.Proofs

/-- Settles O8: with one turnaround bit the acknowledgement stands at 9 to 11, and the tests of R89 are run on each of
the eight patterns. -/
theorem acknowledgementClasses : Obligations.AcknowledgementClasses := by
  intro c s hTrn hLength
  have hAt : ackAt c = 9 := by rw [ackAt, hTrn]; rfl
  rw [swdDecAck, if_pos (by rw [hAt]; exact hLength), sampledAck, hAt]
  simp only [List.getD_eq_getElem?_getD]
  cases s[9]?.getD false <;> cases s[10]?.getD false <;> cases s[11]?.getD false <;> rfl

theorem isSome_swdEncWrite (c : Config) (p : Port) (a : BitVec 4) (v : Word) (n : Nat) :
    (swdEncWrite c p a v n).isSome = (decide (8 ≤ n) && (a.extractLsb' 0 2 == 0#2)) := by
  change _ = (decide (Config.minWriteIdle ≤ n) && alignedOffset a)
  rw [swdEncWrite_eq, ← offsetAligned_eq_alignedOffset]
  split
  next hDomain => simp [hDomain]
  next hDomain => simpa using hDomain

/-- The I/O vector of a write frame: header, six bits not driven, data, parity, idle (R90). -/
theorem getElem?_writeIo {h : Bits} (hLength : h.length = 8) {v : Word} {n i : Nat} (hi : i < 47 + n) :
    (h ++ rep false 6 ++ bitsLsb v.toNat 32 ++ [swdPar32 v] ++ rep false n)[i]? =
      if i < 8 then h[i]? else if i < 14 then some false else if i < 46 then some (v.getLsbD (i - 14))
        else if i = 46 then some (swdPar32 v) else some false := by
  simp only [List.getElem?_append, List.length_append, hLength, length_rep, length_bitsLsb, getElem?_rep,
    getElem?_bitsLsb, List.length_singleton, List.getElem?_singleton, BitVec.testBit_toNat]
  grind

/-- The direction vector of a write frame: the header driven, six bits not, the rest driven (R90). -/
theorem getElem?_writeDir {n i : Nat} (hi : i < 47 + n) :
    (rep true 8 ++ rep false 6 ++ rep true (33 + n))[i]? = some (decide (i < 8 ∨ 14 ≤ i)) := by
  simp only [List.getElem?_append, List.length_append, length_rep, getElem?_rep]
  grind

/-- Settles O10: the frame in closed form, measured and read at an index. -/
theorem writeFrameLayout : Obligations.WriteFrameLayout := by
  intro c p a v n hTrn
  refine ⟨isSome_swdEncWrite c p a v n, fun q h hFrame hHdr => ?_⟩
  obtain ⟨-, rfl⟩ := Header.swdHdr_eq_some_iff.1 hHdr
  rw [swdEncWrite_eq, hTrn] at hFrame
  obtain ⟨-, hq⟩ := Option.ite_none_right_eq_some.1 hFrame
  cases hq
  have hLength : (headerBits p .write a).length = 8 := length_headerBits p .write a
  refine ⟨?_, ?_, fun i hi => ⟨getElem?_writeIo hLength hi, getElem?_writeDir hi⟩⟩
  · simp [hLength, Config.nAck, Config.nTrnWr, Config.nData]; omega
  · simp [Config.nHdr, Config.nAck, Config.nTrnWr, Config.nData]; omega

/-- Settles O14: the pattern of the configuration is written out least significant bit first, as the statement writes
it; the default vector by evaluation. -/
theorem lineResetSequence : Obligations.LineResetSequence := ⟨fun _ => ⟨rfl, rfl⟩, by decide, by decide⟩

end Sys2Proof.Proofs.SwdFrames
end

section
/-! An engine command whose first request is acknowledged `Ok`: the state it ends in (R173, R174, R175, R183, R184). -/

namespace Sys2Proof.Proofs.Acknowledged

open Sys2Proof Sys2Proof.Machine

/-- A request acknowledged `Ok` at the first attempt ends the attempt loop (R172, R173). -/
theorem dapAccess_acknowledged {s : State} {t : Txn} {q : Seq} {a : Answer} {rest : List Answer}
    (hFrame : requestFrame s.cfg t.port t.dir t.addr t.value = some q) (hEnv : s.env = a :: rest)
    (hOk : a.Gives s.cfg .ok) :
    dapAccess t s = endPhase (afterOk ((s.loadTxn t false).attempted q .ok a.bits)) := by
  rw [dapAccess, Config.maxAttempts, attempts_ok (s := s.loadTxn t false) hFrame hEnv hOk]

/-- The phase an operation ends in does not outlast it: the command ends in `Idle` (R31). -/
theorem endEngine_setPhase (op : BitVec 4) (t : Txn) (r : Except Exit Value) (p : Phase) (s : State) :
    endEngine op t r (s.setPhase p) = endEngine op t r s := by
  rcases r with (k | _) | v <;> rfl

theorem dapWrite_acknowledged {s : State} {p : Port} {x : Nat} {ad : BitVec 4} {v : Word} {q : Seq} {a : Answer}
    {rest : List Answer} (hAligned : offsetAligned ad = true) (hSwd : s.ps.selectedProtocol = .swd)
    (hFrame : requestFrame s.cfg p .write ad v = some q) (hEnv : s.env = a :: rest) (hOk : a.Gives s.cfg .ok) :
    dapWrite p x ad v s = endEngine 0x1#4 ⟨p, x, .write, ad, v⟩ (.ok .unit)
      ((s.loadTxn ⟨p, x, .write, ad, v⟩ false).attempted q .ok a.bits) := by
  rw [dapWrite, if_neg (by simp [hAligned]), if_neg (by simp [hSwd])]
  dsimp only
  rw [dapAccess_acknowledged hFrame hEnv hOk]
  exact endEngine_setPhase ..

/-- The latches of an acknowledged read frame, and whether they agree (R30, R171). -/
theorem checkedData_attempted {s : State} {q : Seq} {a : Answer} {w : Word} {par : Bool}
    (hDir : s.eng.txn.dir = .read) (hWord : a.GivesWord s.cfg w par) :
    checkedData (s.attempted q .ok a.bits) =
      (if swdPar32 w = par then .ok w else .error (.raise .incorrectParity), s.attempted q .ok a.bits) := by
  obtain ⟨-, hData, hPar⟩ := hWord
  have hLatched : (s.attempted q .ok a.bits).eng.data = w ∧ (s.attempted q .ok a.bits).eng.par = par := by
    simp [State.attempted, State.latch, hDir, hData, hPar]
  simp only [checkedData, Engine.parityOk, hLatched, beq_iff_eq]
  split <;> rfl

theorem dapRead_acknowledged {s : State} {x : Nat} {ad : BitVec 4} {w : Word} {par : Bool} {q : Seq} {a : Answer}
    {rest : List Answer} (hAligned : offsetAligned ad = true) (hSwd : s.ps.selectedProtocol = .swd)
    (hFrame : requestFrame s.cfg .dp .read ad 0#32 = some q) (hEnv : s.env = a :: rest)
    (hWord : a.GivesWord s.cfg w par) :
    dapRead .dp x ad s = endEngine 0x0#4 ⟨.dp, x, .read, ad, 0#32⟩
      (if swdPar32 w = par then .ok (.word w) else .error (.raise .incorrectParity))
      ((s.loadTxn ⟨.dp, x, .read, ad, 0#32⟩ false).attempted q .ok a.bits) := by
  have hAfterOk : afterOk ((s.loadTxn ⟨.dp, x, .read, ad, 0#32⟩ false).attempted q .ok a.bits) =
      (if swdPar32 w = par then .ok w else .error (.raise .incorrectParity), _) :=
    checkedData_attempted (s := s.loadTxn ⟨.dp, x, .read, ad, 0#32⟩ false) rfl hWord
  rw [dapRead, if_neg (by simp [hAligned]), if_neg (by simp [hSwd])]
  dsimp only
  rw [dapAccess_acknowledged hFrame hEnv hWord.1, hAfterOk]
  split
  · exact endEngine_setPhase ..
  · exact endEngine_setPhase ..

/-- What the outside sees of a command that succeeds with its first request. -/
theorem endEngine_attempted {s : State} {t : Txn} {q : Seq} {a : Answer} {rest : List Answer} (op : BitVec 4)
    (v : Value) (bits : Bits) (hEnv : s.env = a :: rest) :
    ∃ u, endEngine op t (.ok v) ((s.loadTxn t false).attempted q .ok bits) = u ∧ u.resp = some (.ok v) ∧
      u.wire = s.wire ++ [.swdIo q.io q.dir] ∧ u.env = rest ∧ u.ps = s.ps := by
  have hAfter : After (s.loadTxn t false) ((s.loadTxn t false).attempted q .ok bits) [q.call] rest :=
    State.attempted_after hEnv
  obtain ⟨-, hPs, hRest, hWire, -⟩ := hAfter.loaded
  exact ⟨_, rfl, rfl, (endEngine_wire ..).trans hWire, (endEngine_env ..).trans hRest, (endEngine_ps ..).trans hPs⟩

end Sys2Proof.Proofs.Acknowledged
end

section
/-! The pseudo-instructions (R84): each is the command it abbreviates, and completes as that command does. -/

namespace Sys2Proof.Proofs.Pseudo

open Sys2Proof Sys2Proof.Machine Sys2Proof.Proofs

theorem exec_expand (i : Instr) (s : State) : exec (i.expand s.cfg) s = exec i s := by cases i <;> rfl

/-- Settles O33: `exec_expand` at the default offsets. -/
theorem pseudoInstructionsAbbreviate : Obligations.PseudoInstructionsAbbreviate := by
  intro s hCfg
  have hExpand (i : Instr) : exec i s = exec (i.expand .default) s := by rw [← hCfg, exec_expand]
  exact ⟨hExpand .rdDpidr, fun v => hExpand (.wrAbort v), hExpand .rdCtrlstat, fun v => hExpand (.wrCtrlstat v),
    hExpand .rdRdbuff, hExpand .clrOrun, hExpand .clrStkerr⟩

section

variable {s : State} {w : Word} {a : Answer} {rest : List Answer} (hWf : s.cfg.wf = true)
  (hSwd : s.ps.selectedProtocol = .swd) (hEnv : s.env = a :: rest) (hWord : a.GivesWord s.cfg w (swdPar32 w))

include hWf hSwd hEnv hWord

theorem read_completes {i : Instr} {ad : BitVec 4} (hExpand : i.expand s.cfg = .dapRd .dp 0 ad)
    (hAligned : ad.extractLsb' 0 2 = 0#2) :
    ∃ q t, swdEncRead s.cfg .dp ad = some q ∧ exec i s = .next t ∧ t.resp = some (.ok (.word w)) ∧
      t.wire = s.wire ++ [.swdIo q.io q.dir] ∧ t.env = rest ∧ t.ps = s.ps := by
  have hOffset := offsetAligned_of_extract hAligned
  obtain ⟨q, hFrame⟩ := requestFrame_isSome hWf hOffset .dp .read 0#32
  obtain ⟨t, hEnd, hSeen⟩ := Acknowledged.endEngine_attempted (q := q) 0x0#4 (.word w) a.bits hEnv
  have hRead := Acknowledged.dapRead_acknowledged (x := 0) hOffset hSwd hFrame hEnv hWord
  rw [if_pos rfl, hEnd] at hRead
  exact ⟨q, t, hFrame, by rw [← exec_expand, hExpand]; exact congrArg _ hRead, hSeen⟩

theorem write_completes {i : Instr} {ad : BitVec 4} {v : Word} (hExpand : i.expand s.cfg = .dapWr .dp 0 ad v)
    (hAligned : ad.extractLsb' 0 2 = 0#2) :
    ∃ q t, swdEncWrite s.cfg .dp ad v s.cfg.engineWriteIdle = some q ∧ exec i s = .next t ∧
      t.resp = some (.ok .unit) ∧ t.wire = s.wire ++ [.swdIo q.io q.dir] ∧ t.env = rest ∧ t.ps = s.ps := by
  have hOffset := offsetAligned_of_extract hAligned
  obtain ⟨q, hFrame⟩ := requestFrame_isSome hWf hOffset .dp .write v
  obtain ⟨t, hEnd, hSeen⟩ := Acknowledged.endEngine_attempted (q := q) 0x1#4 .unit a.bits hEnv
  have hWrite := Acknowledged.dapWrite_acknowledged (x := 0) hOffset hSwd hFrame hEnv hWord.1
  rw [hEnd] at hWrite
  exact ⟨q, t, hFrame, by rw [← exec_expand, hExpand]; exact congrArg _ hWrite, hSeen⟩

end

/-- Settles O34: each is a read or a write of a Debug Port register at an aligned offset (R57). -/
theorem pseudoInstructionsComplete : Obligations.PseudoInstructionsComplete := by
  intro s v w a rest hWf hSwd hEnv hWord
  obtain ⟨-, -, hDpidr, hAbort, hCtrlstat, hRdbuff, -⟩ := (Config.wf_iff s.cfg).1 hWf
  simp only [List.forall_mem_cons]
  exact ⟨⟨read_completes hWf hSwd hEnv hWord rfl hDpidr, read_completes hWf hSwd hEnv hWord rfl hCtrlstat,
      read_completes hWf hSwd hEnv hWord rfl hRdbuff, List.forall_mem_nil _⟩,
    write_completes hWf hSwd hEnv hWord rfl hAbort, write_completes hWf hSwd hEnv hWord rfl hCtrlstat,
    write_completes hWf hSwd hEnv hWord rfl hAbort, write_completes hWf hSwd hEnv hWord rfl hAbort,
    List.forall_mem_nil _⟩

end Sys2Proof.Proofs.Pseudo
end

section
/-! The numbers of the response record (R100, R101, R259). -/

namespace Sys2Proof.Proofs.ResponseCode

open Sys2Proof Sys2Proof.Machine

/-- The kind that a row of R101 names by its codes `err` and `sub`. -/
def kindOfCodes (err sub : BitVec 3) : Option ErrKind :=
  match err.toNat, sub.toNat with
  | 1, 0 => some .unsupportedProtocol
  | 2, 0 => some .unsupportedSpeed
  | 3, 0 => some .timeout
  | 4, 0 => some .notImplemented
  | 5, 0 => some .probeSpecific
  | 5, 1 => some .waitResponse
  | 5, 2 => some .faultResponse
  | 5, 3 => some .noAcknowledge
  | 5, 4 => some .incorrectParity
  | _, _ => none

theorem kindOfCodes_code_sub (k : ErrKind) : kindOfCodes k.code k.sub = some k := by cases k <;> rfl

theorem status_ne_three (r : Response) : r.status ≠ 3#2 := by
  cases r with
  | ok v => exact (by decide : 0#2 ≠ 3#2)
  | err k info => exact (by decide : 1#2 ≠ 3#2)
  | assert => exact (by decide : 2#2 ≠ 3#2)

/-- Settles O48: the table by evaluation; no two kinds share both codes because the table can be read backwards. -/
theorem responseCodes : Obligations.ResponseCodes := by
  refine ⟨by decide, fun k j hCode hSub => ?_, fun _ => rfl, fun _ _ => rfl, rfl, status_ne_three⟩
  have hKind := kindOfCodes_code_sub k
  rw [hCode, hSub, kindOfCodes_code_sub j] at hKind
  exact (Option.some.inj hKind).symm

end Sys2Proof.Proofs.ResponseCode
end

section
/-! The data parity as a parity of ones, and what it is linear in (R92, R121). -/

namespace Sys2Proof.Proofs.DataParity

open Sys2Proof Sys2Proof.Machine

theorem swdPar32_eq_odd_countP (v : Word) :
    swdPar32 v = decide (((List.range 32).countP fun i => v.getLsbD i) % 2 = 1) := by
  rw [swdPar32, xorFold_eq_odd_count, bitsLsb, List.count, List.countP_map]
  congr 3
  exact List.countP_congr fun i _ => by simp [BitVec.testBit_toNat]

/-- A power of two has one bit set: its index stands once in the list of the indices. -/
theorem swdPar32_one_shiftLeft {i : Nat} (hi : i < 32) : swdPar32 (1#32 <<< i) = true := by
  have hCount : ((List.range 32).countP fun k => (1#32 <<< i).getLsbD k) = (List.range 32).count i := by
    refine List.countP_congr fun k hk => ?_
    have hk : k < 32 := List.mem_range.1 hk
    simp [hk]
    omega
  rw [swdPar32_eq_odd_countP, hCount, List.count_eq_one_of_mem List.nodup_range (List.mem_range.2 hi)]
  rfl

/-- Settles O9: the fold is the parity of the count; it is linear, so turning one bit over turns it over. -/
theorem dataParityLaws : Obligations.DataParityLaws := by
  refine ⟨by decide, by decide, swdPar32_eq_odd_countP, swdPar32_xor, fun v i hi => ?_⟩
  rw [swdPar32_xor, swdPar32_one_shiftLeft hi, Bool.xor_true]

end Sys2Proof.Proofs.DataParity
end

section
/-! The SWD codec functions on their domains: where an encoder has a frame, and what a decoder reads at which index, the
positions written with `N_TRN_ACK` (R122 to R126; assumption log 18). -/

namespace Sys2Proof.Proofs.SwdDomains

open Sys2Proof Sys2Proof.Machine Sys2Proof.Proofs

theorem isSome_swdEncRead (c : Config) (p : Port) (a : BitVec 4) :
    (swdEncRead c p a).isSome = (a.extractLsb' 0 2 == 0#2) := by
  change _ = alignedOffset a
  rw [swdEncRead_eq, ← offsetAligned_eq_alignedOffset]
  cases offsetAligned a <;> rfl

section

variable {a : BitVec 4} (hAligned : a.extractLsb' 0 2 = 0#2)

include hAligned

theorem swdHdr_of_aligned (p : Port) (d : Dir) : ∃ h, swdHdr p d a = some h :=
  Option.isSome_iff_exists.1 (by rw [Header.isSome_swdHdr, hAligned]; rfl)

theorem swdEncWrite_of_aligned (c : Config) (p : Port) (v : Word) {n : Nat} (hIdle : 8 ≤ n) :
    ∃ q, swdEncWrite c p a v n = some q :=
  Option.isSome_iff_exists.1 (by rw [SwdFrames.isSome_swdEncWrite, hAligned, decide_eq_true hIdle]; rfl)

theorem swdEncRead_of_aligned (c : Config) (p : Port) : ∃ q, swdEncRead c p a = some q :=
  Option.isSome_iff_exists.1 (by rw [isSome_swdEncRead, hAligned]; rfl)

end

theorem length_of_swdHdr {p : Port} {d : Dir} {a : BitVec 4} {h : Bits} (hHdr : swdHdr p d a = some h) :
    h.length = 8 := by
  obtain ⟨-, rfl⟩ := Header.swdHdr_eq_some_iff.1 hHdr
  exact length_headerBits p d a

theorem readDataAt_eq (c : Config) : readDataAt c = 11 + c.nTrnAck := by
  simp only [readDataAt, ackAt, Config.nHdr, Config.nAck]
  omega

theorem readFrameLength_eq (c : Config) : readFrameLength c = 45 + c.nTrnAck := by
  simp only [readFrameLength, readDataAt_eq, Config.nData, Config.nTrnRd]
  omega

theorem writeDataAt_eq (c : Config) : writeDataAt c = 13 + c.nTrnAck := by
  change readDataAt c + Config.nTrnWr = _
  simp only [readDataAt_eq, Config.nTrnWr]
  omega

theorem writeParityAt_eq (c : Config) : writeDataAt c + Config.nData = 45 + c.nTrnAck := by
  simp only [writeDataAt_eq, Config.nData]
  omega

theorem swdDecAck_eq {c : Config} {s : Bits} (hLength : 11 + c.nTrnAck ≤ s.length) :
    swdDecAck c s = some (sampledAck c s).classify :=
  if_pos ((readDataAt_eq c).trans_le hLength)

theorem swdDecRead_eq {c : Config} {s : Bits} {v : Word} {p : Bool} (hLength : s.length = 45 + c.nTrnAck)
    (hData : sampledData c s = v) (hPar : sampledPar c s = p) : swdDecRead c s = some (v, p, swdPar32 v == p) := by
  rw [swdDecRead, if_pos (hLength.trans (readFrameLength_eq c).symm), hData, hPar]

theorem swdDecWrite_eq {c : Config} {io : Bits} (hLength : 46 + c.nTrnAck ≤ io.length) :
    swdDecWrite c io =
      some (BitVec.ofNat 32 (numLsb (slice io (13 + c.nTrnAck) 32)), io.getD (45 + c.nTrnAck) false) := by
  rw [swdDecWrite, writeParityAt_eq, writeDataAt_eq, if_pos (by omega)]
  rfl

end Sys2Proof.Proofs.SwdDomains
end

section
/-! The data fields of the frames: a read frame's layout and decoding, and a write frame's driven bits read back (R91,
R123, R125, R126, R129). -/

namespace Sys2Proof.Proofs.SwdData

open Sys2Proof Sys2Proof.Machine Sys2Proof.Proofs

/-- The I/O vector of a read frame: the header, and nothing driven after it (R91). -/
theorem getElem?_readIo {h : Bits} (hLength : h.length = 8) {i : Nat} (hi : i < 46) :
    (h ++ rep false 38)[i]? = if i < 8 then h[i]? else some false := by
  rw [List.getElem?_append, hLength, getElem?_rep, if_pos (show i - 8 < 38 by omega)]

/-- The direction vector of a read frame (R91). -/
theorem getElem?_readDir {i : Nat} (hi : i < 46) : (rep true 8 ++ rep false 38)[i]? = some (decide (i < 8)) := by
  rw [getElem?_readIo (length_rep ..) hi, getElem?_rep]
  by_cases h : i < 8 <;> simp [h]

/-- Settles O11: the frame in closed form, measured and read at an index. -/
theorem readFrameLayout : Obligations.ReadFrameLayout := by
  intro c p a hTrn
  refine ⟨SwdDomains.isSome_swdEncRead c p a, fun q h hFrame hHdr => ?_⟩
  obtain ⟨-, rfl⟩ := Header.swdHdr_eq_some_iff.1 hHdr
  rw [swdEncRead_eq, hTrn] at hFrame
  obtain ⟨-, hq⟩ := Option.ite_none_right_eq_some.1 hFrame
  cases hq
  exact ⟨rfl, rfl, fun i hi => ⟨getElem?_readIo (length_headerBits p .read a) hi, getElem?_readDir hi⟩⟩

/-- A field of a vector, known bit by bit. -/
theorem slice_eq_of_getElem? {v w : Bits} {i n : Nat} (hLength : w.length = n)
    (hBits : ∀ k, k < n → v[i + k]? = w[k]?) : slice v i n = w := by
  refine List.ext_getElem? fun k => ?_
  rw [getElem?_slice]
  split
  next hk => exact hBits k hk
  next hk => exact (List.getElem?_eq_none (by omega)).symm

/-- Settles O12: every clause reads off the frame's layout (O10) at the indices it speaks of. -/
theorem writeDataRoundTrip : Obligations.WriteDataRoundTrip := by
  intro c p a v n hTrn hAligned hIdle
  obtain ⟨q, hFrame⟩ := SwdDomains.swdEncWrite_of_aligned hAligned c p v hIdle
  obtain ⟨h, hHdr⟩ := SwdDomains.swdHdr_of_aligned hAligned p .write
  obtain ⟨-, hLayout⟩ := SwdFrames.writeFrameLayout c p a v n hTrn
  obtain ⟨hIo, hDir, hBits⟩ := hLayout q h hFrame hHdr
  have hHeader : slice q.io 0 8 = h := by
    refine slice_eq_of_getElem? (SwdDomains.length_of_swdHdr hHdr) fun k hk => ?_
    rw [Nat.zero_add, (hBits k (by omega)).1, if_pos hk]
  have hData : slice q.io 14 32 = bitsLsb v.toNat Config.nData := by
    refine slice_eq_of_getElem? (length_bitsLsb ..) fun k hk => ?_
    rw [(hBits (14 + k) (by omega)).1, if_neg (by omega), if_neg (by omega), if_pos (by omega), getElem?_bitsLsb,
      Config.nData, if_pos hk, Nat.add_sub_cancel_left, BitVec.testBit_toNat]
  have hPar : q.io.getD 46 false = swdPar32 v := by
    rw [List.getD_eq_getElem?_getD, (hBits 46 (by omega)).1]
    rfl
  refine ⟨q, hFrame, ?_, hIo, hDir, ?_, fun i hi => ?_, fun i hi hLow => ?_⟩
  · rw [SwdDomains.swdDecWrite_eq (by omega), hTrn, hData, ofNat_numLsb_bitsLsb, hPar]
  · rw [hHeader, hHdr]
  · rw [(hBits i hi).2, Option.some_inj, decide_eq_false_iff_not]
    omega
  · rw [(hBits i hi).1, if_neg (by omega)]
    rcases hLow with ⟨-, hTurn⟩ | hTail
    · rw [if_pos (by omega)]
    · rw [if_neg (by omega), if_neg (by omega), if_neg (by omega)]

/-- Settles O13: the word is the field after the twelve bits in front, the parity bit the one after the field. -/
theorem readDataDecoding : Obligations.ReadDataDecoding := by
  intro c hTrn
  have hAt : readDataAt c = 12 := by rw [SwdDomains.readDataAt_eq, hTrn]
  refine ⟨fun pre v p t hPre => ?_, fun s => ?_⟩
  · change swdDecRead c (pre ++ bitsLsb v.toNat Config.nData ++ [p, t]) = _
    rw [List.append_assoc]
    refine SwdDomains.swdDecRead_eq ?_ ?_ ?_
    · simp [hPre, hTrn, Config.nData]
    · have hField := slice_append pre (bitsLsb v.toNat Config.nData) [p, t]
      rw [hPre, length_bitsLsb] at hField
      rw [sampledData, hAt, hField, ofNat_numLsb_bitsLsb]
    · simp [sampledPar, hAt, hPre, List.getD_eq_getElem?_getD, Config.nData]
  · rw [swdDecRead, SwdDomains.readFrameLength_eq, hTrn]
    by_cases h : s.length = 46 <;> simp [h]

end Sys2Proof.Proofs.SwdData
end

section
/-! The SWD codec functions called by themselves: a value in the domain, `Assert` outside (R130, assumption log 13). -/

namespace Sys2Proof.Proofs.SwdCodecFunctions

open Sys2Proof Sys2Proof.Machine Sys2Proof.Proofs

/-- What a codec function that has a value does to the state. -/
theorem next_giveValue_map {α : Type} {o : Option α} {x : α} (hValue : o = some x) (f : α → Value) (s : State) :
    Host.Outcome.next (φ := Fault) (ρ := Refusal) (s.giveValue (o.map f)) =
      .next { s with resp := some (.ok (f x)) } := by
  rw [hValue]
  rfl

/-- Settles O19: inside its domain each function has a value, which `exec` gives on the response port; an operand
outside it is outside the contract of its instruction. -/
theorem swdCodecFunctionsComplete : Obligations.SwdCodecFunctionsComplete := by
  intro s
  refine ⟨fun p d a hAligned => ?_, fun p a v n hAligned hIdle => ?_, fun p a hAligned => ?_, fun v hLength => ?_,
    fun v hLength => ?_, fun io hLength => ?_, rfl, fun _ => rfl, fun io dir hLength => ?_, fun io dir hLength => ?_,
    fun p d a hOff => ?_, fun p a v n hOut => ?_, fun p a hOff => ?_, fun v hLength => ?_, fun v hLength => ?_,
    fun io hLength => ?_⟩
  · obtain ⟨h, hValue⟩ := SwdDomains.swdHdr_of_aligned hAligned p d
    exact ⟨h, hValue, next_giveValue_map hValue ..⟩
  · obtain ⟨q, hValue⟩ := SwdDomains.swdEncWrite_of_aligned hAligned s.cfg p v hIdle
    exact ⟨q, hValue, next_giveValue_map hValue ..⟩
  · obtain ⟨q, hValue⟩ := SwdDomains.swdEncRead_of_aligned hAligned s.cfg p
    exact ⟨q, hValue, next_giveValue_map hValue ..⟩
  · have hValue := SwdDomains.swdDecAck_eq hLength
    exact ⟨_, hValue, next_giveValue_map hValue ..⟩
  · have hValue := SwdDomains.swdDecRead_eq hLength rfl rfl
    exact ⟨_, _, _, hValue, next_giveValue_map hValue ..⟩
  · have hValue := SwdDomains.swdDecWrite_eq hLength
    exact ⟨_, _, hValue, next_giveValue_map hValue ..⟩
  · exact next_giveValue_map (if_pos hLength) Machine.Seq.value s
  · exact exec_of_not_wf _ s (decide_eq_false hLength)
  · exact exec_of_not_wf _ s (beq_false_of_ne hOff)
  · refine exec_of_not_wf _ s (Bool.and_eq_false_iff.2 ?_)
    exact hOut.imp beq_false_of_ne fun hIdle => decide_eq_false (Nat.not_le.2 hIdle)
  · exact exec_of_not_wf _ s (beq_false_of_ne hOff)
  · refine exec_of_not_wf _ s (decide_eq_false fun hIn : readDataAt s.cfg ≤ v.length => ?_)
    rw [SwdDomains.readDataAt_eq] at hIn
    omega
  · exact exec_of_not_wf _ s (decide_eq_false fun hIn => hLength (hIn.trans (SwdDomains.readFrameLength_eq s.cfg)))
  · refine exec_of_not_wf _ s (decide_eq_false fun hIn : writeDataAt s.cfg + Config.nData + 1 ≤ io.length => ?_)
    rw [SwdDomains.writeParityAt_eq] at hIn
    omega

end Sys2Proof.Proofs.SwdCodecFunctions
end

section
/-! The bit packing (R56, R154): a vector read back from its bytes bit by bit. -/

namespace Sys2Proof.Proofs.Packing

open Sys2Proof Sys2Proof.Machine

theorem getElem?_unpackAll (bytes : List Byte) {n k : Nat} (hk : k < n) :
    (unpackAll bytes n)[k]? = some ((bytes.getD (k / 8) 0#8).getLsbD (k % 8)) := by
  rw [unpackAll, List.getElem?_map, List.getElem?_range hk]
  rfl

theorem unpackAll_packBits (w : Bits) : unpackAll (packBits w) w.length = w := by
  refine List.ext_getElem (length_unpackAll ..) fun k hk hw => Option.some_inj.1 ?_
  have hIn : k < 8 * (packBits w).length := by
    rw [length_packBits, ceilDiv8]
    omega
  rw [← List.getElem?_eq_getElem hk, getElem?_unpackAll _ hw, packBits_getLsbD w k hIn, List.getD_eq_getElem w false hw]

theorem unpackBits_of_domain {bytes : List Byte} {n : Nat} (hLength : bytes.length = (n + 7) / 8) :
    unpackBits bytes n = some (unpackAll bytes n) :=
  if_pos hLength

theorem unpackBits_eq_none {bytes : List Byte} {n : Nat} (hLength : bytes.length ≠ (n + 7) / 8) :
    unpackBits bytes n = none :=
  if_neg hLength

/-- Settles O17: what `unpack_bits` gives and what `pack_bits` makes are both read at bit `k mod 8` of byte `k div 8`,
so one undoes the other. -/
theorem packAndUnpack : Obligations.PackAndUnpack :=
  ⟨fun bytes _ hLength => ⟨_, unpackBits_of_domain hLength, length_unpackAll .., fun _ => getElem?_unpackAll bytes⟩,
    fun _ _ => unpackBits_eq_none,
    fun w => ⟨length_packBits w, packBits_getLsbD w⟩,
    fun w => (unpackBits_of_domain (length_packBits w)).trans (congrArg some (unpackAll_packBits w))⟩

end Sys2Proof.Proofs.Packing
end

section
/-! Where each JTAG codec function has a value and which: the frames, and the register a data-register frame captures
(R96 to R98, R150 to R153). -/

namespace Sys2Proof.Proofs.JtagFrames

open Sys2Proof Sys2Proof.Machine Sys2Proof.Proofs

/-- The contract of `jtag_enc_ir` fails for no length and for a value wider than a length it can send (R150). -/
theorem irContract_eq_false {v : BitVec 8} {len : Nat} (hOut : len = 0 ∨ len ≤ 8 ∧ 2 ^ len ≤ v.toNat) :
    irContract v len = false := by
  rcases hOut with rfl | ⟨hShort, hWide⟩
  · rfl
  · have hLimit : ¬ Config.maxIrLen < len := Nat.not_lt.2 hShort
    simp [irContract, hLimit, hWide]

theorem jtagEncIr_of_fits {v : BitVec 8} {len : Nat} (hPos : 1 ≤ len) (hShort : len ≤ 8) (hFits : v.toNat < 2 ^ len) :
    jtagEncIr v len = .ok (irFrame v len) :=
  jtagEncIr_eq_ok (irContract_of hPos hFits) hShort

theorem irFrame_of_jtagEncIr {v : BitVec 8} {len : Nat} {q : JSeq} (hFrame : jtagEncIr v len = .ok q) :
    1 ≤ len ∧ q = irFrame v len := by
  cases hContract : irContract v len with
  | false => rw [jtagEncIr_assert hContract] at hFrame; cases hFrame
  | true =>
    obtain ⟨hPos, -⟩ := Bool.and_eq_true_iff.1 hContract
    rcases Nat.lt_or_ge 8 len with hLong | hShort
    · rw [jtagEncIr_long hLong] at hFrame
      cases hFrame
    · rw [jtagEncIr_eq_ok hContract hShort] at hFrame
      cases hFrame
      exact ⟨of_decide_eq_true hPos, rfl⟩

/-- Settles O15: the checks come in the order of R150, and what passes them all is sent as the frame of R96. -/
theorem instructionRegisterFrame : Obligations.InstructionRegisterFrame := fun _ =>
  ⟨jtagEncIr_assert (irContract_eq_false (.inl rfl)),
    fun _ => jtagEncIr_long,
    fun _ _ hShort hWide => jtagEncIr_assert (irContract_eq_false (.inr ⟨hShort, hWide⟩)),
    fun _ hPos hShort hFits => ⟨_, jtagEncIr_of_fits hPos hShort hFits, rfl, rfl⟩⟩

theorem jtagEncDr_of_domain {c : Config} {bytes : List Byte} {n : Nat} (hMax : ∀ m, c.maxDrBits = some m → n ≤ m)
    (hPos : 1 ≤ n) (hLength : bytes.length = (n + 7) / 8) : jtagEncDr c bytes n = some (drFrame (unpackAll bytes n)) :=
  (jtagEncDr_eq_some_iff ..).2 ⟨(drContract_iff c n).2 ⟨hPos, hMax⟩, hLength, rfl⟩

/-- Outside its domain `jtag_enc_dr` has no frame: each of the three causes breaks one of its checks (R151). -/
theorem jtagEncDr_eq_none {c : Config} {bytes : List Byte} {n : Nat}
    (hOut : n = 0 ∨ bytes.length ≠ (n + 7) / 8 ∨ ∃ m, c.maxDrBits = some m ∧ m < n) : jtagEncDr c bytes n = none := by
  refine Option.eq_none_iff_forall_ne_some.2 fun q hFrame => ?_
  obtain ⟨hContract, hLength, -⟩ := (jtagEncDr_eq_some_iff ..).1 hFrame
  obtain ⟨hPos, hMax⟩ := (drContract_iff c n).1 hContract
  rcases hOut with rfl | hOther | ⟨m, hm, hOver⟩
  · cases hPos
  · exact hOther hLength
  · exact Nat.not_le.2 hOver (hMax m hm)

theorem jtagDecDr_of_domain {tdo : Bits} {n : Nat} (hPos : 1 ≤ n) (hLength : tdo.length = n + 5) :
    jtagDecDr tdo n = some (capturedBytes tdo n) :=
  if_pos ⟨hPos, hLength⟩

theorem jtagDecDr_eq_none {tdo : Bits} {n : Nat} (hOut : n = 0 ∨ tdo.length ≠ n + 5) : jtagDecDr tdo n = none := by
  refine if_neg fun ⟨hPos, hLength⟩ => ?_
  rcases hOut with rfl | hOther
  · cases hPos
  · exact hOther hLength

/-- The captured register is the packed field of `n` bits from index 3 (R152). -/
theorem capturedBytes_getLsbD {tdo : Bits} {n k : Nat} (hk : k < 8 * (capturedBytes tdo n).length) :
    ((capturedBytes tdo n).getD (k / 8) 0#8).getLsbD (k % 8) = if k < n then tdo.getD (3 + k) false else false := by
  rw [capturedBytes, packBits_getLsbD _ k hk, List.getD_eq_getElem?_getD, getElem?_slice]
  split
  next => rw [List.getD_eq_getElem?_getD]
  next => rfl

theorem length_capturedBytes {tdo : Bits} {n : Nat} (hLength : tdo.length = n + 5) :
    (capturedBytes tdo n).length = (n + 7) / 8 := by
  rw [capturedBytes, length_packBits, length_slice, ceilDiv8, Nat.min_eq_left (by omega)]

theorem jtagEncIdle_eq_some_iff {n : Nat} {q : JSeq} :
    jtagEncIdle n = some q ↔ 1 ≤ n ∧ q = ⟨rep false n, rep false n⟩ := by
  rw [jtagEncIdle, Option.ite_none_right_eq_some, Option.some_inj, eq_comm (a := q)]

/-- Settles O16: the frame of R97 around the unpacked bits, and the field of R152 packed. -/
theorem dataRegisterFrameAndCapture : Obligations.DataRegisterFrameAndCapture := by
  refine ⟨fun c bytes n hMax hPos hLength => ⟨_, jtagEncDr_of_domain hMax hPos hLength, ?_, rfl⟩,
    fun _ _ _ => jtagEncDr_eq_none,
    fun tdo n hPos hLength =>
      ⟨_, jtagDecDr_of_domain hPos hLength, length_capturedBytes hLength, fun _ => capturedBytes_getLsbD⟩⟩
  rw [drFrame, length_unpackAll, rep]

end Sys2Proof.Proofs.JtagFrames
end

section
/-! The walk of the target's TAP through a frame (R155, R275; PRESUMED, assumption log 8): into a shift state, one shift
clock for each register bit, and out to idle. -/

namespace Sys2Proof.Proofs.TapWalk

open Sys2Proof Sys2Proof.Machine Sys2Proof.Proofs

section

variable {α : Type} {x : α} {pre post : List α} (hPre : x ∉ pre) (hPost : x ∉ post) (n : Nat)

include hPre hPost

theorem count_block [BEq α] [LawfulBEq α] : (pre ++ List.replicate n x ++ post).count x = n := by
  rw [List.count_append, List.count_append, List.count_replicate_self, List.count_eq_zero.2 hPre,
    List.count_eq_zero.2 hPost, Nat.zero_add, Nat.add_zero]

theorem getElem?_block (k : Nat) :
    (pre ++ List.replicate n x ++ post)[k]? = some x ↔ pre.length ≤ k ∧ k < n + pre.length := by
  have hBefore : pre[k]? ≠ some x := fun h => hPre (List.mem_of_getElem? h)
  have hAfter (i : Nat) : post[i]? ≠ some x := fun h => hPost (List.mem_of_getElem? h)
  simp only [List.getElem?_append, List.length_append, List.length_replicate, List.getElem?_replicate]
  split
  · split
    · simp only [hBefore, false_iff]
      omega
    · have hIn : k - pre.length < n := by omega
      simp only [hIn, if_true, true_iff]
      omega
  · simp only [hAfter, false_iff]
    omega

end

section

variable {t : TapState} (hStay : t.clock false = t) {entry : Bits}
  (hEntry : TapState.after .runTestIdle entry = t)

include hStay hEntry

/-- The shift state holds for `n - 1` clocks with TMS = 0 and is left by the clock of the last bit, so it takes `n`. -/
theorem walk_frame {n : Nat} (hPos : 1 ≤ n) (exit : Bits) :
    TapState.walk .runTestIdle (entry ++ rep false (n - 1) ++ true :: exit) =
      TapState.walk .runTestIdle entry ++ List.replicate n t ++ TapState.walk (t.clock true) exit := by
  have hHold : List.replicate n t = List.replicate (n - 1) t ++ [t] := by
    rw [← List.replicate_succ', Nat.sub_add_cancel hPos]
  rw [List.append_assoc, TapState.walk_append, TapState.walk_append, hEntry, TapState.after_stay t hStay,
    TapState.walk_stay t hStay, hHold]
  simp [TapState.walk]

theorem after_frame (n : Nat) (exit : Bits) :
    TapState.after .runTestIdle (entry ++ rep false n ++ true :: exit) = TapState.after (t.clock true) exit := by
  rw [List.append_assoc, TapState.after_append, TapState.after_append, hEntry, TapState.after_stay t hStay]
  rfl

end

theorem after_irFrame (v : BitVec 8) (len : Nat) : TapState.after .runTestIdle (irFrame v len).tms = .runTestIdle :=
  after_frame (t := .shiftIr) rfl rfl ..

theorem walk_irFrame (v : BitVec 8) {len : Nat} (hPos : 1 ≤ len) :
    TapState.walk .runTestIdle (irFrame v len).tms =
      [.runTestIdle, .selectDr, .selectIr, .captureIr] ++ List.replicate len .shiftIr ++ [.exit1Ir, .updateIr] :=
  walk_frame rfl rfl hPos _

theorem after_drFrame (d : Bits) : TapState.after .runTestIdle (drFrame d).tms = .runTestIdle :=
  after_frame (t := .shiftDr) rfl rfl ..

theorem walk_drFrame {d : Bits} (hPos : 1 ≤ d.length) :
    TapState.walk .runTestIdle (drFrame d).tms =
      [.runTestIdle, .selectDr, .captureDr] ++ List.replicate d.length .shiftDr ++ [.exit1Dr, .updateDr] :=
  walk_frame rfl rfl hPos _

/-- Settles O18: the walk is the way in, one block of shift clocks, and the way out, and no state of either way is a
shift state. -/
theorem jtagFramesReturnToIdle : Obligations.JtagFramesReturnToIdle := by
  refine ⟨fun v len q hFrame => ?_, fun c bytes n q hFrame => ?_, fun n q hFrame => ?_⟩
  · obtain ⟨hPos, rfl⟩ := JtagFrames.irFrame_of_jtagEncIr hFrame
    rw [walk_irFrame v hPos]
    refine ⟨after_irFrame v len, count_block (by decide) (by decide) len, List.count_eq_zero.2 ?_⟩
    simp
  · obtain ⟨hContract, -, rfl⟩ := (jtagEncDr_eq_some_iff ..).1 hFrame
    obtain ⟨hPos, -⟩ := (drContract_iff c n).1 hContract
    rw [walk_drFrame (by rwa [length_unpackAll]), length_unpackAll]
    refine ⟨after_drFrame _, count_block (by decide) (by decide) n, List.count_eq_zero.2 ?_,
      getElem?_block (by decide) (by decide) n⟩
    simp
  · obtain ⟨-, rfl⟩ := JtagFrames.jtagEncIdle_eq_some_iff.1 hFrame
    rw [TapState.walk_stay _ rfl]
    exact ⟨TapState.after_stay _ rfl n, fun _ => List.eq_of_mem_replicate⟩

end Sys2Proof.Proofs.TapWalk
end

section
/-! The JTAG codec functions called by themselves: a value in the domain, `Assert` outside, and the error of a long
instruction register (R150, R155; assumption log 13). -/

namespace Sys2Proof.Proofs.JtagCodecFunctions

open Sys2Proof Sys2Proof.Machine Sys2Proof.Proofs

/-- At every length `jtag_enc_ir` ends as its checks do (R150). -/
theorem exec_encIrOf (v : BitVec 8) (len : Nat) (s : State) :
    exec (encIrOf v len) s = .next (s.conclude codecInfo (encIrValue v len)) := by
  unfold encIrOf
  split <;> rfl

theorem exec_encIrOf_of_ok {v : BitVec 8} {len : Nat} {q : JSeq} (hFrame : jtagEncIr v len = .ok q) (s : State) :
    exec (encIrOf v len) s = .next { s with resp := some (.ok (.jtagSeq q.tms q.tdi)) } := by
  rw [exec_encIrOf, encIrValue, hFrame]
  rfl

theorem exec_encIrOf_of_error {v : BitVec 8} {len : Nat} {e : Exit} (hError : jtagEncIr v len = .error e) (s : State) :
    exec (encIrOf v len) s = .next (s.conclude codecInfo (.error e)) := by
  rw [exec_encIrOf, encIrValue, hError]

/-- What a codec function that has no value does to the state. -/
theorem next_giveValue_none {α : Type} {o : Option α} (hNone : o = none) (f : α → Value) (s : State) :
    Host.Outcome.next (φ := Fault) (ρ := Refusal) (s.giveValue (o.map f)) = .next { s with resp := some .assert } := by
  rw [hNone]
  rfl

/-- Settles O20: inside its domain each function has a value, which `exec` gives on the response port; outside it
has none, and `jtag_enc_ir` ends with the error of its checks. -/
theorem jtagCodecFunctionsComplete : Obligations.JtagCodecFunctionsComplete := by
  intro s
  refine ⟨fun v len => ⟨fun hPos hShort hFits => ?_, fun hOut => ?_, fun hLong => ?_⟩,
    fun bytes n hMax hPos hLength => ?_, fun tdo n hPos hLength => ?_, fun n hPos => ?_, fun bytes n hLength => ?_,
    fun w => rfl, fun bytes n hOut => ?_, fun tdo n hOut => ?_, rfl, fun bytes n hLength => ?_⟩
  · have hFrame := JtagFrames.jtagEncIr_of_fits hPos hShort hFits
    exact ⟨_, hFrame, exec_encIrOf_of_ok hFrame s⟩
  · exact exec_encIrOf_of_error (jtagEncIr_assert (JtagFrames.irContract_eq_false hOut)) s
  · exact exec_encIrOf_of_error (jtagEncIr_long hLong) s
  · have hFrame := JtagFrames.jtagEncDr_of_domain hMax hPos hLength
    exact ⟨_, hFrame, SwdCodecFunctions.next_giveValue_map hFrame ..⟩
  · have hValue := JtagFrames.jtagDecDr_of_domain hPos hLength
    exact ⟨_, hValue, SwdCodecFunctions.next_giveValue_map hValue ..⟩
  · exact SwdCodecFunctions.next_giveValue_map (JtagFrames.jtagEncIdle_eq_some_iff.2 ⟨hPos, rfl⟩) Machine.JSeq.value s
  · have hValue := Packing.unpackBits_of_domain hLength
    exact ⟨_, hValue, SwdCodecFunctions.next_giveValue_map hValue ..⟩
  · exact next_giveValue_none (JtagFrames.jtagEncDr_eq_none hOut) ..
  · exact next_giveValue_none (JtagFrames.jtagDecDr_eq_none hOut) ..
  · exact next_giveValue_none (Packing.unpackBits_eq_none hLength) ..

end Sys2Proof.Proofs.JtagCodecFunctions
end

section
/-! What an error reports of its command, and the transport call it comes from (R186, R190, R245, R258): `ExecDoes` of
Laws/Commands.lean, read as the statements put it. -/

namespace Sys2Proof.Proofs.ErrorReport

open Sys2Proof Sys2Proof.Machine Sys2Proof.Proofs

/-- An engine command that reads is `DAP.RD` or abbreviates it (R82, R84). -/
theorem opcode_of_read {c : Config} {i : Instr} {t : Txn} (hTxn : i.txn? c = some t) (hRead : t.dir = .read) :
    i.opcode = some 0x0#4 := by
  rcases engine_cases hTxn with ⟨p, x, a, rfl, hOp, -⟩ | ⟨p, x, a, v, rfl, -⟩
  · exact hOp
  · cases hRead

/-- Settles O47: the report is about the instruction, and only an Access Port read has a follow-up to fail in. -/
theorem errorsNameTheirCommand : Obligations.ErrorsNameTheirCommand := by
  intro i s t k info hExec hErr
  obtain ⟨-, hOp, hDap⟩ := (Exec.execDoes_of_next hExec).err k info hErr
  cases hInfo : info.dap with
  | none =>
    rw [hInfo] at hDap
    exact ⟨hOp, nofun, iff_of_true rfl hDap⟩
  | some d =>
    rw [hInfo] at hDap
    obtain ⟨hTarget, hStage⟩ := hDap
    refine ⟨hOp, ?_, by simp [hTarget]⟩
    rintro _ ⟨⟩
    refine ⟨hTarget, fun hFollow => ?_⟩
    obtain ⟨hAp, x, hTxn, hRead⟩ := hStage hFollow
    exact ⟨hAp, hOp.symm.trans (opcode_of_read hTxn hRead)⟩

/-- Settles O44: of the answers an instruction uses up only the last can be a failure, and is one exactly when the
outcome is `ProbeSpecific`. -/
theorem transportFailureEndsTheCommand : Obligations.TransportFailureEndsTheCommand := by
  intro i s
  obtain ⟨t, hExec, hDoes⟩ := exec_does i s
  obtain ⟨calls, failed, hCalls, hOutcome⟩ := hDoes.does
  refine ⟨t, calls, hExec, hCalls.wire, hCalls.env, fun j a hj ha hFailed => ?_, fun hProbe => ?_⟩
  · rw [hCalls.failing j a hj ha, Bool.and_eq_true, decide_eq_true_eq] at hFailed
    obtain ⟨hLast, hEnd⟩ := hFailed
    exact ⟨hLast, hOutcome.1 hEnd⟩
  · have hEnd := hOutcome.2 hProbe
    have hNonempty := hCalls.nonempty hEnd
    have hPos := List.length_pos_iff.2 hNonempty
    refine ⟨hNonempty, fun a ha => ?_⟩
    rw [hCalls.failing _ a (by omega) ha, hEnd, Bool.and_true, decide_eq_true_eq]
    omega

end Sys2Proof.Proofs.ErrorReport
end

section
/-! How many calls an engine operation makes (R187): the bounds of Laws/Engine.lean from above, the request of each
attempt loop from below. -/

namespace Sys2Proof.Proofs.CallCount

open Sys2Proof Sys2Proof.Machine

@[simp] theorem endPhase_wire (r : Except Exit Word × State) : (endPhase r).2.wire = r.2.wire := by
  rcases r with ⟨_ | _, s⟩ <;> rfl

theorem exists_ok_of_endPhase {r : Except Exit Word × State} {v : Word} (h : (endPhase r).1 = .ok v) :
    r.1 = .ok v := by
  rcases r with ⟨_ | _, s⟩
  · cases h
  · exact h

@[simp] theorem checkedData_state (s : State) : (checkedData s).2 = s := by
  unfold checkedData
  split <;> rfl

theorem followUpRead_wire (s : State) :
    (followUpRead s).2.wire =
      (attempts Config.maxAttempts ((s.setPhase .followUp).loadTxn (followUpTxn s.cfg s.eng.txn) true)).2.wire := by
  unfold followUpRead
  split
  next h => rw [h]
  next h => rw [h, checkedData_state]

/-- An attempt loop makes at least its first request. -/
theorem loop_makes_call {s : State} {t : Txn} (f : Bool) (hWf : s.cfg.wf = true)
    (hAligned : offsetAligned t.addr = true) :
    s.wire.length < (attempts Config.maxAttempts (s.loadTxn t f)).2.wire.length := by
  obtain ⟨q, hFrame⟩ := requestFrame_isSome hWf hAligned t.port t.dir t.value
  exact attempts_calls_pos (s := s.loadTxn t f) hFrame rfl

theorem rdbuff_aligned {c : Config} (hWf : c.wf = true) : offsetAligned c.addrRdbuff = true := by
  obtain ⟨-, -, -, -, -, hRdbuff, -⟩ := (Config.wf_iff c).1 hWf
  exact offsetAligned_of_extract hRdbuff

theorem followUpRead_makes_call {s : State} (hWf : s.cfg.wf = true) :
    s.wire.length < (followUpRead s).2.wire.length := by
  rw [followUpRead_wire]
  exact loop_makes_call (s := s.setPhase .followUp) true hWf (rdbuff_aligned hWf)

/-- After the acknowledgement an Access Port read makes a call more, any other operation none. -/
theorem afterOk_calls {s : State} (hWf : s.cfg.wf = true) :
    s.wire.length ≤ (afterOk s).2.wire.length ∧
      (s.eng.txn.dir = .read → s.eng.txn.port = .ap → s.wire.length < (afterOk s).2.wire.length) := by
  unfold afterOk
  cases s.eng.txn.dir with
  | write => exact ⟨le_rfl, nofun⟩
  | read =>
    cases s.eng.txn.port with
    | dp => exact ⟨by simp, nofun⟩
    | ap =>
      have hCall := followUpRead_makes_call hWf
      exact ⟨hCall.le, fun _ _ => hCall⟩

/-- The fewest calls of an operation: one; and two of an Access Port read that succeeds. -/
theorem dapAccess_calls {s : State} {t : Txn} (hWf : s.cfg.wf = true) (hAligned : offsetAligned t.addr = true) :
    s.wire.length < (dapAccess t s).2.wire.length ∧
      (t.dir = .read → t.port = .ap → ∀ v, (dapAccess t s).1 = .ok v →
        s.wire.length + 1 < (dapAccess t s).2.wire.length) := by
  have hFirst := loop_makes_call false hWf hAligned
  have hLoop := attempts_do Config.maxAttempts (s.loadTxn t false) rfl
  unfold dapAccess
  cases hEnd : attempts Config.maxAttempts (s.loadTxn t false) with
  | mk r u =>
    rw [hEnd] at hFirst hLoop
    cases r with
    | error e => exact ⟨by simpa using hFirst, nofun⟩
    | ok _ =>
      obtain ⟨calls, hDoes, -⟩ := hLoop.does
      have hTxn : u.eng.txn = t := hLoop.txn
      have hCfg : u.cfg = s.cfg := hDoes.cfg
      obtain ⟨hLe, hLt⟩ := afterOk_calls (s := u) (hCfg ▸ hWf)
      rw [hTxn] at hLt
      dsimp only at hFirst ⊢
      rw [endPhase_wire]
      exact ⟨by omega, fun hRead hAp _ _ => by have := hLt hRead hAp; omega⟩

theorem callBound_eq (c : Config) (t : Txn) :
    callBound c t = if t.dir = .read ∧ t.port = .ap then (if c.recoverOnLastAttempt then 28 else 26)
      else if c.recoverOnLastAttempt then 15 else 13 := by
  unfold callBound loopBound
  cases t.dir <;> cases t.port <;> cases c.recoverOnLastAttempt <;> rfl

/-- Settles O41: past its checks the command is its operation, whose calls are counted from both sides. -/
theorem callBounds : Obligations.CallBounds := by
  intro i s t hWf hSwd hTxn hExtract
  have hAligned := offsetAligned_of_extract hExtract
  obtain ⟨op, r, hExec, hResult⟩ := exec_engine hTxn hSwd hAligned
  obtain ⟨calls, hDoes, hMost⟩ := (dapAccess_does t s).does
  obtain ⟨hOne, hTwo⟩ := dapAccess_calls hWf hAligned
  rw [hDoes.wire, List.length_append] at hOne hTwo
  refine ⟨_, calls, hExec, by rw [endEngine_wire, hDoes.wire], by omega, callBound_eq s.cfg t ▸ hMost,
    fun hRead hAp ⟨v, hOk⟩ => ?_⟩
  rcases hResult with ⟨_, w, hw, -⟩ | ⟨e, -, rfl⟩
  · have := hTwo hRead hAp w hw
    omega
  · cases e <;> cases hOk

end Sys2Proof.Proofs.CallCount
end

section
/-! The phase machine of R172: its transitions are the rows of the table, and run from `Request` it comes to what the
attempt loops of R173 and R176 give (assumption log 17). -/

namespace Sys2Proof.Proofs.PhaseMachine

open Sys2Proof Sys2Proof.Machine

/-- From an acknowledged request that is no Access Port read one transition ends the operation (R174, R175). -/
theorem runPhases_okStep {s u : State} {r : Except Exit Word} (hPhase : s.eng.phase = .ok)
    (hStep : okStep s = .stop r u) (n : Nat) : runPhases (n + 1) s = some (r, u) := by
  rw [runPhases, phaseStep, hPhase]
  dsimp only
  rw [hStep]

/-- The follow-up is the attempt loop again, and its acknowledgement is that of a Debug Port read (R176). -/
theorem runPhases_followUp {s : State} {n : Nat} (hMany : 17 ≤ n) (hPhase : s.eng.phase = .ok)
    (hRead : s.eng.txn.dir = .read) (hAp : s.eng.txn.port = .ap) :
    runPhases n s = some (endPhase (followUpRead s)) := by
  obtain ⟨m, rfl⟩ : ∃ m, n = m + 2 := ⟨n - 2, by omega⟩
  have hTwo : runPhases (m + 2) s =
      runPhases m (((s.setPhase .followUp).loadTxn (followUpTxn s.cfg s.eng.txn) true).setPhase .request) := by
    rw [runPhases, phaseStep, hPhase]
    dsimp only
    rw [okStep, hRead, hAp]
    rfl
  rw [hTwo, followUpRead]
  have hTxn := (attempts_do Config.maxAttempts ((s.setPhase .followUp).loadTxn (followUpTxn s.cfg s.eng.txn) true)
    rfl).txn
  rcases runPhases_loop 4 ((s.setPhase .followUp).loadTxn (followUpTxn s.cfg s.eng.txn) true) m rfl (by omega) with
    ⟨e, u, hLoop, hRun⟩ | ⟨u, m', hLoop, hOk, hLeft, hRun⟩
  · rw [hRun, Config.maxAttempts, hLoop]
  · rw [Config.maxAttempts, hLoop] at hTxn ⊢
    obtain ⟨k, rfl⟩ : ∃ k, m' = k + 1 := ⟨m' - 1, by omega⟩
    rw [hRun]
    refine runPhases_okStep hOk ?_ k
    rw [okStep, show u.eng.txn = _ from hTxn]
    rfl

/-- What an acknowledged request leads to, within 17 transitions (R174, R175, R176). -/
theorem runPhases_afterOk {s : State} {n : Nat} (hMany : 17 ≤ n) (hPhase : s.eng.phase = .ok) :
    runPhases n s = some (endPhase (afterOk s)) := by
  obtain ⟨m, rfl⟩ : ∃ m, n = m + 1 := ⟨n - 1, by omega⟩
  unfold afterOk
  cases hDir : s.eng.txn.dir with
  | write => exact runPhases_okStep hPhase (by rw [okStep, hDir]; rfl) m
  | read =>
    cases hPort : s.eng.txn.port with
    | dp => exact runPhases_okStep hPhase (by rw [okStep, hDir, hPort]; rfl) m
    | ap => exact runPhases_followUp hMany hPhase hDir hPort

/-- Settles O42: 14 transitions are enough for the loop of the request, and 17 for what its acknowledgement leads to. -/
theorem phasesAgreeWithLoop : Obligations.PhasesAgreeWithLoop := by
  intro t s n hn
  rw [startPhases, dapAccess]
  rcases runPhases_loop 4 (s.loadTxn t false) n rfl (by omega) with
    ⟨e, u, hLoop, hRun⟩ | ⟨u, m, hLoop, hOk, hLeft, hRun⟩
  · rw [hRun, Config.maxAttempts, hLoop]
  · rw [hRun, Config.maxAttempts, hLoop]
    exact runPhases_afterOk (by omega) hOk

/-- A transition from `s`, in phase `p`, to `u`: a row of the table, within the contract and the configuration. -/
def Follows (p : Phase) (s u : State) : Prop :=
  phaseEdge p u.eng.phase = true ∧ u.eng.txn.addr.extractLsb' 0 2 = 0#2 ∧ u.cfg = s.cfg

theorem follows_finish_error {p : Phase} {s u : State} (e : Exit) (hEdge : phaseEdge p .error = true)
    (hCfg : u.cfg = s.cfg) (hAligned : u.eng.txn.addr.extractLsb' 0 2 = 0#2) :
    Follows p s (PhaseStep.finish (.error e, u)).state :=
  ⟨hEdge, hAligned, hCfg⟩

section

variable {s : State} (hAligned : s.eng.txn.addr.extractLsb' 0 2 = 0#2)

include hAligned

theorem follows_finish_checkedData : Follows .ok s (PhaseStep.finish (checkedData s)).state := by
  rcases checkedData_cases s with ⟨-, hData⟩ | ⟨-, hData⟩
  · rw [hData]; exact ⟨rfl, hAligned, rfl⟩
  · rw [hData]; exact ⟨rfl, hAligned, rfl⟩

/-- `Request`: inside the contract the request has a frame. -/
theorem follows_request (hWf : s.cfg.wf = true) (hPhase : s.eng.phase = .request) :
    Follows .request s (phaseStep s).state := by
  obtain ⟨q, hFrame⟩ := requestFrame_isSome hWf (offsetAligned_of_extract hAligned) s.eng.txn.port s.eng.txn.dir
    s.eng.txn.value
  have hSent : sendRequest s =
      some ((((s.setPhase .request).setAttempt (s.eng.attempt + 1)).swdIo q).setPhase .awaitAck) := by
    unfold sendRequest
    dsimp only [State.setAttempt_cfg, State.setAttempt_eng, State.setPhase_cfg, State.setPhase_eng]
    rw [hFrame]
  rw [phaseStep, hPhase]
  dsimp only
  rw [hSent]
  exact ⟨rfl, hAligned, rfl⟩

/-- `AwaitAck`: the class of the acknowledgement is the next phase. -/
theorem follows_awaitAck (hPhase : s.eng.phase = .awaitAck) : Follows .awaitAck s (phaseStep s).state := by
  obtain ⟨hCfg, hTxn, hResult⟩ := takeAck_does s
  rw [phaseStep, hPhase]
  dsimp only
  rw [← hTxn] at hAligned
  cases hTake : takeAck s with
  | mk r u =>
    rw [hTake] at hCfg hAligned hResult
    rcases hResult with ⟨e, rfl⟩ | ⟨k, rfl, hNext⟩
    · exact follows_finish_error e rfl hCfg hAligned
    · refine ⟨?_, hAligned, hCfg⟩
      rw [show (PhaseStep.go u).state.eng.phase = k.phase from hNext]
      cases k <;> rfl

theorem follows_ok (hPhase : s.eng.phase = .ok) : Follows .ok s (phaseStep s).state := by
  rw [phaseStep, hPhase]
  dsimp only
  unfold okStep
  cases s.eng.txn.dir with
  | write => exact ⟨rfl, hAligned, rfl⟩
  | read =>
    cases s.eng.txn.port with
    | dp => exact follows_finish_checkedData hAligned
    | ap => exact ⟨rfl, hAligned, rfl⟩

/-- The phases of the failed classes: the recovery keeps the Transaction, and leads to another request or to the end. -/
theorem follows_failedClass {k : AckClass} (hFailed : k ≠ .ok) :
    Follows k.phase s (failedClassStep k s).state := by
  have hRecovery := recoverIfAllowed_does k s
  obtain ⟨calls, hDoes, -⟩ := hRecovery.does
  have hEdges : phaseEdge k.phase .error = true ∧ phaseEdge k.phase .request = true := by
    cases k with
    | ok => exact absurd rfl hFailed
    | wait | fault | noAck => exact ⟨rfl, rfl⟩
  have hKept := hRecovery.keeps.txn
  have hCfg := hDoes.cfg
  rw [← hKept] at hAligned
  unfold failedClassStep
  cases hRecover : recoverIfAllowed k s with
  | mk r u =>
    rw [hRecover] at hAligned hCfg
    cases r with
    | error e => exact follows_finish_error e hEdges.1 hCfg hAligned
    | ok _ =>
      dsimp only
      split
      · exact follows_finish_error _ hEdges.1 hCfg hAligned
      · exact ⟨hEdges.2, hAligned, hCfg⟩

end

theorem follows_followUp {s : State} (hWf : s.cfg.wf = true) (hPhase : s.eng.phase = .followUp) :
    Follows .followUp s (phaseStep s).state := by
  obtain ⟨-, -, -, -, -, hRdbuff, -⟩ := (Config.wf_iff s.cfg).1 hWf
  rw [phaseStep, hPhase]
  exact ⟨rfl, hRdbuff, rfl⟩

/-- Settles O43, phase by phase. -/
theorem phaseTransitionsAreTheTable : Obligations.PhaseTransitionsAreTheTable := by
  intro s hWf hAligned hRunning
  change Follows s.eng.phase s (phaseStep s).state
  have hFailed {k : AckClass} (hk : k ≠ .ok) (hStep : phaseStep s = failedClassStep k s) :
      Follows k.phase s (phaseStep s).state := hStep ▸ follows_failedClass hAligned hk
  cases hPhase : s.eng.phase with
  | request => exact follows_request hAligned hWf hPhase
  | awaitAck => exact follows_awaitAck hAligned hPhase
  | ok => exact follows_ok hAligned hPhase
  | wait => exact hFailed (k := .wait) nofun (by rw [phaseStep, hPhase])
  | fault => exact hFailed (k := .fault) nofun (by rw [phaseStep, hPhase])
  | noAck => exact hFailed (k := .noAck) nofun (by rw [phaseStep, hPhase])
  | followUp => exact follows_followUp hWf hPhase
  | idle | done | error => rw [hPhase] at hRunning; cases hRunning

end Sys2Proof.Proofs.PhaseMachine
end

section
/-! The whole next state of an engine command acknowledged at once (R174, R175, R176, R183, R184). -/

namespace Sys2Proof.Proofs.WholeState

open Sys2Proof Sys2Proof.Machine Sys2Proof.Proofs

section

variable {s : State} {ad : BitVec 4} (hAligned : offsetAligned ad = true) (hSwd : s.ps.selectedProtocol = .swd)

include hAligned hSwd

/-- Past its contract and the protocol gate a read is its operation and the end of it (R183). -/
theorem dapRead_eq (p : Port) (x : Nat) :
    dapRead p x ad s = endEngine 0x0#4 ⟨p, x, .read, ad, 0#32⟩
      (readValue (dapAccess ⟨p, x, .read, ad, 0#32⟩ s).1) (dapAccess ⟨p, x, .read, ad, 0#32⟩ s).2 := by
  rw [dapRead, if_neg (by simp [hAligned]), if_neg (by simp [hSwd])]

/-- So is a write (R184). -/
theorem dapWrite_eq (p : Port) (x : Nat) (v : Word) :
    dapWrite p x ad v s = endEngine 0x1#4 ⟨p, x, .write, ad, v⟩
      (writeValue (dapAccess ⟨p, x, .write, ad, v⟩ s).1) (dapAccess ⟨p, x, .write, ad, v⟩ s).2 := by
  rw [dapWrite, if_neg (by simp [hAligned]), if_neg (by simp [hSwd])]

end

/-- The end of an operation keeps its result and sets a phase (R172). -/
theorem endPhase_eq (r : Except Exit Word) (s : State) : ∃ p, endPhase (r, s) = (r, s.setPhase p) := by
  cases r with
  | error e => exact ⟨.error, rfl⟩
  | ok v => exact ⟨.done, rfl⟩

/-- The result of a read whose word was `w` with the parity bit `par` (R175, R183). -/
theorem readValue_checked (w : Word) (par : Bool) :
    readValue (if swdPar32 w = par then .ok w else .error (.raise .incorrectParity)) =
      if swdPar32 w = par then .ok (.word w) else .error (.raise .incorrectParity) := by
  split <;> rfl

/-- The response an engine command gives for its result (R100, R183, R184, R190). -/
def outcome (op : BitVec 4) (t : Txn) (stage : Stage) : Except Exit Value → Response
  | .ok v => .ok v
  | .error (.raise k) => .err k (dapInfo op t.port t.apidx t.addr stage)
  | .error .assert => .assert

theorem endEngine_eq (op : BitVec 4) (t : Txn) (r : Except Exit Value) (s : State) :
    endEngine op t r s = { s with
      eng := { s.eng with phase := .idle, attempt := 0 }
      resp := some (outcome op t (stageOf s.eng.followup) r) } := by
  rcases r with (k | _) | v <;> rfl

/-- The response to a read whose word was `w` with the parity bit `par` (R100, R175). -/
theorem outcome_checked (op : BitVec 4) (t : Txn) (stage : Stage) (w : Word) (par : Bool) :
    outcome op t stage (if swdPar32 w = par then .ok (.word w) else .error (.raise .incorrectParity)) =
      if swdPar32 w = par then .ok (.word w)
      else .err .incorrectParity ⟨some op, some ⟨t.port, t.apidx, t.addr, stage⟩⟩ := by
  split <;> rfl

/-- An acknowledged read request latches all of its frame (R171). -/
theorem attempted_of_read {s : State} (hRead : s.eng.txn.dir = .read) (q : Machine.Seq) (k : AckClass) (bits : Bits) :
    s.attempted q k bits = { s with
      eng := { s.eng with
        phase := k.phase
        attempt := s.eng.attempt + 1
        ack := sampledAck s.cfg bits
        data := sampledData s.cfg bits
        par := sampledPar s.cfg bits }
      buf := .empty
      env := s.env.tail
      wire := s.wire ++ [q.call] } := by
  rw [State.attempted, hRead]
  rfl

/-- Settles O30: the latches of the acknowledged frame, and the end of the command. -/
theorem writeAcknowledgedAtOnce : Obligations.WriteAcknowledgedAtOnce := by
  intro s p x ad v a rest hWf hSwd hAligned hEnv hOk
  have hOffset := offsetAligned_of_extract hAligned
  obtain ⟨q, hFrame⟩ := requestFrame_isSome hWf hOffset p .write v
  refine ⟨q, hFrame, congrArg Host.Outcome.next (?_ : dapWrite p x ad v s = _)⟩
  rw [Acknowledged.dapWrite_acknowledged hOffset hSwd hFrame hEnv hOk, endEngine_eq,
    show rest = s.env.tail by rw [hEnv]; rfl]
  rfl

/-- Settles O31: as for a write, with the word and the parity bit latched too. -/
theorem debugPortReadAcknowledgedAtOnce : Obligations.DebugPortReadAcknowledgedAtOnce := by
  intro s x ad v par a rest hWf hSwd hAligned hEnv hWord
  have hOffset := offsetAligned_of_extract hAligned
  obtain ⟨q, hFrame⟩ := requestFrame_isSome hWf hOffset .dp .read 0#32
  refine ⟨q, hFrame, congrArg Host.Outcome.next (?_ : dapRead .dp x ad s = _)⟩
  rw [Acknowledged.dapRead_acknowledged hOffset hSwd hFrame hEnv hWord, endEngine_eq, outcome_checked,
    show rest = s.env.tail by rw [hEnv]; rfl]
  obtain ⟨-, rfl, rfl⟩ := hWord
  rfl

/-- The follow-up read with the Transaction `f` is its attempt loop, then the result of a Debug Port read (R176). -/
theorem followUpRead_of_error {s z : State} {f : Txn} {e : Exit} (hTxn : followUpTxn s.cfg s.eng.txn = f)
    (hLoop : attempts Config.maxAttempts ((s.setPhase .followUp).loadTxn f true) = (.error e, z)) :
    followUpRead s = (.error e, z) := by
  rw [followUpRead, hTxn, hLoop]

theorem followUpRead_of_ok {s z : State} {f : Txn} (hTxn : followUpTxn s.cfg s.eng.txn = f)
    (hLoop : attempts Config.maxAttempts ((s.setPhase .followUp).loadTxn f true) = (.ok (), z)) :
    followUpRead s = checkedData z := by
  rw [followUpRead, hTxn, hLoop]

/-- A follow-up read acknowledged at its first attempt. -/
theorem followUpRead_acknowledged {s : State} {f : Txn} {q : Machine.Seq} {b : Answer} {rest : List Answer} {w : Word}
    {par : Bool} (hTxn : followUpTxn s.cfg s.eng.txn = f)
    (hFrame : requestFrame s.cfg .dp .read s.cfg.addrRdbuff 0#32 = some q) (hEnv : s.env = b :: rest)
    (hWord : b.GivesWord s.cfg w par) :
    followUpRead s = (if swdPar32 w = par then .ok w else .error (.raise .incorrectParity),
      ((s.setPhase .followUp).loadTxn f true).attempted q .ok b.bits) := by
  subst hTxn
  have hLoop := attempts_ok (n := 4) (s := (s.setPhase .followUp).loadTxn (followUpTxn s.cfg s.eng.txn) true)
    hFrame hEnv hWord.1
  rw [followUpRead_of_ok rfl hLoop]
  exact Acknowledged.checkedData_attempted
    (s := (s.setPhase .followUp).loadTxn (followUpTxn s.cfg s.eng.txn) true) rfl hWord

/-- The whole command, both requests acknowledged at their first attempts. -/
theorem dapRead_followed {s : State} {x : Nat} {ad : BitVec 4} {w : Word} {par : Bool} {q r : Machine.Seq}
    {a b : Answer} {rest : List Answer} (hAligned : offsetAligned ad = true) (hSwd : s.ps.selectedProtocol = .swd)
    (hFrame : requestFrame s.cfg .ap .read ad 0#32 = some q)
    (hBuffer : requestFrame s.cfg .dp .read s.cfg.addrRdbuff 0#32 = some r) (hEnv : s.env = a :: b :: rest)
    (hOk : a.Gives s.cfg .ok) (hWord : b.GivesWord s.cfg w par) :
    dapRead .ap x ad s = endEngine 0x0#4 ⟨.ap, x, .read, ad, 0#32⟩
      (if swdPar32 w = par then .ok (.word w) else .error (.raise .incorrectParity))
      (((((s.loadTxn ⟨.ap, x, .read, ad, 0#32⟩ false).attempted q .ok a.bits).setPhase .followUp).loadTxn
        ⟨.dp, x, .read, s.cfg.addrRdbuff, 0#32⟩ true).attempted r .ok b.bits) := by
  have hAfterOk : afterOk ((s.loadTxn ⟨.ap, x, .read, ad, 0#32⟩ false).attempted q .ok a.bits) =
      (if swdPar32 w = par then .ok w else .error (.raise .incorrectParity), _) :=
    followUpRead_acknowledged (s := (s.loadTxn ⟨.ap, x, .read, ad, 0#32⟩ false).attempted q .ok a.bits)
      (f := ⟨.dp, x, .read, s.cfg.addrRdbuff, 0#32⟩) rfl hBuffer
      (State.attempted_after (s := s.loadTxn ⟨.ap, x, .read, ad, 0#32⟩ false) hEnv).env hWord
  obtain ⟨phase, hEnd⟩ := endPhase_eq _ _
  rw [dapRead_eq hAligned hSwd, Acknowledged.dapAccess_acknowledged hFrame hEnv hOk, hAfterOk, hEnd,
    readValue_checked, Acknowledged.endEngine_setPhase]

/-- Settles O32: the second frame's latches replace the first's, and the result is theirs. -/
theorem accessPortReadFetchesReadBuffer : Obligations.AccessPortReadFetchesReadBuffer := by
  intro s x ad v par a b rest hWf hSwd hAligned hEnv hOk hWord
  have hOffset := offsetAligned_of_extract hAligned
  obtain ⟨q, hFrame⟩ := requestFrame_isSome hWf hOffset .ap .read 0#32
  obtain ⟨r, hBuffer⟩ := rdbuffFrame_exists hWf
  refine ⟨q, r, hFrame, hBuffer, congrArg Host.Outcome.next (?_ : dapRead .ap x ad s = _)⟩
  rw [dapRead_followed hOffset hSwd hFrame hBuffer hEnv hOk hWord, endEngine_eq, outcome_checked,
    attempted_of_read rfl, attempted_of_read rfl, show rest = s.env.tail.tail by rw [hEnv]; rfl,
    List.append_cons s.wire]
  obtain ⟨-, rfl, rfl⟩ := hWord
  rfl

end Sys2Proof.Proofs.WholeState
end

section
/-! Attempt loops on scripted answers, from freshly loaded latches: how each can end, with its calls (R173, R177 to
R182). The configuration is a name of its own, so that the loop of a follow-up reads as the loop of the request. -/

namespace Sys2Proof.Proofs.AttemptLoop

open Sys2Proof Sys2Proof.Machine

/-- The attempt loop for `t` raises `k`, after `calls` and with the answers `rest` left. -/
def Raises (t : Txn) (followup : Bool) (s : State) (k : ErrKind) (calls : List Call) (rest : List Answer) : Prop :=
  ∃ u, attempts Config.maxAttempts (s.loadTxn t followup) = (.error (.raise k), u) ∧
    After (s.loadTxn t followup) u calls rest

/-- The attempt loop for `t` returns, with the acknowledging answer `a` latched. -/
def Returns (t : Txn) (followup : Bool) (s : State) (a : Answer) (calls : List Call) (rest : List Answer) : Prop :=
  ∃ u, attempts Config.maxAttempts (s.loadTxn t followup) = (.ok (), u) ∧
    After (s.loadTxn t followup) u calls rest ∧
    (t.dir = .read → u.eng.data = sampledData s.cfg a.bits ∧ u.eng.par = sampledPar s.cfg a.bits)

section

variable {c : Config} {s : State} (hCfg : s.cfg = c) (hWf : c.wf = true) {t : Txn} {q : Machine.Seq}
  (hFrame : requestFrame c t.port t.dir t.addr t.value = some q) (f : Bool) {as : List Attempt}
  (hValid : ∀ k ∈ as, k.Valid c) {a : Answer} {rest : List Answer}

include hCfg hWf hFrame hValid

theorem returns_of_recovered (hLength : as.length ≤ 4) (hEnv : s.env = as.flatMap Attempt.answers ++ a :: rest)
    (hOk : a.Gives c .ok) :
    Returns t f s a (framesToCalls (as.flatMap (Attempt.frames c q)) ++ [q.call]) rest := by
  subst hCfg
  obtain ⟨u, hLoop, hAfter, -, hLatched⟩ := attempts_recovered_ok (f := f) hWf hFrame hLength hValid hOk hEnv
  exact ⟨u, hLoop, hAfter, hLatched⟩

theorem raises_timeout (hRecover : c.recoverOnLastAttempt = true) (hLength : as.length = 5)
    (hEnv : s.env = as.flatMap Attempt.answers ++ rest) :
    Raises t f s .timeout (framesToCalls (as.flatMap (Attempt.frames c q))) rest :=
  attempts_exhausted as (s.loadTxn t f) Config.maxAttempts hCfg hWf hFrame rfl hLength nofun hRecover hValid hEnv

theorem raises_unrecoverable {cs : Answer} {kind : ErrKind} {r : Machine.Seq}
    (hCtrlstat : swdEncRead c .dp c.addrCtrlstat = some r)
    (hLength : as.length < 4 ∨ as.length = 4 ∧ c.recoverOnLastAttempt = true)
    (hEnv : s.env = as.flatMap Attempt.answers ++ a :: cs :: rest) (hFault : a.Gives c .fault)
    (hKind : cs.Unrecoverable c kind) :
    Raises t f s kind (framesToCalls (as.flatMap (Attempt.frames c q)) ++ [q.call, r.call]) rest := by
  subst hCfg
  obtain ⟨u, hLoop, hAfter⟩ := attempts_unrecoverable (f := f) hWf hFrame hCtrlstat hLength hValid hFault hKind hEnv
  rw [List.append_assoc] at hAfter
  exact ⟨u, hLoop, hAfter⟩

/-- With `RECOVER_ON_LAST_ATTEMPT` false a fifth failed attempt is the end at once (R181). -/
theorem raises_timeout_unrecovered (hRecover : c.recoverOnLastAttempt = false) (hLength : as.length = 4) {k : AckClass}
    (hFailed : k ≠ .ok) (hClass : a.Gives c k) (hEnv : s.env = as.flatMap Attempt.answers ++ a :: rest) :
    Raises t f s .timeout (framesToCalls (as.flatMap (Attempt.frames c q)) ++ [q.call]) rest := by
  obtain ⟨u, hLoop, hAfter, hCount⟩ := attempts_all_recovered (c := c) (q := q) (tail := a :: rest) as
    (s.loadTxn t f) Config.maxAttempts hCfg hWf hFrame rfl (by rw [hLength]; decide) hValid hEnv
  have hCfg' : u.cfg = c := hAfter.cfg.trans hCfg
  have hFrame' : requestFrame u.cfg u.eng.txn.port u.eng.txn.dir u.eng.txn.addr u.eng.txn.value = some q := by
    rw [hCfg', hAfter.txn]
    exact hFrame
  have hLast : (u.attempted q k a.bits).isLastAttempt = true := by
    rw [State.isLastAttempt, State.attempted_attempt, hCount, hLength]
    rfl
  have hAttempted := State.attempted_after (q := q) (k := k) (bits := a.bits) hAfter.env
  have hSkipped : recoverIfAllowed k (u.attempted q k a.bits) = (.ok (), u.attempted q k a.bits) := by
    rw [recoverIfAllowed, hLast, hAttempted.cfg, hCfg', hRecover]
    rfl
  refine ⟨u.attempted q k a.bits, ?_, hAfter.trans hAttempted⟩
  rw [hLoop, hLength, Config.maxAttempts, attempts_succ,
    attemptFrame_script hFrame' hAfter.env (by rw [hCfg']; exact hClass)]
  cases k with
  | ok => exact absurd rfl hFailed
  | wait | noAck | fault => simp only [hSkipped, hLast, if_true]

end

end Sys2Proof.Proofs.AttemptLoop
end

section
/-! An engine command by its attempt loops: what the outside sees of it (R174, R175, R176, R183, R184, R190). -/

namespace Sys2Proof.Proofs.Operation

open Sys2Proof Sys2Proof.Machine Sys2Proof.Proofs Sys2Proof.Proofs.AttemptLoop

/-- `dap_access` of `t` comes to `r`, with the follow-up marker as given, after `calls` and with `rest` left. -/
def Ends (t : Txn) (s : State) (r : Except Exit Word) (followup : Bool) (calls : List Call) (rest : List Answer) :
    Prop :=
  ∃ u, dapAccess t s = (r, u) ∧ u.ps = s.ps ∧ u.env = rest ∧ u.wire = s.wire ++ calls ∧ u.eng.followup = followup

/-- What the outside sees of an instruction: its response, the answers left, its calls, and no change of the probe
state. -/
def Shows (i : Instr) (s : State) (r : Response) (calls : List Call) (rest : List Answer) : Prop :=
  ∃ t, exec i s = .next t ∧ t.resp = some r ∧ t.env = rest ∧ t.ps = s.ps ∧ t.wire = s.wire ++ calls

/-! ### From the loops to `dap_access` -/

section

variable {s : State} {t : Txn} {calls : List Call} {rest : List Answer}

theorem ends_of_raises {k : ErrKind} (h : Raises t false s k calls rest) :
    Ends t s (.error (.raise k)) false calls rest := by
  obtain ⟨u, hLoop, hAfter⟩ := h
  obtain ⟨-, hPs, hEnv, hWire, -, hMarker⟩ := hAfter.loaded
  exact ⟨u.setPhase .error, by rw [dapAccess, hLoop]; rfl, hPs, hEnv, hWire, hMarker⟩

/-- What the acknowledgement of the request leads to is the end of the operation. -/
theorem ends_of_afterOk {u w : State} {r : Except Exit Word} {f : Bool}
    (hLoop : attempts Config.maxAttempts (s.loadTxn t false) = (.ok (), u)) (hAfterOk : afterOk u = (r, w))
    (hPs : w.ps = s.ps) (hEnv : w.env = rest) (hWire : w.wire = s.wire ++ calls) (hMarker : w.eng.followup = f) :
    Ends t s r f calls rest := by
  obtain ⟨phase, hEnd⟩ := WholeState.endPhase_eq r w
  refine ⟨w.setPhase phase, ?_, hPs, hEnv, hWire, hMarker⟩
  rw [dapAccess, hLoop, ← hEnd, ← hAfterOk]

theorem ends_of_write {a : Answer} (hWrite : t.dir = .write) (h : Returns t false s a calls rest) :
    Ends t s (.ok 0#32) false calls rest := by
  obtain ⟨u, hLoop, hAfter, -⟩ := h
  obtain ⟨-, hPs, hEnv, hWire, hTxn, hMarker⟩ := hAfter.loaded
  exact ends_of_afterOk hLoop (by rw [afterOk, hTxn, hWrite]) hPs hEnv hWire hMarker

/-- The result of a read whose word is `v` with the parity bit `p` (R175). -/
theorem checkedData_of_latched {u : State} {v : Word} {p : Bool} (hData : u.eng.data = v) (hPar : u.eng.par = p) :
    checkedData u = (if swdPar32 v = p then .ok v else .error (.raise .incorrectParity), u) := by
  simp only [checkedData, Engine.parityOk, hData, hPar, beq_iff_eq]
  split <;> rfl

theorem ends_of_read {a : Answer} {v : Word} {p : Bool} (hRead : t.dir = .read) (hDp : t.port = .dp)
    (hWord : a.GivesWord s.cfg v p) (h : Returns t false s a calls rest) :
    Ends t s (if swdPar32 v = p then .ok v else .error (.raise .incorrectParity)) false calls rest := by
  obtain ⟨u, hLoop, hAfter, hLatched⟩ := h
  obtain ⟨-, hPs, hEnv, hWire, hTxn, hMarker⟩ := hAfter.loaded
  obtain ⟨hData, hPar⟩ := hLatched hRead
  obtain ⟨-, hv, hp⟩ := hWord
  refine ends_of_afterOk hLoop ?_ hPs hEnv hWire hMarker
  rw [afterOk, hTxn, hRead, hDp]
  exact checkedData_of_latched (hData.trans hv) (hPar.trans hp)

theorem afterOk_of_ap_read {u : State} (hTxn : u.eng.txn = t) (hRead : t.dir = .read) (hAp : t.port = .ap) :
    afterOk u = followUpRead u := by
  rw [afterOk, hTxn, hRead, hAp]

section

variable {a : Answer} (hRead : t.dir = .read) (hAp : t.port = .ap) (h : Returns t false s a calls rest)
  {more : List Call} {left : List Answer}

include hRead hAp h

/-- What the follow-up's loop raises from every state that has the answers after the acknowledgement, the operation
raises. -/
theorem ends_of_followUp_raises {k : ErrKind}
    (hFollow : ∀ w : State, w.cfg = s.cfg → w.env = rest → Raises (followUpTxn s.cfg t) true w k more left) :
    Ends t s (.error (.raise k)) true (calls ++ more) left := by
  obtain ⟨u, hLoop, hAfter, -⟩ := h
  obtain ⟨hCfg, hPs, hEnv, hWire, hTxn, -⟩ := hAfter.loaded
  obtain ⟨z, hSecond, hAfter'⟩ := hFollow (u.setPhase .followUp) hCfg hEnv
  obtain ⟨-, hPs', hEnv', hWire', -, hMarker⟩ := hAfter'.loaded
  refine ends_of_afterOk hLoop ?_ (hPs'.trans hPs) hEnv'
    (by rw [hWire', State.setPhase_wire, hWire, List.append_assoc]) hMarker
  rw [afterOk_of_ap_read hTxn hRead hAp, WholeState.followUpRead_of_error (by rw [hCfg, hTxn]) hSecond]

/-- What the follow-up's loop returns with is the result of the operation, whatever the acknowledged request carried. -/
theorem ends_of_followUp_returns {b : Answer} {v : Word} {p : Bool} (hWord : b.GivesWord s.cfg v p)
    (hFollow : ∀ w : State, w.cfg = s.cfg → w.env = rest → Returns (followUpTxn s.cfg t) true w b more left) :
    Ends t s (if swdPar32 v = p then .ok v else .error (.raise .incorrectParity)) true (calls ++ more) left := by
  obtain ⟨u, hLoop, hAfter, -⟩ := h
  obtain ⟨hCfg, hPs, hEnv, hWire, hTxn, -⟩ := hAfter.loaded
  obtain ⟨z, hSecond, hAfter', hLatched⟩ := hFollow (u.setPhase .followUp) hCfg hEnv
  obtain ⟨-, hPs', hEnv', hWire', -, hMarker⟩ := hAfter'.loaded
  obtain ⟨hData, hPar⟩ := hLatched rfl
  obtain ⟨-, hv, hp⟩ := hWord
  rw [State.setPhase_cfg, hCfg] at hData hPar
  refine ends_of_afterOk hLoop ?_ (hPs'.trans hPs) hEnv'
    (by rw [hWire', State.setPhase_wire, hWire, List.append_assoc]) hMarker
  rw [afterOk_of_ap_read hTxn hRead hAp, WholeState.followUpRead_of_ok (by rw [hCfg, hTxn]) hSecond,
    checkedData_of_latched (hData.trans hv) (hPar.trans hp)]

end

end

/-! ### From `dap_access` to the command -/

section

variable {s : State} (hSwd : s.ps.selectedProtocol = .swd) {ad : BitVec 4} (hAligned : offsetAligned ad = true)
  {p : Port} {x : Nat} {r : Except Exit Word} {f : Bool} {calls : List Call} {rest : List Answer}

include hSwd hAligned

theorem shows_dapWr {v : Word} (h : Ends ⟨p, x, .write, ad, v⟩ s r f calls rest) :
    Shows (.dapWr p x ad v) s (WholeState.outcome 0x1#4 ⟨p, x, .write, ad, v⟩ (stageOf f) (writeValue r)) calls
      rest := by
  obtain ⟨u, hAccess, hPs, hEnv, hWire, rfl⟩ := h
  refine ⟨endEngine 0x1#4 ⟨p, x, .write, ad, v⟩ (writeValue r) u, congrArg Host.Outcome.next ?_,
    by rw [WholeState.endEngine_eq], by rw [endEngine_env, hEnv], by rw [endEngine_ps, hPs],
    by rw [endEngine_wire, hWire]⟩
  rw [WholeState.dapWrite_eq hAligned hSwd, hAccess]

theorem shows_dapRd (h : Ends ⟨p, x, .read, ad, 0#32⟩ s r f calls rest) :
    Shows (.dapRd p x ad) s (WholeState.outcome 0x0#4 ⟨p, x, .read, ad, 0#32⟩ (stageOf f) (readValue r)) calls
      rest := by
  obtain ⟨u, hAccess, hPs, hEnv, hWire, rfl⟩ := h
  refine ⟨endEngine 0x0#4 ⟨p, x, .read, ad, 0#32⟩ (readValue r) u, congrArg Host.Outcome.next ?_,
    by rw [WholeState.endEngine_eq], by rw [endEngine_env, hEnv], by rw [endEngine_ps, hPs],
    by rw [endEngine_wire, hWire]⟩
  rw [WholeState.dapRead_eq hAligned hSwd, hAccess]

end

end Sys2Proof.Proofs.Operation
end

section
/-! The engine commands over scripted attempts (R173 to R182, R190, R243, R247, R249). -/

namespace Sys2Proof.Proofs.Attempts

open Sys2Proof Sys2Proof.Machine Sys2Proof.Proofs Sys2Proof.Proofs.AttemptLoop Sys2Proof.Proofs.Operation

section

variable {s : State} (hWf : s.cfg.wf = true) (hSwd : s.ps.selectedProtocol = .swd) {ad : BitVec 4}
  (hAligned : ad.extractLsb' 0 2 = 0#2) (x : Nat) {k : ErrKind} {rest : List Answer}

include hWf hSwd hAligned

/-- A write and a read fail alike where their attempt loops do. -/
theorem commands_fail (p : Port) (v : Word) {callsOf : Machine.Seq → List Call}
    (hLoop : ∀ (t : Txn) (q : Machine.Seq), requestFrame s.cfg t.port t.dir t.addr t.value = some q →
      Raises t false s k (callsOf q) rest) :
    (∃ q t, swdEncWrite s.cfg p ad v s.cfg.engineWriteIdle = some q ∧ exec (.dapWr p x ad v) s = .next t ∧
      t.resp = some (.err k ⟨some 0x1#4, some ⟨p, x, ad, .main⟩⟩) ∧ t.env = rest ∧ t.ps = s.ps ∧
      t.wire = s.wire ++ callsOf q) ∧
    ∃ q t, swdEncRead s.cfg p ad = some q ∧ exec (.dapRd p x ad) s = .next t ∧
      t.resp = some (.err k ⟨some 0x0#4, some ⟨p, x, ad, .main⟩⟩) ∧ t.env = rest ∧ t.ps = s.ps ∧
      t.wire = s.wire ++ callsOf q := by
  have hOffset := offsetAligned_of_extract hAligned
  obtain ⟨q, hWrite⟩ := requestFrame_isSome hWf hOffset p .write v
  obtain ⟨r, hRead⟩ := requestFrame_isSome hWf hOffset p .read 0#32
  obtain ⟨t, hWrites⟩ := shows_dapWr hSwd hOffset (x := x) (ends_of_raises (hLoop ⟨p, x, .write, ad, v⟩ q hWrite))
  obtain ⟨u, hReads⟩ := shows_dapRd hSwd hOffset (x := x) (ends_of_raises (hLoop ⟨p, x, .read, ad, 0#32⟩ r hRead))
  exact ⟨⟨q, t, hWrite, hWrites⟩, r, u, hRead, hReads⟩

/-- An Access Port read whose follow-up fails, at stage `FollowUp` (R176, R190). -/
theorem read_fails_in_followUp {as : List Attempt} {a : Answer} {mid : List Answer} (hLength : as.length ≤ 4)
    (hValid : ∀ k ∈ as, k.Valid s.cfg) (hOk : a.Gives s.cfg .ok)
    (hEnv : s.env = as.flatMap Attempt.answers ++ a :: mid) {callsOf : Machine.Seq → List Call}
    (hLoop : ∀ (w : State) (t : Txn) (r : Machine.Seq), w.cfg = s.cfg → w.env = mid →
      requestFrame s.cfg t.port t.dir t.addr t.value = some r → Raises t true w k (callsOf r) rest) :
    ∃ q r t, swdEncRead s.cfg .ap ad = some q ∧ swdEncRead s.cfg .dp s.cfg.addrRdbuff = some r ∧
      exec (.dapRd .ap x ad) s = .next t ∧
      t.resp = some (.err k ⟨some 0x0#4, some ⟨.ap, x, ad, .followUp⟩⟩) ∧ t.env = rest ∧ t.ps = s.ps ∧
      t.wire = s.wire ++ (framesToCalls (as.flatMap (Attempt.frames s.cfg q)) ++ [q.call] ++ callsOf r) := by
  have hOffset := offsetAligned_of_extract hAligned
  obtain ⟨q, hFrame⟩ := requestFrame_isSome hWf hOffset .ap .read 0#32
  obtain ⟨r, hBuffer⟩ := rdbuffFrame_exists hWf
  have hMain := returns_of_recovered (t := ⟨.ap, x, .read, ad, 0#32⟩) rfl hWf hFrame false hValid hLength hEnv hOk
  obtain ⟨t, hReads⟩ := shows_dapRd hSwd hOffset
    (ends_of_followUp_raises rfl rfl hMain fun w hCfg hMid => hLoop w _ r hCfg hMid hBuffer)
  exact ⟨q, r, t, hFrame, hBuffer, hReads⟩

end

/-- Settles O35: the loop returns after its recovered attempts, and what it returns with ends the command. -/
theorem recoveredAttemptsThenOk : Obligations.RecoveredAttemptsThenOk := by
  intro s x ad as a rest hWf hSwd hAligned hLength hValid hEnv
  have hOffset := offsetAligned_of_extract hAligned
  simp only [List.append_assoc s.wire]
  refine ⟨fun p v hOk => ?_, fun v par hWord => ?_⟩
  · obtain ⟨q, hFrame⟩ := requestFrame_isSome hWf hOffset p .write v
    have hLoop := returns_of_recovered (t := ⟨p, x, .write, ad, v⟩) rfl hWf hFrame false hValid hLength hEnv hOk
    obtain ⟨t, hWrites⟩ := shows_dapWr hSwd hOffset (ends_of_write rfl hLoop)
    exact ⟨q, t, hFrame, hWrites⟩
  · obtain ⟨q, hFrame⟩ := requestFrame_isSome hWf hOffset .dp .read 0#32
    have hLoop := returns_of_recovered (t := ⟨.dp, x, .read, ad, 0#32⟩) rfl hWf hFrame false hValid hLength hEnv
      hWord.1
    obtain ⟨t, hReads⟩ := shows_dapRd hSwd hOffset (ends_of_read rfl rfl hWord hLoop)
    rw [WholeState.readValue_checked, WholeState.outcome_checked] at hReads
    exact ⟨q, t, hFrame, hReads⟩

/-- Settles O36: two attempt loops, the second from the state the first has left. -/
theorem followUpHasAttemptsOfItsOwn : Obligations.FollowUpHasAttemptsOfItsOwn := by
  intro s x ad as bs a rest hWf hSwd hAligned hLength hValid hOk
  obtain ⟨hMain, hSecond⟩ := List.forall_mem_append.1 hValid
  simp only [List.append_assoc]
  refine ⟨fun b v par hFew hWord hEnv => ?_, fun hFive hRecover hEnv => ?_⟩
  · have hOffset := offsetAligned_of_extract hAligned
    obtain ⟨q, hFrame⟩ := requestFrame_isSome hWf hOffset .ap .read 0#32
    obtain ⟨r, hBuffer⟩ := rdbuffFrame_exists hWf
    have hLoop := returns_of_recovered (t := ⟨.ap, x, .read, ad, 0#32⟩) rfl hWf hFrame false hMain hLength hEnv hOk
    obtain ⟨t, hReads⟩ := shows_dapRd hSwd hOffset
      (ends_of_followUp_returns rfl rfl hLoop hWord fun w hCfg hMid =>
        returns_of_recovered hCfg hWf hBuffer true hSecond hFew hMid hWord.1)
    rw [WholeState.readValue_checked, WholeState.outcome_checked] at hReads
    simp only [List.append_assoc] at hReads
    exact ⟨q, r, t, hFrame, hBuffer, hReads⟩
  · have hFails := read_fails_in_followUp hWf hSwd hAligned x hLength hMain hOk hEnv fun w t r hCfg hMid hFrame =>
      raises_timeout hCfg hWf hFrame true hSecond hRecover hFive hMid
    simp only [List.append_assoc] at hFails
    exact hFails

/-- Settles O37: the loop ends with its fifth attempt, recovered or not. -/
theorem fiveFailedAttemptsTimeOut : Obligations.FiveFailedAttemptsTimeOut := by
  intro s p x ad v as rest hWf hSwd hAligned hValid
  simp only [List.append_assoc s.wire]
  refine ⟨fun hRecover hFive hEnv => ?_, fun hRecover hFour a k hFailed hClass hEnv => ?_⟩
  · exact commands_fail hWf hSwd hAligned x p v fun t q hFrame =>
      raises_timeout rfl hWf hFrame false hValid hRecover hFive hEnv
  · exact commands_fail hWf hSwd hAligned x p v fun t q hFrame =>
      raises_timeout_unrecovered rfl hWf hFrame false hValid hRecover hFour hFailed hClass hEnv

/-- Settles O38: the loop of the request or of the follow-up ends with the CTRL/STAT read. -/
theorem unrecoverableFaultEndsTheOperation : Obligations.UnrecoverableFaultEndsTheOperation := by
  intro s x ad as rest kind hWf hSwd hAligned hValid
  obtain ⟨c, hCtrlstat⟩ := ctrlstatFrame_exists hWf
  simp only [List.append_assoc]
  refine ⟨c, hCtrlstat, fun p v a cs hAllowed hEnv hFault hKind => ?_,
    fun a bs b cs hLength hOk hSecond hAllowed hEnv hFault hKind => ?_⟩
  · exact commands_fail hWf hSwd hAligned x p v fun t q hFrame =>
      raises_unrecoverable rfl hWf hFrame false hValid hCtrlstat hAllowed hEnv hFault hKind
  · have hFails := read_fails_in_followUp hWf hSwd hAligned x hLength hValid hOk hEnv fun w t r hCfg hMid hFrame =>
      raises_unrecoverable hCfg hWf hFrame true hSecond hCtrlstat hAllowed hMid hFault hKind
    simp only [List.append_assoc] at hFails
    exact hFails

end Sys2Proof.Proofs.Attempts
end

section
/-! The probe-state commands that send no JTAG frame, by their whole next state: protocol, speed, idle count, reset
line, initialisation and line reset (R210 to R217, R225). -/

namespace Sys2Proof.Proofs.ProbeCommands

open Sys2Proof Sys2Proof.Machine

section

variable {op : BitVec 4} {c : Call} {s : State} {onDone : State → State}

theorem callThen_of_done (hDone : s.answer.failed = false) :
    callThen op c s onDone = (onDone (s.called c)).respond (.ok .unit) :=
  if_neg (by simp [hDone])

theorem callThen_of_failed (hFailed : s.answer.failed = true) :
    callThen op c s onDone = (s.called c).raise .probeSpecific (opInfo op) :=
  if_pos hFailed

end

/-- A protocol that is not supported stops at the check (R210). -/
theorem exec_protoSel_unsupported {s : State} {p : Protocol} (hNo : supports s.cfg p = false) :
    exec (.protoSel p) s = .next (s.raise .unsupportedProtocol (opInfo 0x3#4)) :=
  congrArg Host.Outcome.next (if_pos hNo)

theorem exec_protoSel_supported {s : State} {p : Protocol} (hYes : supports s.cfg p = true) :
    exec (.protoSel p) s =
      .next (callThen 0x3#4 (.tpSelect p) (s.setIr none) fun s1 => s1.setProtocol p) :=
  congrArg Host.Outcome.next (if_neg (by simp [hYes]))

/-- Settles O25: the support check, then the call with the cache already invalidated. -/
theorem protocolSelect : Obligations.ProtocolSelect := by
  intro s p
  refine ⟨exec_protoSel_unsupported, fun hYes hDone => ?_, fun hYes hFailed => ?_⟩
  · rw [exec_protoSel_supported hYes, callThen_of_done (s := s.setIr none) hDone]
    rfl
  · rw [exec_protoSel_supported hYes, callThen_of_failed (s := s.setIr none) hFailed]
    rfl

/-- Settles O26: each is its meaning, an outcome on the response port over at most one register written. -/
theorem commandsWithoutCalls : Obligations.CommandsWithoutCalls := fun _ => ⟨rfl, rfl, fun _ => rfl⟩

section

variable {s : State} {k : Nat}

theorem exec_speedSet_actual {k2 : Nat} (hAnswer : s.speedAnswer k = .actual k2) :
    exec (.speedSet k) s = .next (((s.called (.tpSetSpeed k)).setSpeed k2).respond (.ok (.speed k2))) := by
  simp only [exec, execSpeedSet, hAnswer]

theorem exec_speedSet_unsupported (hAnswer : s.speedAnswer k = .unsupported) :
    exec (.speedSet k) s = .next ((s.called (.tpSetSpeed k)).raise .unsupportedSpeed (opInfo 0x5#4)) := by
  simp only [exec, execSpeedSet, hAnswer]

theorem exec_speedSet_failed (hAnswer : s.speedAnswer k = .failed) :
    exec (.speedSet k) s = .next ((s.called (.tpSetSpeed k)).raise .probeSpecific (opInfo 0x5#4)) := by
  simp only [exec, execSpeedSet, hAnswer]

end

/-- Settles O27, by the three answers of the transport to a speed. -/
theorem speedSet : Obligations.SpeedSet := by
  intro s k
  refine ⟨fun k2 hDone hAccept => exec_speedSet_actual ?_, fun hDone hAccept => exec_speedSet_unsupported ?_,
    fun hFailed => exec_speedSet_failed ?_⟩
  · simp [State.speedAnswer, hDone, hAccept]
  · simp [State.speedAnswer, hDone, hAccept]
  · simp [State.speedAnswer, hFailed]

/-- The outcome of a command of opcode `op` that ends with one call and returns nothing (R105, R245). -/
def callOutcome (op : BitVec 4) (failed : Bool) : Response :=
  if failed then .err .probeSpecific ⟨some op, none⟩ else .ok .unit

/-- A call after which the command does nothing more. -/
theorem callThen_id (op : BitVec 4) (c : Call) (s : State) :
    callThen op c s id = (s.called c).respond (callOutcome op s.answer.failed) := by
  cases hFailed : s.answer.failed with
  | false => exact callThen_of_done hFailed
  | true => exact callThen_of_failed hFailed

/-- Settles O28: the cache is invalidated before the call, whose answer decides the outcome alone. -/
theorem resetLineCommands : Obligations.ResetLineCommands := by
  intro s i op level hCommand
  rcases hCommand with ⟨rfl, rfl, rfl⟩ | ⟨rfl, rfl, rfl⟩
  · exact congrArg Host.Outcome.next (callThen_id 0x8#4 (.tpReset .asserted) (s.setIr none))
  · exact congrArg Host.Outcome.next (callThen_id 0x9#4 (.tpReset .released) (s.setIr none))

/-- The line reset as a command: one frame, released, and an outcome by its answer alone (R127, R217, R225). -/
theorem conclude_lineReset (op : BitVec 4) (s : State) :
    (lineReset s).2.conclude (opInfo op) (unitValue (lineReset s).1) =
      (s.called (swdEncLineReset s.cfg).call).release.respond (callOutcome op s.answer.failed) := by
  rw [lineReset_eq]
  cases s.answer.failed with
  | false => rfl
  | true => rfl

theorem exec_attach_swd {s : State} (hSwd : s.ps.selectedProtocol = .swd) :
    exec .attach s = .next ((lineReset (s.setIr none)).2.conclude (opInfo 0xA#4)
      (unitValue (lineReset (s.setIr none)).1)) := by
  simp only [exec, execAttach, State.setIr_ps, hSwd]

theorem exec_attach_jtag {s : State} (hJtag : s.ps.selectedProtocol = .jtag) :
    exec .attach s = .next ((s.setIr none).respond (.ok .unit)) := by
  simp only [exec, execAttach, State.setIr_ps, hJtag]

theorem exec_lrst_swd {s : State} (hSwd : s.ps.selectedProtocol = .swd) :
    exec .lrst s = .next ((lineReset s).2.conclude (opInfo 0x2#4) (unitValue (lineReset s).1)) :=
  congrArg Host.Outcome.next (if_neg (by simp [hSwd]))

theorem exec_lrst_jtag {s : State} (hJtag : s.ps.selectedProtocol = .jtag) :
    exec .lrst s = .next (s.raise .unsupportedProtocol (opInfo 0x2#4)) :=
  congrArg Host.Outcome.next (if_pos (by simp [hJtag]))

/-- Settles O29: in `Swd` both are the line reset, `ATTACH` over the cache invalidated; in `Jtag` neither makes a
call. -/
theorem attachAndLineReset : Obligations.AttachAndLineReset := by
  intro s
  refine ⟨fun hSwd => ⟨?_, ?_⟩, fun hJtag => ⟨exec_attach_jtag hJtag, exec_lrst_jtag hJtag⟩⟩
  · rw [exec_attach_swd hSwd, conclude_lineReset]
    rfl
  · rw [exec_lrst_swd hSwd, conclude_lineReset]
    rfl

end Sys2Proof.Proofs.ProbeCommands
end

section
/-! The JTAG register commands on answers that do not fail, by their whole next state (R218 to R222, R226). -/

namespace Sys2Proof.Proofs.JtagCommands

open Sys2Proof Sys2Proof.Machine Sys2Proof.Proofs

/-- In `Jtag`, inside the contract and with a length that is implemented, a JTAG command is what it executes (R251). -/
theorem jtagChecked_of_pass {op : BitVec 4} {contract : Bool} {len : Nat} {s : State} {run : State → State}
    (hContract : contract = true) (hShort : len ≤ 8) (hJtag : s.ps.selectedProtocol = .jtag) :
    jtagChecked op contract len s run = run s := by
  have hLimit : ¬ Config.maxIrLen < len := Nat.not_lt.2 hShort
  rw [jtagChecked, if_neg (by simp [hContract]), if_neg hLimit, if_neg (by simp [hJtag])]

/-- Settles O55: past its checks the command is `write_ir`, with every frame answered. -/
theorem writeInstructionRegister : Obligations.WriteInstructionRegister := by
  intro s v len script rest hJtag hPos hShort hFits hEnv hAnswered
  have hWrite := writeIr_script (JtagFrames.jtagEncIr_of_fits hPos hShort hFits) hEnv hAnswered
  refine congrArg Host.Outcome.next ((jtagChecked_of_pass (irContract_of hPos hFits) hShort hJtag).trans ?_)
  rw [hWrite]
  rfl

theorem length_drFrame_tms {bits : Bits} (hPos : 1 ≤ bits.length) : (drFrame bits).tms.length = bits.length + 5 := by
  simp [drFrame]
  omega

/-- A data-register frame of `n` bits has five clocks more (R97). -/
theorem length_tms_of_jtagEncDr {c : Config} {bytes : List Byte} {n : Nat} {q : JSeq}
    (hFrame : jtagEncDr c bytes n = some q) : q.tms.length = n + 5 := by
  obtain ⟨hContract, -, rfl⟩ := (jtagEncDr_eq_some_iff c bytes n q).1 hFrame
  obtain ⟨hPos, -⟩ := (drContract_iff c n).1 hContract
  rw [length_drFrame_tms (by simpa using hPos), length_unpackAll]

/-- A field that lies within the vector, bit by bit. -/
theorem slice_eq_map_range {w : Bits} {i n : Nat} (hLength : i + n ≤ w.length) :
    slice w i n = (List.range n).map fun k => w.getD (i + k) false := by
  refine List.ext_getElem? fun k => ?_
  rw [getElem?_slice]
  by_cases hk : k < n
  · have hIn : i + k < w.length := by omega
    simp [hk, hIn]
  · simp [hk]

/-- `jtag_idle` after a shift, whose buffers are released, with its frame, if any, answered (R222, R32). -/
theorem jtagIdle_released {s : State} {script rest : List Answer} (hBuf : s.buf = .empty)
    (hEnv : s.env = script ++ rest) (hIdle : AllAnswered script (idleCalls s.ps.jtagIdleCycles)) :
    jtagIdle s = (.ok (),
      { s with env := rest, wire := s.wire ++ idleCalls s.ps.jtagIdleCycles, buf := .empty }) := by
  rw [jtagIdle_script hEnv hIdle, hBuf, ite_self]

/-- `shift_dr` with its frame and the idle frame, if any, answered (R226): the register is what the answer lists. -/
theorem shiftDr_script {s : State} {bytes : List Byte} {n : Nat} {q : JSeq} {d : Answer} {post rest : List Answer}
    (hFrame : jtagEncDr s.cfg bytes n = some q) (hEnv : s.env = d :: (post ++ rest)) (hDone : d.failed = false)
    (hBits : n + 5 ≤ d.bits.length) (hIdle : AllAnswered post (idleCalls s.ps.jtagIdleCycles)) :
    shiftDr bytes n s = (.ok (packBits ((List.range n).map fun k => d.bits.getD (3 + k) false)),
      { s with env := rest, wire := s.wire ++ q.call :: idleCalls s.ps.jtagIdleCycles, buf := .empty }) := by
  obtain ⟨tdo, hSample⟩ := sample_isSome hDone s.wire.length q.tms.length
  have hCaptured : capturedBytes tdo n = packBits ((List.range n).map fun k => d.bits.getD (3 + k) false) := by
    rw [length_tms_of_jtagEncDr hFrame] at hSample
    rw [capturedBytes, slice_of_sample hSample (by omega) (by omega), slice_eq_map_range (by omega)]
  have hThen := jtagIdle_released (s := (s.called q.call).release) (rest := rest) rfl (congrArg List.tail hEnv) hIdle
  unfold shiftDr
  rw [hFrame]
  dsimp only
  rw [jtagShift_eq, State.answer_of_env hEnv, hSample]
  dsimp only
  rw [hThen, hCaptured, State.release_wire, State.called_wire, List.append_assoc]
  rfl

/-- What `JTAG.RD` and `JTAG.WR` execute, every frame answered (R219, R220): `ensure_ir`, then `shift_dr`. -/
theorem jtagAccess_script {s : State} {v : BitVec 8} {len : Nat} {bytes : List Byte} {n : Nat} {q : JSeq}
    {pre post rest : List Answer} {d : Answer} (hIr : jtagEncIr v len = .ok (irFrame v len))
    (hFrame : jtagEncDr s.cfg bytes n = some q) (hEnv : s.env = pre ++ d :: (post ++ rest))
    (hPre : AllAnswered pre (irCalls s.ps.currentIrRegister s.ps.jtagIdleCycles v len)) (hDone : d.failed = false)
    (hBits : n + 5 ≤ d.bits.length) (hPost : AllAnswered post (idleCalls s.ps.jtagIdleCycles)) :
    jtagAccess v len bytes n s = (.ok (packBits ((List.range n).map fun k => d.bits.getD (3 + k) false)),
      { s with
        ps := { s.ps with currentIrRegister := some v }
        buf := .empty
        env := rest
        wire := s.wire ++ irCalls s.ps.currentIrRegister s.ps.jtagIdleCycles v len ++ q.call ::
          idleCalls s.ps.jtagIdleCycles }) := by
  obtain ⟨b, hEnsure⟩ := ensureIr_script hIr hEnv hPre
  unfold jtagAccess
  rw [hEnsure]
  exact shiftDr_script hFrame rfl hDone hBits hPost

/-- A JTAG access of opcode `op` and its end (R219, R220). -/
def accessAndEnd (op : BitVec 4) (v : BitVec 8) (len : Nat) (bytes : List Byte) (n : Nat) (s : State) : State :=
  (jtagAccess v len bytes n s).2.conclude (opInfo op) (bytesValue (jtagAccess v len bytes n s).1)

theorem exec_jtagRd (v : BitVec 8) (len n : Nat) (s : State) :
    exec (.jtagRd v len n) s = .next (jtagChecked 0xC#4 (irContract v len && drContract s.cfg n) len s
      (accessAndEnd 0xC#4 v len (zeroBytes n) n)) := rfl

/-- With as many bytes as its register has, a write has the contract of a read (R250 cause (6)). -/
theorem exec_jtagWr_of_length {n : Nat} {data : List Byte} (hLength : data.length = ceilDiv8 n) (v : BitVec 8)
    (len : Nat) (s : State) :
    exec (.jtagWr v len n data) s = .next (jtagChecked 0xD#4 (irContract v len && drContract s.cfg n) len s
      (accessAndEnd 0xD#4 v len data n)) := by
  have hData : dataContract n data = true := decide_eq_true hLength
  rw [exec, execJtagWr, hData, Bool.and_true]
  rfl

theorem length_zeroBytes (n : Nat) : (zeroBytes n).length = ceilDiv8 n := List.length_replicate

/-- Settles O56: both commands are one access, of the zeros a read shifts in or of the data of a write. -/
theorem dataRegisterAccess : Obligations.DataRegisterAccess := by
  intro s v len n data pre post rest d i hJtag hPos hShort hFits hBitsPos hMax hCommand hEnv hPre hDone hBits hPost
  have hLength : data.length = ceilDiv8 n := by
    rcases hCommand with ⟨-, rfl⟩ | ⟨-, hLength⟩
    · exact length_zeroBytes n
    · exact hLength
  have hFrame := JtagFrames.jtagEncDr_of_domain hMax hBitsPos hLength
  have hAccess := jtagAccess_script (JtagFrames.jtagEncIr_of_fits hPos hShort hFits) hFrame hEnv hPre hDone hBits hPost
  have hContract : (irContract v len && drContract s.cfg n) = true :=
    Bool.and_eq_true_iff.2 ⟨irContract_of hPos hFits, (drContract_iff s.cfg n).2 ⟨hBitsPos, hMax⟩⟩
  refine ⟨_, hFrame, ?_⟩
  rcases hCommand with ⟨rfl, rfl⟩ | ⟨rfl, -⟩
  · rw [exec_jtagRd, jtagChecked_of_pass hContract hShort hJtag, accessAndEnd, zeroBytes, ceilDiv8, hAccess]
    rfl
  · rw [exec_jtagWr_of_length hLength, jtagChecked_of_pass hContract hShort hJtag, accessAndEnd, hAccess]
    rfl

/-! ### A read is a write of zeros -/

/-- `t` and `u` differ in the response alone, and there in nothing but the opcode an error names: `op` in `t`, `op'` in
`u` (R258). -/
structure SameButOpcode (op op' : BitVec 4) (t u : State) : Prop where
  state : u = { t with resp := u.resp }
  resp : t.resp = u.resp ∨ ∃ k, t.resp = some (.err k ⟨some op, none⟩) ∧ u.resp = some (.err k ⟨some op', none⟩)

theorem sameButOpcode_refl (op op' : BitVec 4) (t : State) : SameButOpcode op op' t t := ⟨rfl, .inl rfl⟩

theorem raise_sameButOpcode (op op' : BitVec 4) (s : State) (k : ErrKind) :
    SameButOpcode op op' (s.raise k (opInfo op)) (s.raise k (opInfo op')) :=
  ⟨rfl, .inr ⟨k, rfl, rfl⟩⟩

theorem conclude_sameButOpcode (op op' : BitVec 4) (s : State) (r : Except Exit Value) :
    SameButOpcode op op' (s.conclude (opInfo op) r) (s.conclude (opInfo op') r) := by
  rcases r with (k | _) | value
  · exact raise_sameButOpcode ..
  · exact sameButOpcode_refl ..
  · exact sameButOpcode_refl ..

/-- The checks of R251 do not depend on the opcode. -/
theorem jtagChecked_sameButOpcode {op op' : BitVec 4} {s : State} {run run' : State → State} (contract : Bool)
    (len : Nat) (hRun : SameButOpcode op op' (run s) (run' s)) :
    SameButOpcode op op' (jtagChecked op contract len s run) (jtagChecked op' contract len s run') := by
  unfold jtagChecked
  split
  · exact sameButOpcode_refl ..
  split
  · exact raise_sameButOpcode ..
  split
  · exact raise_sameButOpcode ..
  · exact hRun

/-- Settles O57: zeros pass the check on the data, so both commands have one contract, and both execute one access. -/
theorem readIsWriteOfZeros : Obligations.ReadIsWriteOfZeros := by
  intro s v len n
  obtain ⟨hState, hResp⟩ := jtagChecked_sameButOpcode (op := 0xC#4) (op' := 0xD#4) (s := s)
    (run := accessAndEnd 0xC#4 v len (zeroBytes n) n) (run' := accessAndEnd 0xD#4 v len (zeroBytes n) n)
    (irContract v len && drContract s.cfg n) len (conclude_sameButOpcode ..)
  exact ⟨_, _, exec_jtagRd v len n s, exec_jtagWr_of_length (length_zeroBytes n) v len s, hState, hResp⟩

end Sys2Proof.Proofs.JtagCommands
end

section
/-! The instruction-register cache (R224): what each command leaves in it. -/

namespace Sys2Proof.Proofs.Cache

open Sys2Proof Sys2Proof.Machine Sys2Proof.Proofs

/-! ### The commands that invalidate it -/

theorem cache_none_of_next {i : Instr} {s t u : State} (hExec : exec i s = .next t) (hWhole : exec i s = .next u)
    (hNone : u.ps.currentIrRegister = none) : t.ps.currentIrRegister = none := by
  rw [hWhole] at hExec
  cases hExec
  exact hNone

theorem cache_none_of_protoSel {s t : State} {p : Protocol} (hYes : supports s.cfg p = true)
    (hExec : exec (.protoSel p) s = .next t) : t.ps.currentIrRegister = none := by
  obtain ⟨-, hDone, hFailed⟩ := ProbeCommands.protocolSelect s p
  cases hAnswer : s.answer.failed with
  | false => exact cache_none_of_next hExec (hDone hYes hAnswer) rfl
  | true => exact cache_none_of_next hExec (hFailed hYes hAnswer) rfl

theorem cache_none_of_resetLine {i : Instr} {s t : State} (hCommand : i = .rstAssert ∨ i = .rstDeassert)
    (hExec : exec i s = .next t) : t.ps.currentIrRegister = none := by
  rcases hCommand with rfl | rfl
  · exact cache_none_of_next hExec (ProbeCommands.resetLineCommands s _ _ _ (.inl ⟨rfl, rfl, rfl⟩)) rfl
  · exact cache_none_of_next hExec (ProbeCommands.resetLineCommands s _ _ _ (.inr ⟨rfl, rfl, rfl⟩)) rfl

theorem cache_none_of_attach {s t : State} (hExec : exec .attach s = .next t) : t.ps.currentIrRegister = none := by
  obtain ⟨hSwd, hJtag⟩ := ProbeCommands.attachAndLineReset s
  cases hProtocol : s.ps.selectedProtocol with
  | swd =>
    obtain ⟨hAttach, -⟩ := hSwd hProtocol
    exact cache_none_of_next hExec hAttach rfl
  | jtag =>
    obtain ⟨hAttach, -⟩ := hJtag hProtocol
    exact cache_none_of_next hExec hAttach rfl

/-! ### The JTAG commands, which write it -/

/-- `i` is a JTAG command on the instruction-register value `v` of `len` bits. -/
def IsJtagOn (i : Instr) (v : BitVec 8) (len : Nat) : Prop :=
  i = .jtagWir v len ∨ (∃ n, i = .jtagRd v len n) ∨ ∃ n d, i = .jtagWr v len n d

/-- What a JTAG command on `v` can leave in the cache: what was there, where a check stopped it; nothing, where a call
failed; `v`, where it completed, and then its frame came first unless the cache held `v` already (R221, R224). -/
inductive CacheAfter (v : BitVec 8) (len : Nat) (s t : State) : Prop
  | stopped (kept : t.ps.currentIrRegister = s.ps.currentIrRegister)
      (noFailure : ∀ info, t.resp ≠ some (.err .probeSpecific info))
  | failed (invalid : t.ps.currentIrRegister = none) (failure : ∃ info, t.resp = some (.err .probeSpecific info))
  | completed (holds : t.ps.currentIrRegister = some v) (ok : ∃ r, t.resp = some (.ok r))
      (frame : s.ps.currentIrRegister ≠ some v → ∃ rest, t.wire = s.wire ++ (irFrame v len).call :: rest)

section

variable {v : BitVec 8} {len : Nat} {s : State}

theorem cacheAfter_jtagChecked {op : BitVec 4} {contract : Bool} {run : State → State}
    (hRun : contract = true → len ≤ Config.maxIrLen → CacheAfter v len s (run s)) :
    CacheAfter v len s (jtagChecked op contract len s run) := by
  unfold jtagChecked
  split
  · exact .stopped rfl (by simp)
  split
  · exact .stopped rfl (by simp)
  split
  · exact .stopped rfl (by simp)
  · next hContract hShort _ => exact hRun (by simpa using hContract) (Nat.not_lt.1 hShort)

/-- The end of a procedure whose result says what the cache holds. -/
theorem cacheAfter_conclude {u : State} {r : Except Exit Value} (info : Info)
    (hEnd : (∃ value, r = .ok value) ∧ u.ps.currentIrRegister = some v ∨
      r = .error (.raise .probeSpecific) ∧ u.ps.currentIrRegister = none)
    (hFrame : s.ps.currentIrRegister ≠ some v → ∃ rest, u.wire = s.wire ++ (irFrame v len).call :: rest) :
    CacheAfter v len s (u.conclude info r) := by
  rcases hEnd with ⟨⟨value, rfl⟩, hHolds⟩ | ⟨rfl, hNone⟩
  · exact .completed hHolds ⟨value, rfl⟩ hFrame
  · exact .failed hNone ⟨info, rfl⟩

variable (hIr : jtagEncIr v len = .ok (irFrame v len))

include hIr

theorem cacheAfter_writeIr (op : BitVec 4) :
    CacheAfter v len s ((writeIr v len s).2.conclude (opInfo op) (unitValue (writeIr v len s).1)) := by
  refine cacheAfter_conclude _ ?_ fun _ => writeIr_wire hIr
  obtain ⟨-, ⟨hOk, hHolds⟩ | ⟨hFailed, hNone⟩⟩ := writeIr_does s hIr
  · exact .inl ⟨by rw [hOk]; exact ⟨_, rfl⟩, hHolds⟩
  · exact .inr ⟨by rw [hFailed]; rfl, hNone⟩

theorem cacheAfter_access (op : BitVec 4) {bytes : List Byte} {n : Nat} {q : JSeq}
    (hDr : jtagEncDr s.cfg bytes n = some q) : CacheAfter v len s (JtagCommands.accessAndEnd op v len bytes n s) := by
  refine cacheAfter_conclude _ ?_ (jtagAccess_wire hIr hDr)
  obtain ⟨-, ⟨⟨bs, hOk⟩, hHolds⟩ | ⟨hFailed, hNone⟩⟩ := jtagAccess_does s hIr hDr
  · exact .inl ⟨by rw [hOk]; exact ⟨_, rfl⟩, hHolds⟩
  · exact .inr ⟨by rw [hFailed]; rfl, hNone⟩

end

theorem cacheAfter_exec {i : Instr} {v : BitVec 8} {len : Nat} {s t : State} (hCommand : IsJtagOn i v len)
    (hExec : exec i s = .next t) : CacheAfter v len s t := by
  rcases hCommand with rfl | ⟨n, rfl⟩ | ⟨n, data, rfl⟩
  · cases hExec
    exact cacheAfter_jtagChecked fun hContract hShort => cacheAfter_writeIr (jtagEncIr_eq_ok hContract hShort) _
  · cases hExec
    refine cacheAfter_jtagChecked fun hContract hShort => ?_
    obtain ⟨hIr, hDr⟩ := Bool.and_eq_true_iff.1 hContract
    exact cacheAfter_access (jtagEncIr_eq_ok hIr hShort) 0xC#4
      ((jtagEncDr_eq_some_iff ..).2 ⟨hDr, JtagCommands.length_zeroBytes n, rfl⟩)
  · cases hExec
    refine cacheAfter_jtagChecked fun hContract hShort => ?_
    obtain ⟨hBoth, hData⟩ := Bool.and_eq_true_iff.1 hContract
    obtain ⟨hIr, hDr⟩ := Bool.and_eq_true_iff.1 hBoth
    exact cacheAfter_access (jtagEncIr_eq_ok hIr hShort) 0xD#4
      ((jtagEncDr_eq_some_iff ..).2 ⟨hDr, of_decide_eq_true hData, rfl⟩)

theorem exists_isJtagOn {i : Instr}
    (hCommand : (∃ v l, i = .jtagWir v l) ∨ (∃ v l n, i = .jtagRd v l n) ∨ ∃ v l n d, i = .jtagWr v l n d) :
    ∃ v len, IsJtagOn i v len := by
  rcases hCommand with ⟨v, len, rfl⟩ | ⟨v, len, n, rfl⟩ | ⟨v, len, n, data, rfl⟩
  · exact ⟨v, len, .inl rfl⟩
  · exact ⟨v, len, .inr (.inl ⟨n, rfl⟩)⟩
  · exact ⟨v, len, .inr (.inr ⟨n, data, rfl⟩)⟩

/-- A command that has a transport failure for its outcome has not left the cache as it was (R224). -/
theorem CacheAfter.none_of_failure {v : BitVec 8} {len : Nat} {s t : State} (h : CacheAfter v len s t) {info : Info}
    (hFailure : t.resp = some (.err .probeSpecific info)) : t.ps.currentIrRegister = none := by
  cases h with
  | stopped kept noFailure => exact absurd hFailure (noFailure info)
  | failed invalid failure => exact invalid
  | completed holds ok frame =>
    obtain ⟨r, hOk⟩ := ok
    rw [hOk] at hFailure
    cases hFailure

/-- A value that was not cached before is the command's own, and its frame is the first call (R221, R224). -/
theorem CacheAfter.frame_of_new_value {v w : BitVec 8} {len : Nat} {s t : State} (h : CacheAfter v len s t)
    (hNow : t.ps.currentIrRegister = some w) (hBefore : s.ps.currentIrRegister ≠ some w) :
    v = w ∧ (∃ r, t.resp = some (.ok r)) ∧ ∃ rest, t.wire = s.wire ++ (irFrame v len).call :: rest := by
  cases h with
  | stopped kept noFailure => exact absurd (kept.symm.trans hNow) hBefore
  | failed invalid failure => rw [invalid] at hNow; cases hNow
  | completed holds ok frame =>
    obtain rfl : v = w := Option.some.inj (holds.symm.trans hNow)
    exact ⟨rfl, ok, frame hBefore⟩

/-- Only a failed call makes a JTAG command invalidate the cache (R224). -/
theorem CacheAfter.failure_of_invalidated {v : BitVec 8} {len : Nat} {s t : State} (h : CacheAfter v len s t)
    (hNow : t.ps.currentIrRegister = none) (hBefore : s.ps.currentIrRegister ≠ none) :
    ∃ info, t.resp = some (.err .probeSpecific info) := by
  cases h with
  | stopped kept noFailure => exact absurd (kept.symm.trans hNow) hBefore
  | failed invalid failure => exact failure
  | completed holds ok frame => rw [holds] at hNow; cases hNow

/-- A value newly in the cache comes from a JTAG command; no other instruction caches one (R24, R224). -/
theorem isJtagOn_of_new_value {i : Instr} {s t : State} {w : BitVec 8} (hExec : exec i s = .next t)
    (hNow : t.ps.currentIrRegister = some w) (hBefore : s.ps.currentIrRegister ≠ some w) :
    ∃ v len, IsJtagOn i v len := by
  rcases (Exec.execDoes_of_next hExec).cache with hKept | hNone | ⟨-, v, -, hCommand⟩
  · exact absurd (hKept.symm.trans hNow) hBefore
  · rw [hNone] at hNow; cases hNow
  · rcases hCommand with ⟨len, rfl⟩ | ⟨len, n, rfl⟩ | ⟨len, n, data, rfl⟩
    · exact ⟨v, len, .inl rfl⟩
    · exact ⟨v, len, .inr (.inl ⟨n, rfl⟩)⟩
    · exact ⟨v, len, .inr (.inr ⟨n, data, rfl⟩)⟩

/-- Settles O51: the commands that invalidate do so whatever they are answered; a JTAG command leaves in the cache what
`CacheAfter` says. -/
theorem cacheRule : Obligations.CacheRule := by
  refine ⟨fun _ => rfl, fun i s t hExec => ⟨?_, ?_, ?_, ?_, ?_⟩⟩
  · rintro p rfl hYes
    exact cache_none_of_protoSel hYes hExec
  · rintro (hAssert | hDeassert | rfl)
    · exact cache_none_of_resetLine (.inl hAssert) hExec
    · exact cache_none_of_resetLine (.inr hDeassert) hExec
    · exact cache_none_of_attach hExec
  · rintro hCommand ⟨info, hFailure⟩
    obtain ⟨v, len, hOn⟩ := exists_isJtagOn hCommand
    exact (cacheAfter_exec hOn hExec).none_of_failure hFailure
  · intro w hNow hBefore
    obtain ⟨v, len, hOn⟩ := isJtagOn_of_new_value hExec hNow hBefore
    obtain ⟨rfl, hOk, rest, hWire⟩ := (cacheAfter_exec hOn hExec).frame_of_new_value hNow hBefore
    exact ⟨len, rest, hWire, hOk, hOn⟩
  · intro hNow hBefore
    have hChanged : t.ps.currentIrRegister ≠ s.ps.currentIrRegister := fun h => hBefore (h.symm.trans hNow)
    rcases Writers.writer_of_cache_changed hExec hChanged with hSel | hAssert | hDeassert | hAttach | hCommand
    · exact .inl hSel
    · exact .inr (.inl hAssert)
    · exact .inr (.inr (.inl hDeassert))
    · exact .inr (.inr (.inr (.inl hAttach)))
    · obtain ⟨v, len, hOn⟩ := exists_isJtagOn hCommand
      exact .inr (.inr (.inr (.inr ⟨(cacheAfter_exec hOn hExec).failure_of_invalidated hNow hBefore, hCommand⟩)))

end Sys2Proof.Proofs.Cache
end

section
/-! The outcome `Assert`: its causes, and that it comes from nothing else (R85, R130, R250; assumption log 1). -/

namespace Sys2Proof.Proofs.Refusal

open Sys2Proof Sys2Proof.Machine Sys2Proof.Proofs

/-- Settles O22: outside the contract every instruction is refused with nothing else done, and in a configuration that
R4 admits an `Assert` has no other origin. -/
theorem assertExactlyOutsideTheContract : Obligations.AssertExactlyOutsideTheContract := by
  intro i s hWf
  obtain ⟨t, hExec, hDoes⟩ := exec_does i s
  have hRefused (hOut : i.wf s.cfg = false) : t = s.assertOut :=
    Host.Outcome.next.inj (hExec.symm.trans (exec_of_not_wf i s hOut))
  have hOut (hAssert : t.resp = some .assert) : i.wf s.cfg = false :=
    (hDoes.asserts hAssert).resolve_left (by simp [hWf])
  exact ⟨t, hExec, ⟨hOut, fun h => congrArg State.resp (hRefused h)⟩, fun hAssert => hRefused (hOut hAssert)⟩

/-! ### The causes of R250, as what they break of the contract -/

theorem alignedOffset_eq_false {a : BitVec 4} (hLow : a.getLsbD 0 = true ∨ a.getLsbD 1 = true) :
    alignedOffset a = false := by
  rw [← offsetAligned_eq_alignedOffset, offsetAligned]
  rcases hLow with hBit | hBit
  · rw [hBit]; rfl
  · rw [hBit, Bool.not_true, Bool.and_false]

theorem drBitsInContract_zero (c : Config) : drBitsInContract c 0 = false := rfl

section

variable {c : Config} {v : BitVec 8} {len : Nat}

theorem jtagRd_not_wf_of_irOperands (hIr : irOperandsInContract v len = false) (n : Nat) :
    Instr.wf c (.jtagRd v len n) = false := by
  simp [Instr.wf, hIr]

theorem jtagRd_not_wf_of_drBits {n : Nat} (hDr : drBitsInContract c n = false) :
    Instr.wf c (.jtagRd v len n) = false := by
  simp [Instr.wf, hDr]

/-- What breaks the contract of a read breaks that of a write (R219, R220). -/
theorem jtagWr_not_wf_of_jtagRd {n : Nat} (hRd : Instr.wf c (.jtagRd v len n) = false) (d : List Byte) :
    Instr.wf c (.jtagWr v len n d) = false :=
  Bool.and_eq_false_iff.2 (.inl hRd)

theorem jtagWr_not_wf_of_length {n : Nat} {d : List Byte} (hLength : d.length ≠ ceilDiv8 n) :
    Instr.wf c (.jtagWr v len n d) = false :=
  Bool.and_eq_false_iff.2 (.inr (decide_eq_false hLength))

end

/-- Settles O21: each cause puts the instruction outside the contract. -/
theorem sixCausesOfAssert : Obligations.SixCausesOfAssert := by
  intro s
  refine ⟨⟨exec_of_not_wf _ s rfl, exec_of_not_wf _ s rfl⟩, fun port x addr v hLow => ?_, fun v len n d hIr => ?_,
    fun v len d => ?_, fun v len n d hLength => exec_of_not_wf _ s (jtagWr_not_wf_of_length hLength)⟩
  · have hOffset := alignedOffset_eq_false hLow
    exact ⟨exec_of_not_wf (.dapRd port x addr) s hOffset, exec_of_not_wf (.dapWr port x addr v) s hOffset⟩
  · have hOperands : irOperandsInContract v len = false := JtagFrames.irContract_eq_false hIr
    have hRd : Instr.wf s.cfg (.jtagRd v len n) = false := jtagRd_not_wf_of_irOperands hOperands n
    exact ⟨exec_of_not_wf (.jtagWir v len) s hOperands, exec_of_not_wf _ s hRd,
      exec_of_not_wf _ s (jtagWr_not_wf_of_jtagRd hRd d)⟩
  · have hRd : Instr.wf s.cfg (.jtagRd v len 0) = false := jtagRd_not_wf_of_drBits (drBitsInContract_zero s.cfg)
    exact ⟨exec_of_not_wf _ s hRd, exec_of_not_wf _ s (jtagWr_not_wf_of_jtagRd hRd d)⟩

end Sys2Proof.Proofs.Refusal
end

section
/-! Which error kinds an instruction can end in (R240, R150), and the two that none ends in (R260). -/

namespace Sys2Proof.Proofs.ErrorKind

open Sys2Proof Sys2Proof.Machine Sys2Proof.Proofs

/-- Settles O45: it is what `ExecDoes` says of an error. -/
theorem kindsAreRaisedByTheirCommands : Obligations.KindsAreRaisedByTheirCommands := by
  intro i s t k info hExec hErr
  obtain ⟨hRaise, -⟩ := (Exec.execDoes_of_next hExec).err k info hErr
  exact hRaise

/-- A kind whose row of R240 is empty is raised by nothing, and `jtag_enc_ir` has a kind of its own. -/
theorem mayRaise_eq_false {k : ErrKind} (hRow : ∀ op, raisedByOpcode op k = false) (hOther : k ≠ .notImplemented)
    (i : Instr) : mayRaise i k = false := by
  unfold mayRaise
  cases i.opcode with
  | none => simp [hOther]
  | some op => exact hRow op

theorem mayRaise_waitResponse (i : Instr) : mayRaise i .waitResponse = false :=
  mayRaise_eq_false (k := .waitResponse) (fun _ => rfl) (by decide) i

theorem mayRaise_noAcknowledge (i : Instr) : mayRaise i .noAcknowledge = false :=
  mayRaise_eq_false (k := .noAcknowledge) (fun _ => rfl) (by decide) i

/-- The codes of R101 name their kind. -/
theorem eq_of_codes {k : ErrKind} {err sub : BitVec 3} {j : ErrKind} (hErr : k.code = err) (hSub : k.sub = sub)
    (hRow : ResponseCode.kindOfCodes err sub = some j) : k = j := by
  subst hErr hSub
  exact Option.some.inj ((ResponseCode.kindOfCodes_code_sub k).symm.trans hRow)

/-- Settles O46: the codes name `WaitResponse` or `NoAcknowledge`, and no command raises either. -/
theorem waitAndNoAckNeverSurface : Obligations.WaitAndNoAckNeverSurface := by
  rintro i s t r hExec hResp ⟨hErr, hSub⟩
  cases r with
  | ok v => cases hErr
  | assert => cases hErr
  | err k info =>
    have hRaise := kindsAreRaisedByTheirCommands i s t k info hExec hResp
    have hCode : k.code = 5#3 := Option.some.inj hErr
    rcases hSub with hWait | hNoAck
    · rw [eq_of_codes hCode (Option.some.inj hWait) rfl, mayRaise_waitResponse] at hRaise
      cases hRaise
    · rw [eq_of_codes hCode (Option.some.inj hNoAck) rfl, mayRaise_noAcknowledge] at hRaise
      cases hRaise

end Sys2Proof.Proofs.ErrorKind
end

section
/-! The checks after the contract that stop a command before it does anything: the limit on `irlen` and the protocol
gate (R189, R223, R241, R244, R251). -/

namespace Sys2Proof.Proofs.Gates

open Sys2Proof Sys2Proof.Machine Sys2Proof.Proofs

/-- The contract on `irval` ends where the limit on `irlen` is passed (R250 cause (4), R251). -/
theorem irContract_of_long {len : Nat} (hLong : 8 < len) (v : BitVec 8) : irContract v len = true := by
  have hLimit : Config.maxIrLen < len := hLong
  have hPos : 1 ≤ len := by omega
  rw [irContract, decide_eq_true hPos, decide_eq_true hLimit]
  rfl

/-- Inside the contract every JTAG command of length `len` ends in an error of kind `k`, whatever it executes. -/
def Stops (s : State) (len : Nat) (k : ErrKind) : Prop :=
  ∀ (op : BitVec 4) (run : State → State), jtagChecked op true len s run = s.raise k (opInfo op)

theorem stops_of_long {len : Nat} (hLong : 8 < len) (s : State) : Stops s len .notImplemented := by
  intro op run
  have hLimit : Config.maxIrLen < len := hLong
  rw [jtagChecked, if_neg (by decide), if_pos hLimit]

theorem stops_of_swd {s : State} {len : Nat} (hShort : len ≤ 8) (hSwd : s.ps.selectedProtocol = .swd) :
    Stops s len .unsupportedProtocol := by
  intro op run
  have hLimit : ¬ Config.maxIrLen < len := Nat.not_lt.2 hShort
  rw [jtagChecked, if_neg (by decide), if_neg hLimit, if_pos (by simp [hSwd])]

section

variable {s : State} {v : BitVec 8} {len : Nat} {k : ErrKind} (hStops : Stops s len k)
  (hIr : irContract v len = true)

include hStops hIr

theorem exec_jtagWir_of_stops : exec (.jtagWir v len) s = .next (s.raise k (opInfo 0xB#4)) := by
  rw [exec, execJtagWir, hIr, hStops]

variable {n : Nat} (hDr : drContract s.cfg n = true)

include hDr

theorem exec_jtagRd_of_stops : exec (.jtagRd v len n) s = .next (s.raise k (opInfo 0xC#4)) := by
  rw [JtagCommands.exec_jtagRd, hIr, hDr, Bool.and_true, hStops]

theorem exec_jtagWr_of_stops {d : List Byte} (hLength : d.length = ceilDiv8 n) :
    exec (.jtagWr v len n d) s = .next (s.raise k (opInfo 0xD#4)) := by
  rw [JtagCommands.exec_jtagWr_of_length hLength, hIr, hDr, Bool.and_true, hStops]

end

/-- Settles O23: a long length is inside the contract whatever the value, and stops before the protocol is read. -/
theorem longInstructionRegisterNotImplemented : Obligations.LongInstructionRegisterNotImplemented := by
  intro s v len hLong
  have hStops := stops_of_long hLong s
  have hIr := irContract_of_long hLong v
  refine ⟨exec_jtagWir_of_stops hStops hIr, fun n d hMax hPos => ?_⟩
  have hDr := (drContract_iff s.cfg n).2 ⟨hPos, hMax⟩
  exact ⟨exec_jtagRd_of_stops hStops hIr hDr, exec_jtagWr_of_stops hStops hIr hDr⟩

section

variable {s : State} (hJtag : s.ps.selectedProtocol = .jtag) {addr : BitVec 4} (hAligned : offsetAligned addr = true)

include hJtag hAligned

theorem dapRead_of_jtag (port : Port) (x : Nat) :
    dapRead port x addr s = s.raise .unsupportedProtocol (dapInfo 0x0#4 port x addr .main) := by
  rw [dapRead, if_neg (by simp [hAligned]), if_pos (by simp [hJtag])]

theorem dapWrite_of_jtag (port : Port) (x : Nat) (v : Word) :
    dapWrite port x addr v s = s.raise .unsupportedProtocol (dapInfo 0x1#4 port x addr .main) := by
  rw [dapWrite, if_neg (by simp [hAligned]), if_pos (by simp [hJtag])]

end

/-- Settles O24: the support check, then the gate in either protocol: in `Jtag` it stops the line reset and the engine
commands, in `Swd` the JTAG commands. -/
theorem unsupportedProtocolCauses : Obligations.UnsupportedProtocolCauses := by
  intro s
  refine ⟨fun p hNo => ProbeCommands.exec_protoSel_unsupported hNo,
    fun hJtag => ⟨ProbeCommands.exec_lrst_jtag hJtag, fun port x addr v hExtract => ?_⟩,
    fun hSwd v len hPos hShort hFits => ?_⟩
  · have hAligned := offsetAligned_of_extract hExtract
    exact ⟨congrArg Host.Outcome.next (dapRead_of_jtag hJtag hAligned port x),
      congrArg Host.Outcome.next (dapWrite_of_jtag hJtag hAligned port x v)⟩
  · have hStops := stops_of_swd hShort hSwd
    have hIr := irContract_of hPos hFits
    refine ⟨exec_jtagWir_of_stops hStops hIr, fun n d hMax hBitsPos => ?_⟩
    have hDr := (drContract_iff s.cfg n).2 ⟨hBitsPos, hMax⟩
    exact ⟨exec_jtagRd_of_stops hStops hIr hDr, exec_jtagWr_of_stops hStops hIr hDr⟩

end Sys2Proof.Proofs.Gates
end

section
/-! What can come of a step: a next state, or the fault of the closed port (R270, R273, assumption log 7). -/

namespace Sys2Proof.Proofs.Stops

open Sys2Proof Sys2Proof.Machine Sys2Proof.Proofs

theorem step_of_port_closed {s : State} {p : Presented} {rest : List Input} (hHost : s.host = .port p :: rest)
    (hBusy : s.eng.phase ≠ .idle) : step s = .fault .portClosed := by
  rw [Port.step_of_port hHost, if_neg hBusy]

/-- An instruction always has a next state, so only a thing presented on a closed port stops a step. -/
theorem step_next_or_port_closed (s : State) :
    (∃ t, step s = .next t) ∨
      (s.eng.phase ≠ .idle ∧ (∃ p rest, s.host = .port p :: rest) ∧ step s = .fault .portClosed) := by
  cases hHost : s.host with
  | nil => exact .inl ⟨s, Invariant.step_of_no_input hHost⟩
  | cons input rest =>
    cases input with
    | reset => exact .inl ⟨_, Invariant.step_of_reset hHost⟩
    | port p =>
      by_cases hIdle : s.eng.phase = .idle
      · obtain ⟨t, hExec, -⟩ := exec_does (decode s.cfg p) { s with host := rest }
        exact .inl ⟨t, (Port.stepRunsDecodedInstruction s p rest hIdle hHost).trans hExec⟩
      · exact .inr ⟨hIdle, ⟨p, rest, rfl⟩, step_of_port_closed hHost hIdle⟩

/-- Settles O2: an equation of the step for each clause, and the last from what can come of a step. -/
theorem stepWaitsOrStops : Obligations.StepWaitsOrStops := by
  refine ⟨fun _ => Invariant.step_of_no_input, fun _ _ _ => step_of_port_closed,
    fun _ _ => Invariant.step_of_reset, fun s => ?_⟩
  obtain ⟨t, hNext⟩ | ⟨hBusy, hPort, hFault⟩ := step_next_or_port_closed s
  · simp [hNext]
  · exact ⟨by simp [hFault], fun _ _ => ⟨hBusy, hPort⟩⟩

end Sys2Proof.Proofs.Stops
end
